-- ==== Sys2Proof/Word.lean ====
section
/-! DEFINITION. The word types of the block (00_scope.md R10, R13): every value is unsigned. -/

namespace Sys2Proof

/-- A Data Byte (20_memory.md R51) or a character of a text line (R54). -/
abbrev Byte := BitVec 8

/-- A device address: the 15 address pins (10_state.md R29). -/
abbrev DevAddr := BitVec 15

/-- The 17-bit `ADDR` operand of a command word (30_encoding.md R92). -/
abbrev AddrOperand := BitVec 17

/-- The 11-bit `COUNT` operand of a block command (30_encoding.md R93). -/
abbrev Count := BitVec 11

/-- A command word (30_encoding.md R91). -/
abbrev CmdWord := BitVec 32

/-- `DEVICE_SIZE` (00_scope.md R10). -/
def deviceSize : Nat := 32768

/-- `BLANK`, the blank fill value (00_scope.md R10). -/
def blank : Byte := 0xFF

/-- `ERASE_BATCH` (00_scope.md R10). -/
def eraseBatch : Nat := 64

/-- `PROGRESS_INTERVAL` (00_scope.md R10). -/
def progressInterval : Nat := 1024

end Sys2Proof
end

