-- ==== Sys2Proof/Config.lean ====
section
/-! DEFINITION. The parameters of 00_scope.md R11 and R12, and the free values of the spec's draws. The parameters are data
held in State (log 1): a statement about every state is a statement about every value of them. -/

namespace Sys2Proof

/-- The four destinations the strobe can be routed to (00_scope.md R18 "Function"). -/
inductive Fn where
  | low
  | high
  | we
  | oe
  deriving DecidableEq, Repr, Inhabited

/-- How many further device reads will see a write cycle still running (20_memory.md R73). -/
inductive Budget where
  | finite (k : Nat)
  | infinite
  deriving DecidableEq, Repr, Inhabited

/-- The named parameters of R11 and R12. Durations are in microseconds (log 17). -/
structure Config where
  /-- `POLL_LIMIT` -/
  pollLimit : Nat
  /-- `T_WRITE_SETTLE` -/
  tWriteSettle : Nat
  /-- `T_OE_SETTLE` -/
  tOeSettle : Nat
  /-- `T_ERASE_PAUSE` -/
  tErasePause : Nat
  /-- `T_DEV_WC`, any number (log 28) -/
  tDevWc : Nat
  /-- `BLOCK_SIZE` -/
  blockSize : Nat
  /-- `CS_SEL_LEVEL` -/
  csSelLevel : BitVec 1
  /-- `FN_LOW`, `FN_HIGH`, `FN_WE`, `FN_OE` -/
  fnLow : BitVec 2
  fnHigh : BitVec 2
  fnWe : BitVec 2
  fnOe : BitVec 2
  /-- `ERASE_PARK_ADDR`, a device address (log 27) -/
  eraseParkAddr : DevAddr
  deriving DecidableEq, Repr

namespace Config

/-- The defaults of R11 and R12. -/
def default : Config where
  pollLimit := 100
  tWriteSettle := 1000
  tOeSettle := 10
  tErasePause := 20000
  tDevWc := 10000
  blockSize := 1024
  csSelLevel := 0
  fnLow := 0
  fnHigh := 1
  fnWe := 2
  fnOe := 3
  eraseParkAddr := 0

/-- The function-select code of a function (R12, 10_state.md R24). -/
def code (c : Config) : Fn → BitVec 2
  | .low => c.fnLow
  | .high => c.fnHigh
  | .we => c.fnWe
  | .oe => c.fnOe

/-- The constraints of R11, and the pairwise distinct codes that 10_state.md R24 asks for. DESIGN CHOICE (log 28): R12 gives
`T_DEV_WC` no constraint and the model asks none of it, so it may be 0. -/
def wf (c : Config) : Bool :=
  decide (1 ≤ c.pollLimit) && decide (0 < c.tWriteSettle) && decide (0 < c.tOeSettle) &&
  decide (0 < c.tErasePause) && decide (1 ≤ c.blockSize) && decide (c.blockSize ≤ 2047) &&
  decide ([c.fnLow, c.fnHigh, c.fnWe, c.fnOe].Nodup)

/-- FREE VALUE: the budget `k` that the n-th draw gives a write (20_memory.md R73 "`k` a draw from the naturals and
infinity"; log 7). -/
opaque freeBudget : Nat → Budget

/-- FREE VALUE: bits 6:0 of a read of the busy device (20_memory.md R72 "`r[6:0]` a draw"; log 7). -/
opaque freeLowBits : Nat → BitVec 7

/-- FREE VALUE: a whole byte: a read of floating lines (20_memory.md R70 (c)), `readStatus()` (R62), an answer of the
unconstrained oracle (R72); log 7. -/
opaque freeByte : Nat → Byte

end Config

end Sys2Proof
end

