-- ==== Sys2Proof/Syntax.lean ====
section
/-! DEFINITION. The operations: one constructor per row of spec/opcode_table.json (30_encoding.md R94, R96, R108), and the
moves of the host that carry them. -/

namespace Sys2Proof

/-- The two values of the chip-select flag operand (00_scope.md R18): under `sel` the device responds. -/
inductive Sel where
  | sel
  | desel
  deriving DecidableEq, Repr, Inhabited

/-- The instructions. A command word's operands are its fields (30_encoding.md R92, R93), a reserved word keeps the bits that
its row leaves open, and a PARSELINE row keeps the characters after the two that chose it (all of them for `parseOther`). -/
inductive Instr where
  | setaddr (addr : AddrOperand) (cs : Sel)
  | writebyte (addr : AddrOperand) (value : Byte)
  | fastwrite (addr : AddrOperand) (value : Byte)
  | readbyte (addr : AddrOperand)
  | readblock (addr : AddrOperand) (count : Count)
  | writeblock (addr : AddrOperand) (count : Count)
  | erase
  | illegalOp0 (low : BitVec 28)
  | illegalOp8F (low : BitVec 31)
  | parseS1 (rest : List Byte)
  | parseS0 (rest : List Byte)
  | parseS2 (rest : List Byte)
  | parseS3 (rest : List Byte)
  | parseS4 (rest : List Byte)
  | parseS5 (rest : List Byte)
  | parseS6 (rest : List Byte)
  | parseS7 (rest : List Byte)
  | parseS8 (rest : List Byte)
  | parseS9 (rest : List Byte)
  | parseOther (line : List Byte)
  deriving DecidableEq, Repr

/-- What the host hands to the block between operations (00_scope.md R3 (a), 10_state.md R35): a command word, one text line
with its terminator removed (30_encoding.md R110), or a byte for one element of the Transfer Buffer. -/
inductive HostMove where
  | command (w : CmdWord)
  | line (text : List Byte)
  | fill (index : Nat) (value : Byte)
  deriving DecidableEq, Repr

end Sys2Proof
end

