-- ==== Sys2Proof/WellFormed.lean ====
section
/-! DEFINITION. Which instructions are well formed, and which command is legal under given parameters. -/

namespace Sys2Proof

/-- Whether a line begins with `S` and a decimal digit, and so belongs to one of the ten `PARSELINE.S<n>` rows
(30_encoding.md R108). -/
def startsRecord : List Byte → Bool
  | c0 :: c1 :: _ => c0 == 0x53 && decide (0x30 ≤ c1) && decide (c1 ≤ 0x39)
  | _ => false

namespace Instr

/-- Every field's width is in its type; what is left to check is that `parseOther` holds a line of no other row. -/
def wf : Instr → Bool
  | .parseOther line => !startsRecord line
  | .setaddr _ _ | .writebyte _ _ | .fastwrite _ _ | .readbyte _ | .readblock _ _ | .writeblock _ _ | .erase
  | .illegalOp0 _ | .illegalOp8F _ | .parseS1 _ | .parseS0 _ | .parseS2 _ | .parseS3 _ | .parseS4 _ | .parseS5 _
  | .parseS6 _ | .parseS7 _ | .parseS8 _ | .parseS9 _ => true

/-- A legal command under the parameters `c` (30_encoding.md R96): not a reserved opcode, and no count above `BLOCK_SIZE`. -/
def legal (c : Config) : Instr → Bool
  | .readblock _ count | .writeblock _ count => decide (count.toNat ≤ c.blockSize)
  | .illegalOp0 _ | .illegalOp8F _ => false
  | .setaddr _ _ | .writebyte _ _ | .fastwrite _ _ | .readbyte _ | .erase | .parseS1 _ | .parseS0 _ | .parseS2 _
  | .parseS3 _ | .parseS4 _ | .parseS5 _ | .parseS6 _ | .parseS7 _ | .parseS8 _ | .parseS9 _ | .parseOther _ => true

end Instr

end Sys2Proof
end

