-- ==== Sys2Proof/Decode.lean ====
section
/-! DEFINITION. Decoding a command word or a text line (30_encoding.md R91 to R97, R103, R108), total and rejecting by name,
and the encoder written from the same tables. -/

namespace Sys2Proof

/-- Why a command word matches no row of the opcode table (30_encoding.md R96). -/
inductive Reject where
  /-- format C with bits 26:25 not 0 -/
  | nonzeroZ
  /-- `CS` set in an operation that does not use it -/
  | nonzeroCs
  /-- `DATA` not 0 in an operation that does not use it -/
  | nonzeroData
  /-- `ADDR` not 0 in ERASE -/
  | nonzeroAddr
  deriving DecidableEq, Repr

/-- The fields of 30_encoding.md R92 and R93. -/
def fieldOp (w : CmdWord) : BitVec 4 := w.extractLsb' 28 4
def fieldCs (w : CmdWord) : BitVec 1 := w.extractLsb' 27 1
def fieldZ (w : CmdWord) : BitVec 2 := w.extractLsb' 25 2
def fieldData (w : CmdWord) : Byte := w.extractLsb' 17 8
def fieldCount (w : CmdWord) : Count := w.extractLsb' 17 11
def fieldAddr (w : CmdWord) : AddrOperand := w.extractLsb' 0 17

/-- The `CS` field as an operand: 1 is SEL (30_encoding.md R95). -/
def selOfBit (b : BitVec 1) : Sel := if b = 1 then .sel else .desel

/-- The `CS` field of an operand (30_encoding.md R95). -/
def bitOfSel : Sel → BitVec 1
  | .sel => 1
  | .desel => 0

/-- SETADDR uses ADDR and CS (30_encoding.md R94, R96). -/
def decodeSetaddr (w : CmdWord) : Except Reject Instr :=
  if fieldZ w ≠ 0 then .error .nonzeroZ
  else if fieldData w ≠ 0 then .error .nonzeroData
  else .ok (.setaddr (fieldAddr w) (selOfBit (fieldCs w)))

/-- WRITEBYTE and FASTWRITE use ADDR and DATA (30_encoding.md R94, R96). -/
def decodeAddrData (make : AddrOperand → Byte → Instr) (w : CmdWord) : Except Reject Instr :=
  if fieldCs w ≠ 0 then .error .nonzeroCs
  else if fieldZ w ≠ 0 then .error .nonzeroZ
  else .ok (make (fieldAddr w) (fieldData w))

/-- READBYTE uses ADDR (30_encoding.md R94, R96). -/
def decodeReadbyte (w : CmdWord) : Except Reject Instr :=
  if fieldCs w ≠ 0 then .error .nonzeroCs
  else if fieldZ w ≠ 0 then .error .nonzeroZ
  else if fieldData w ≠ 0 then .error .nonzeroData
  else .ok (.readbyte (fieldAddr w))

/-- ERASE uses no field (30_encoding.md R94, R96). -/
def decodeErase (w : CmdWord) : Except Reject Instr :=
  if fieldCs w ≠ 0 then .error .nonzeroCs
  else if fieldZ w ≠ 0 then .error .nonzeroZ
  else if fieldData w ≠ 0 then .error .nonzeroData
  else if fieldAddr w ≠ 0 then .error .nonzeroAddr
  else .ok .erase

/-- Decoding a command word by its opcode (30_encoding.md R91, R94). Whether a block count fits the buffer depends on
`BLOCK_SIZE` and is step 0 of the operation (42_block_transfer.md R150, R151, R153). -/
def decodeWord (w : CmdWord) : Except Reject Instr :=
  if w.extractLsb' 31 1 = 1 then .ok (.illegalOp8F (w.extractLsb' 0 31))
  else if fieldOp w = 0 then .ok (.illegalOp0 (w.extractLsb' 0 28))
  else if fieldOp w = 1 then decodeSetaddr w
  else if fieldOp w = 2 then decodeAddrData .writebyte w
  else if fieldOp w = 3 then decodeAddrData .fastwrite w
  else if fieldOp w = 4 then decodeReadbyte w
  else if fieldOp w = 5 then .ok (.readblock (fieldAddr w) (fieldCount w))
  else if fieldOp w = 6 then .ok (.writeblock (fieldAddr w) (fieldCount w))
  else decodeErase w

/-- The row of a text line, decided on its first two characters alone (30_encoding.md R108). -/
def decodeLine : List Byte → Instr
  | c0 :: c1 :: rest =>
    if c0 ≠ 0x53 then .parseOther (c0 :: c1 :: rest)
    else if c1 = 0x30 then .parseS0 rest
    else if c1 = 0x31 then .parseS1 rest
    else if c1 = 0x32 then .parseS2 rest
    else if c1 = 0x33 then .parseS3 rest
    else if c1 = 0x34 then .parseS4 rest
    else if c1 = 0x35 then .parseS5 rest
    else if c1 = 0x36 then .parseS6 rest
    else if c1 = 0x37 then .parseS7 rest
    else if c1 = 0x38 then .parseS8 rest
    else if c1 = 0x39 then .parseS9 rest
    else .parseOther (c0 :: c1 :: rest)
  | short => .parseOther short

/-- What the host's move asks for: an instruction, a rejected word, or (`none`) no instruction at all. -/
def decodeMove : HostMove → Option (Except Reject Instr)
  | .command w => some (decodeWord w)
  | .line text => some (.ok (decodeLine text))
  | .fill _ _ => none

/-- Format C, from 30_encoding.md R92. -/
def formatC (op : BitVec 4) (cs : BitVec 1) (data : Byte) (addr : AddrOperand) : CmdWord :=
  op ++ cs ++ 0#2 ++ data ++ addr

/-- Format B, from 30_encoding.md R93. -/
def formatB (op : BitVec 4) (count : Count) (addr : AddrOperand) : CmdWord :=
  op ++ count ++ addr

/-- The word or the line that stands for an instruction (30_encoding.md R94, R96, R108). -/
def encode : Instr → HostMove
  | .setaddr addr cs => .command (formatC 1 (bitOfSel cs) 0 addr)
  | .writebyte addr value => .command (formatC 2 0 value addr)
  | .fastwrite addr value => .command (formatC 3 0 value addr)
  | .readbyte addr => .command (formatC 4 0 0 addr)
  | .readblock addr count => .command (formatB 5 count addr)
  | .writeblock addr count => .command (formatB 6 count addr)
  | .erase => .command (formatC 7 0 0 0)
  | .illegalOp0 low => .command (0#4 ++ low)
  | .illegalOp8F low => .command (1#1 ++ low)
  | .parseS1 rest => .line (0x53 :: 0x31 :: rest)
  | .parseS0 rest => .line (0x53 :: 0x30 :: rest)
  | .parseS2 rest => .line (0x53 :: 0x32 :: rest)
  | .parseS3 rest => .line (0x53 :: 0x33 :: rest)
  | .parseS4 rest => .line (0x53 :: 0x34 :: rest)
  | .parseS5 rest => .line (0x53 :: 0x35 :: rest)
  | .parseS6 rest => .line (0x53 :: 0x36 :: rest)
  | .parseS7 rest => .line (0x53 :: 0x37 :: rest)
  | .parseS8 rest => .line (0x53 :: 0x38 :: rest)
  | .parseS9 rest => .line (0x53 :: 0x39 :: rest)
  | .parseOther line => .line line

/-- The `n` characters of a number, the first one most significant, put before `tail` (the table takes a line's first two
characters as `c[0] << 8 | c[1]`; log 15). -/
def charsOf : Nat → Nat → List Byte → List Byte
  | 0, _, tail => tail
  | n + 1, w, tail => charsOf n (w / 256) (BitVec.ofNat 8 w :: tail)

/-- The host's move that an opcode-table row's bits stand for: a command word for the rows of 32 bits, a text line of
`nbits / 8` characters for the others (log 15). -/
def tableMove (nbits w : Nat) : HostMove :=
  if nbits = 32 then .command (BitVec.ofNat 32 w) else .line (charsOf (nbits / 8) w [])

/-- The instruction the decoder reads from a row's bits, none where it rejects them. -/
def decodeTableWord (nbits w : Nat) : Option Instr :=
  match decodeMove (tableMove nbits w) with
  | some (.ok i) => some i
  | _ => none

end Sys2Proof
end

