-- ==== Sys2Proof/Machine/State.lean ====
section
/-! DEFINITION. The state of the whole system (10_state.md R20) as plain data, the reasons a step can stop, and the state
at launch (R40). -/

namespace Sys2Proof.Machine

/-- The element a model fault of 10_state.md R41 depends on. -/
inductive Element where
  | function
  | latch
  | data
  | buffer
  deriving DecidableEq, Repr

/-- The model faults (60_exceptions.md R208): a state that has gone wrong. None is an outcome and none has a code. -/
inductive Fault where
  /-- Port and device drive the data lines together (20_memory.md R70 (d), R71). Raised by every port call. Safe: the spec
  itself stops here. -/
  | busContention
  /-- A trailing edge of `LOW`, `HIGH`, or of `WE` with the device selected, while `DIR = in` or an element it needs has no
  value (20_memory.md R68, R69, R71). Raised by writeControl. Safe: the spec itself stops here. -/
  | floatingCapture
  /-- An element with no value is depended on (10_state.md R41; 42_block_transfer.md R151 for `BUF[i]`). Raised by the port
  calls and by WRITEBLOCK. Safe: the spec itself stops here. -/
  | noValue (what : Element)
  /-- The host fills a buffer index at or above `BLOCK_SIZE`, which does not exist (20_memory.md R53). Raised by the host's
  fill move. Safe: nothing can be claimed of the state after it. -/
  | noBufferElement
  deriving DecidableEq, Repr

/-- Why an instruction is not run. -/
inductive Refusal where
  /-- The instruction has no meaning yet. Raised by a rejected arm of `exec` only; no arm is rejected. Safe. -/
  | notModelled (mnemonic : String)
  deriving DecidableEq, Repr

/-- The direction of the shared data lines (10_state.md R22). -/
inductive Dir where
  | out
  | inp
  deriving DecidableEq, Repr

/-- The port (10_state.md R21 to R28). A `…Known` mark says whether its element has a value in the sense of R40 and R41
(log 4). -/
structure Port where
  data : Byte
  dataKnown : Bool
  dir : Dir
  ctrl : Byte
  fselKnown : Bool
  status : Byte
  latchLo : Byte
  latchLoKnown : Bool
  latchHi : Byte
  latchHiKnown : Bool
  deriving DecidableEq, Repr

/-- The device's internal write cycle (10_state.md R38, 20_memory.md R73). -/
inductive Pend where
  | none
  | busy (addr : DevAddr) (value : Byte) (budget : Budget)
  deriving DecidableEq, Repr

/-- Which device is attached (log 8): the general contract (20_memory.md R72 to R74), a reference device (R75), or the
unconstrained oracle (R72). -/
inductive DeviceKind where
  | contract
  | ideal
  | slow (n : Nat)
  | stuck
  | faulty (mask : Byte)
  | oracle
  deriving DecidableEq, Repr

/-- The device (10_state.md R37, R38): `mem` in canonical form (log 5), the write cycle, and which device it is. -/
structure Device where
  mem : List Host.Cell
  pend : Pend
  kind : DeviceKind
  deriving DecidableEq, Repr

/-- `STEP_R` (10_state.md R34). -/
inductive StepIndex where
  | idle
  | running (op : BitVec 4) (number : Nat)
  deriving DecidableEq, Repr

/-- The working registers and counters (10_state.md R32, R33, R34; log 14). -/
structure Work where
  opR : BitVec 4
  addrR : AddrOperand
  valR : Byte
  csR : Sel
  rbR : Byte
  cntR : Count
  idxR : Count
  pollR : Nat
  eraseR : BitVec 16
  stepR : StepIndex
  deriving DecidableEq, Repr

/-- `P_STATE` (44_srecord_parser.md R178). -/
inductive ParserState where
  | start
  | type
  | skip
  | cntH
  | cntL
  | adr3
  | adr2
  | adr1
  | adr0
  | datH
  | datL
  | done
  | bad
  deriving DecidableEq, Repr

/-- The parser registers (10_state.md R36). -/
structure Parser where
  state : ParserState
  count : Byte
  addr : BitVec 16
  rem : Byte
  nib : BitVec 4
  out : List Byte
  deriving DecidableEq, Repr

/-- The result of PARSELINE (44_srecord_parser.md R170): `skipped` is the source's `None`, `record` its `Some`. -/
inductive ParseResult where
  | skipped
  | record (address : BitVec 16) (payload : List Byte)
  | malformed
  deriving DecidableEq, Repr

/-- The events of a trace (00_scope.md R16). -/
inductive Event where
  | wd (b : Byte)
  | wc (c : Byte)
  | rd (r : Byte)
  | dir (d : Dir)
  | delay (t : Nat)
  | progress (n : Nat)
  deriving DecidableEq, Repr

/-- The state (10_state.md R20), with the model's own fields `cfg` (log 1), `draws` (log 7), `trace` (newest first, log 10),
`parsed` (log 11) and `inbox` (log 2). -/
structure State where
  cfg : Config
  port : Port
  dev : Device
  draws : Nat
  resp : BitVec 16
  work : Work
  buf : List Host.Cell
  parser : Parser
  parsed : ParseResult
  trace : List Event
  inbox : List HostMove
  deriving DecidableEq, Repr

/-- The port at launch (10_state.md R40): `DIR = out` and `CTRL.STB = 1`; nothing else has a value (logs 3 and 4). -/
def Port.launch : Port where
  data := 0
  dataKnown := false
  dir := .out
  ctrl := 1
  fselKnown := false
  status := 0
  latchLo := 0
  latchLoKnown := false
  latchHi := 0
  latchHiKnown := false

/-- The working registers at launch (10_state.md R40 "idle, no value"; log 3). -/
def Work.launch : Work where
  opR := 0
  addrR := 0
  valR := 0
  csR := .desel
  rbR := 0
  cntR := 0
  idxR := 0
  pollR := 0
  eraseR := 0
  stepR := .idle

/-- The idle parser (10_state.md R36, R40). -/
def Parser.idle : Parser where
  state := .start
  count := 0
  addr := 0
  rem := 0
  nib := 0
  out := []

/-- The launch state (10_state.md R40) with the parameters, the device and the contents of `MEM` that R39 and R40 make
parameters of the launch. -/
def State.launch (cfg : Config) (kind : DeviceKind) (mem : List Host.Cell) : State where
  cfg := cfg
  port := Port.launch
  dev := { mem := mem, pend := .none, kind := kind }
  draws := 0
  resp := 0
  work := Work.launch
  buf := []
  parser := Parser.idle
  parsed := .skipped
  trace := []
  inbox := []

/-- The machine at launch with the default parameters, a device of the general contract and no byte of `MEM` listed. -/
def State.reset : State := State.launch Config.default .contract []

end Sys2Proof.Machine
end

