-- ==== Sys2Proof/Machine/Ops.lean ====
section
/-! DEFINITION. The shared operations over memory and port: cells, the device's two reactions, the six Port Primitive calls
(20_memory.md R58 to R63), the edge rule, `Select`, `Pulse` and `Delay`. -/

namespace Sys2Proof.Machine

/-! ## Cells: a sparse list of bytes by address -/

/-- The byte listed at `a`, if one is. -/
def Cells.find : List Host.Cell → Nat → Option Byte
  | [], _ => none
  | (b, v) :: rest, a => if b = a then some v else Cells.find rest a

/-- List `v` at `a`, in its place of the rising order. -/
def Cells.put : List Host.Cell → Nat → Byte → List Host.Cell
  | [], a, v => [(a, v)]
  | (b, w) :: rest, a, v =>
    if a < b then (a, v) :: (b, w) :: rest
    else if a = b then (a, v) :: rest
    else (b, w) :: Cells.put rest a v

/-- List nothing at `a`. -/
def Cells.drop (m : List Host.Cell) (a : Nat) : List Host.Cell := m.filter (fun c => c.1 != a)

/-- Addresses strictly rising, none below `low`, all below `bound`. -/
def Cells.rising (bound : Nat) : Nat → List Host.Cell → Bool
  | _, [] => true
  | low, (a, _) :: rest => decide (low ≤ a) && decide (a < bound) && Cells.rising bound (a + 1) rest

/-! ## Device memory (10_state.md R37) and Transfer Buffer (R35) -/

/-- `MEM[a]`; a byte that is not listed reads as 0xFF (log 5). -/
def Memory.read (m : List Host.Cell) (a : DevAddr) : Byte := (Cells.find m a.toNat).getD blank

/-- `MEM[a] <- v`, keeping the canonical form. -/
def Memory.write (m : List Host.Cell) (a : DevAddr) (v : Byte) : List Host.Cell :=
  if v = blank then Cells.drop m a.toNat else Cells.put m a.toNat v

/-- The canonical form: rising addresses of the device space, no entry equal to what an unlisted byte reads as. -/
def Memory.wf (m : List Host.Cell) : Bool := Cells.rising deviceSize 0 m && m.all (fun c => c.2 != blank)

/-- `BUF[i]`, none where it has no value (10_state.md R40). -/
def Buffer.get (b : List Host.Cell) (i : Nat) : Option Byte := Cells.find b i

/-- `BUF[i] <- v`. -/
def Buffer.set (b : List Host.Cell) (i : Nat) (v : Byte) : List Host.Cell := Cells.put b i v

/-- Rising indices below `BLOCK_SIZE`. -/
def Buffer.wf (blockSize : Nat) (b : List Host.Cell) : Bool := Cells.rising blockSize 0 b

/-! ## Small updates of the state -/

/-- `STEP_R` after `n` more port events (10_state.md R34). -/
def StepIndex.advance (n : Nat) : StepIndex → StepIndex
  | .idle => .idle
  | .running op k => .running op (k + n)

/-- Append an event to the trace; `STEP_R` advances by one after each port event (10_state.md R34). -/
def emit (e : Event) (s : State) : State :=
  { s with trace := e :: s.trace, work.stepR := s.work.stepR.advance 1 }

/-- `STEP_R` back to a loop head (10_state.md R34). -/
def returnTo (head : StepIndex) (s : State) : State := { s with work.stepR := head }

/-- The next draw's number (log 7). -/
def countDraw (s : State) : State := { s with draws := s.draws + 1 }

/-- Step 1 of an operation: the operands in the working registers, `STEP_R` at step 1 (10_state.md R32, R34). -/
def begin (op : BitVec 4) (load : Work → Work) (s : State) : State :=
  { s with work := { load s.work with opR := op, stepR := .running op 1 } }

/-! ## The device's reactions -/

/-- What a completing write stores: the byte written, but `v and m` in the reference mode `faulty(m)` (20_memory.md R73,
R75). -/
def DeviceKind.stored : DeviceKind → Byte → Byte
  | .faulty mask, v => v &&& mask
  | .contract, v | .ideal, v | .slow _, v | .stuck, v | .oracle, v => v

/-- The pending write reaches `MEM` (20_memory.md R74). -/
def Device.complete (d : Device) (a : DevAddr) (v : Byte) : Device :=
  { d with mem := Memory.write d.mem a (d.kind.stored v), pend := .none }

/-- The budget a write draws (20_memory.md R73, R75; log 7). -/
def DeviceKind.budget (draw : Nat) : DeviceKind → Budget
  | .contract | .oracle => Config.freeBudget draw
  | .ideal | .faulty _ => .finite 0
  | .slow n => .finite n
  | .stuck => .infinite

/-- An earlier write when a new one arrives: one with a finite budget completes, one with an infinite budget is abandoned
(20_memory.md R73). -/
def Device.overtaken (d : Device) : Device :=
  match d.pend with
  | .none => d
  | .busy a v (.finite _) => d.complete a v
  | .busy _ _ .infinite => { d with pend := .none }

/-- A new write with budget `k` (20_memory.md R73). -/
def Device.accept (d : Device) (a : DevAddr) (v : Byte) : Budget → Device
  | .finite 0 => d.complete a v
  | k => { d with pend := .busy a v k }

/-- `DevWrite(a, v)` (20_memory.md R73). -/
def devWrite (a : DevAddr) (v : Byte) (s : State) : State :=
  countDraw { s with dev := s.dev.overtaken.accept a v (s.dev.kind.budget s.draws) }

/-- Bits 6:0 of a read of the busy device (20_memory.md R72: a draw; R75: the pending byte's own; log 7). -/
def DeviceKind.busyLow (draw : Nat) (v : Byte) : DeviceKind → BitVec 7
  | .contract | .oracle => Config.freeLowBits draw
  | .ideal | .slow _ | .stuck | .faulty _ => v.extractLsb' 0 7

/-- The device's answer to a read at `a`, with the next draw's number (20_memory.md R72, R75). -/
def Device.answer (draw : Nat) (a : DevAddr) (d : Device) : Byte :=
  match d.kind, d.pend with
  | .oracle, _ => Config.freeByte draw
  | _, .none => Memory.read d.mem a
  | kind, .busy _ v _ => (~~~ (v.extractLsb' 7 1)) ++ kind.busyLow draw v

/-- A read lowers a finite budget by one after answering; at 0 the write completes (20_memory.md R74). -/
def Device.consumed (d : Device) : Device :=
  match d.pend with
  | .none => d
  | .busy _ _ .infinite => d
  | .busy a v (.finite k) =>
    if k ≤ 1 then d.complete a v else { d with pend := .busy a v (.finite (k - 1)) }

/-- The state after `DevRead` (20_memory.md R72, R74). -/
def afterDevRead (s : State) : State := countDraw { s with dev := s.dev.consumed }

/-- A delay `t` of at least `wc` = `T_DEV_WC` completes a pending write with a finite budget (20_memory.md R74). -/
def Device.waited (wc t : Nat) (d : Device) : Device :=
  match d.pend with
  | .busy a v (.finite _) => if wc ≤ t then d.complete a v else d
  | .none | .busy _ _ .infinite => d

/-! ## Control byte, function lines, pins -/

/-- `CTL(f, s)` (10_state.md R25): the strobe in bit 0, the function code in bits 2:1, bits 7:3 zero. -/
def ctl (c : Config) (f : Fn) (stb : BitVec 1) : Byte := 0#5 ++ c.code f ++ stb

/-- `CTRL.STB = 1` (10_state.md R24). -/
def strobeSet (ctrl : Byte) : Bool := ctrl.getLsbD 0

/-- `CTRL.FSEL` (10_state.md R24). -/
def fsel (ctrl : Byte) : BitVec 2 := ctrl.extractLsb' 1 2

/-- The function that a select code stands for (10_state.md R24; log 18 where codes are not distinct). -/
def fnOfCode (c : Config) (k : BitVec 2) : Option Fn :=
  if k = c.fnLow then some .low
  else if k = c.fnHigh then some .high
  else if k = c.fnWe then some .we
  else if k = c.fnOe then some .oe
  else none

/-- The function line that is active under a control byte (10_state.md R30). -/
def lineUnder (c : Config) (ctrl : Byte) : Option Fn :=
  if strobeSet ctrl then none else fnOfCode c (fsel ctrl)

/-- The active line; with the strobe clear it depends on `FSEL`, which must have a value (10_state.md R30, R41). -/
def activeLine (s : State) : Except Fault (Option Fn) :=
  if strobeSet s.port.ctrl then .ok none
  else if s.port.fselKnown then .ok (lineUnder s.cfg s.port.ctrl)
  else .error (.noValue .function)

/-- The address pins `A[14:0]` (10_state.md R29). -/
def addressPins (p : Port) : DevAddr := p.latchHi.extractLsb' 0 7 ++ p.latchLo

/-- `CSPIN` (10_state.md R29). -/
def csPin (p : Port) : BitVec 1 := p.latchHi.extractLsb' 7 1

/-- The device is selected (10_state.md R29). -/
def selected (s : State) : Bool := csPin s.port == s.cfg.csSelLevel

/-- The device drives the data lines: `OE` active and selected (20_memory.md R70); it needs both latches (10_state.md R41). -/
def deviceDrives (s : State) : Except Fault Bool :=
  match activeLine s with
  | .error f => .error f
  | .ok (some .oe) =>
    if s.port.latchHiKnown = false then .error (.noValue .latch)
    else if selected s = false then .ok false
    else if s.port.latchLoKnown = false then .error (.noValue .latch)
    else .ok true
  | .ok _ => .ok false

/-- Case (d) of 20_memory.md R70 is the fault `BusContention` (R71); looked for after every port call (log 19). -/
def settle (s : State) : Except Fault State :=
  match deviceDrives s with
  | .error f => .error f
  | .ok drives => if drives = true ∧ s.port.dir = .out then .error .busContention else .ok s

/-! ## The six Port Primitive calls -/

/-- `writeData(b)` (20_memory.md R58). -/
def writeData (b : Byte) (s : State) : Except Fault State :=
  settle (emit (.wd b) { s with port.data := b, port.dataKnown := true })

/-- The value a trailing edge of `LOW` or `HIGH` captures (20_memory.md R68). -/
def capturedLines (s : State) : Except Fault Byte :=
  if s.port.dir = .out ∧ s.port.dataKnown = true then .ok s.port.data else .error .floatingCapture

/-- A trailing edge of `WE` (20_memory.md R69). -/
def commitEdge (s : State) : Except Fault State :=
  if s.port.latchHiKnown = false then .error .floatingCapture
  else if selected s = false then .ok s
  else if s.port.dir = .out ∧ s.port.dataKnown = true ∧ s.port.latchLoKnown = true then
    .ok (devWrite (addressPins s.port) s.port.data s)
  else .error .floatingCapture

/-- A trailing edge of a function line (20_memory.md R67 to R69). -/
def trailingEdge (f : Fn) (s : State) : Except Fault State :=
  match f with
  | .low => do
    let v ← capturedLines s
    .ok { s with port.latchLo := v, port.latchLoKnown := true }
  | .high => do
    let v ← capturedLines s
    .ok { s with port.latchHi := v, port.latchHiKnown := true }
  | .we => commitEdge s
  | .oe => .ok s

/-- The edge rule for a line active before and a line active now (20_memory.md R67). -/
def applyEdge (was now : Option Fn) (s : State) : Except Fault State :=
  match was with
  | none => .ok s
  | some f => if now = some f then .ok s else trailingEdge f s

/-- `writeControl(c)` (20_memory.md R60). -/
def writeControl (c : Byte) (s : State) : Except Fault State := do
  let was ← activeLine s
  let s ← applyEdge was (lineUnder s.cfg c) { s with port.ctrl := c, port.fselKnown := true }
  settle (emit (.wc c) s)

/-- `readControl()` (20_memory.md R61): never issued. DESIGN CHOICE (log 29): before the first `writeControl`, when `FSEL` and
`RSV` have no value (10_state.md R40), it returns the bits that `CTRL` holds and does not fault. -/
def readControl (s : State) : Byte × State := (s.port.ctrl, s)

/-- `readStatus()` (20_memory.md R62): a draw; never issued. `STATUS` holds what the last read showed (log 16). -/
def readStatus (s : State) : Byte × State :=
  (Config.freeByte s.draws, countDraw { s with port.status := Config.freeByte s.draws })

/-- `readData()` (20_memory.md R59, R70). -/
def readData (s : State) : Except Fault (Byte × State) :=
  match deviceDrives s, s.port.dir with
  | .error f, _ => .error f
  | .ok true, .out => .error .busContention
  | .ok true, .inp =>
    let r := s.dev.answer s.draws (addressPins s.port)
    .ok (r, emit (.rd r) (afterDevRead s))
  | .ok false, .inp => .ok (Config.freeByte s.draws, emit (.rd (Config.freeByte s.draws)) (countDraw s))
  | .ok false, .out =>
    if s.port.dataKnown = true then .ok (s.port.data, emit (.rd s.port.data) s) else .error (.noValue .data)

/-- `setDirection(d)` (20_memory.md R63). -/
def setDirection (d : Dir) (s : State) : Except Fault State :=
  settle (emit (.dir d) { s with port.dir := d })

/-! ## The block's macros and events -/

/-- `Select(f)` (20_memory.md R65). -/
def select (f : Fn) (s : State) : Except Fault State := writeControl (ctl s.cfg f 1#1) s

/-- `Pulse(f)` (20_memory.md R66). -/
def pulse (f : Fn) (s : State) : Except Fault State := do
  let s ← writeControl (ctl s.cfg f 0#1) s
  writeControl (ctl s.cfg f 1#1) s

/-- `Delay(t)` (70_reset_and_hazards.md R244, 20_memory.md R74). -/
def delay (t : Nat) (s : State) : State :=
  emit (.delay t) { s with dev := s.dev.waited s.cfg.tDevWc t }

/-- `Progress(n)` (43_erase_engine.md R163): an event with no effect on any state. -/
def progress (n : Nat) (s : State) : State := emit (.progress n) s

/-- An operation's result as a step's outcome. -/
def finish : Except Fault State → Host.Outcome State Fault Refusal
  | .ok s => .next s
  | .error f => .fault f

end Sys2Proof.Machine
end

