-- ==== Sys2Proof/Machine/Flags.lean ====
section
/-! DEFINITION. The response, the analogue of a flags register (10_state.md R31): outcome codes (60_exceptions.md R200) and
the response word (30_encoding.md R98). -/

namespace Sys2Proof.Machine

/-- The outcomes of 60_exceptions.md R200. -/
inductive OutcomeCode where
  | ok
  | outOfRange
  | timedOut
  | verifyMismatch
  | shortTransfer
  | ioFailure
  | srecMalformed
  | illegalCommand
  deriving DecidableEq, Repr

/-- The codes of 60_exceptions.md R200. -/
def outcomeBits : OutcomeCode → BitVec 4
  | .ok => 0
  | .outOfRange => 1
  | .timedOut => 2
  | .verifyMismatch => 3
  | .shortTransfer => 4
  | .ioFailure => 5
  | .srecMalformed => 6
  | .illegalCommand => 7

/-- The response word: `CODE` in 15:12, a zero bit, `VALUE` in 10:0 (30_encoding.md R98). -/
def respWord (code : OutcomeCode) (value : BitVec 11) : BitVec 16 := outcomeBits code ++ 0#1 ++ value

/-- `RESP.CODE`. -/
def respCode (r : BitVec 16) : BitVec 4 := r.extractLsb' 12 4

/-- `RESP.VALUE`. -/
def respValue (r : BitVec 16) : BitVec 11 := r.extractLsb' 0 11

/-- Write the response and nothing else (30_encoding.md R98). -/
def answer (code : OutcomeCode) (value : BitVec 11) (s : State) : State := { s with resp := respWord code value }

/-- The end of an operation: its response, and `STEP_R` idle (10_state.md R31, R34). -/
def conclude (code : OutcomeCode) (value : BitVec 11) (s : State) : State :=
  answer code value (returnTo .idle s)

/-- An out-of-range address: `OutOfRange`, no port event, every element as it was but `RESP` (40_address_latch.md R121,
41_byte_engine.md R137, 60_exceptions.md R201). -/
def rejectRange (s : State) : Host.Outcome State Fault Refusal := .next (answer .outOfRange 0 s)

/-- An illegal command: `IllegalCommand`, no port event (30_encoding.md R96, 60_exceptions.md R207, R212). -/
def rejectCommand (s : State) : Host.Outcome State Fault Refusal := .next (answer .illegalCommand 0 s)

end Sys2Proof.Machine
end

