-- ==== Sys2Proof/Machine/Operands.lean ====
section
/-! DEFINITION. The operand forms: the range check on an address operand and the two latch bytes (30_encoding.md R97, R100,
R101, R113 (a)(b)(c)). -/

namespace Sys2Proof.Machine

/-- The only address check (20_memory.md R56, R81): the natural number `n` as a device address when `n < DEVICE_SIZE`. It is
made on the whole number, not on its low 15 bits (30_encoding.md R113 (b)). -/
def deviceAddress (n : Nat) : Option DevAddr := if n < deviceSize then some (BitVec.ofNat 15 n) else none

/-- The low latch byte (30_encoding.md R100). -/
def loByte (a : DevAddr) : Byte := a.extractLsb' 0 8

/-- The chip-select level that a flag operand puts on bit 7 of the high latch (30_encoding.md R101). -/
def csLevel (c : Config) : Sel → BitVec 1
  | .sel => c.csSelLevel
  | .desel => ~~~ c.csSelLevel

/-- The high latch byte (30_encoding.md R101). -/
def hiByte (c : Config) (a : DevAddr) (cs : Sel) : Byte := csLevel c cs ++ a.extractLsb' 8 7

end Sys2Proof.Machine
end

