-- ==== Sys2Proof/Machine/AddressLatch.lean ====
section
/-! DEFINITION. The Address Latch Controller (40_address_latch.md). -/

namespace Sys2Proof.Machine

/-- Steps 2 to 4, and again 5 to 7, of SETADDR: a byte on the data lines, the function selected, one pulse (40_address_latch.md
R121). -/
def loadLatch (f : Fn) (b : Byte) (s : State) : Except Fault State := do
  let s ← writeData b s
  let s ← select f s
  pulse f s

/-- Steps 2 to 7 of SETADDR on an address in range: low byte first, then the high byte with the flag (R121). The form every
other operation calls; it writes no response. -/
def latchAddress (a : DevAddr) (cs : Sel) (s : State) : Except Fault State := do
  let s ← loadLatch .low (loByte a) s
  loadLatch .high (hiByte s.cfg a cs) s

/-- SETADDR (40_address_latch.md R121). -/
def execSetaddr (addr : AddrOperand) (cs : Sel) (s : State) : Host.Outcome State Fault Refusal :=
  match deviceAddress addr.toNat with
  | none => rejectRange s
  | some a => finish do
    let s ← latchAddress a cs (begin 1 (fun w => { w with addrR := addr, csR := cs }) s)
    .ok (conclude .ok 0 s)

end Sys2Proof.Machine
end

