-- ==== Sys2Proof/Machine/ByteEngine.lean ====
section
/-! DEFINITION. The Byte Engine (41_byte_engine.md): the byte operations on an address in range, and WRITEBYTE, FASTWRITE and
READBYTE over them. -/

namespace Sys2Proof.Machine

/-- Step 2 of a write: select, then the data, then the pulse that commits it (41_byte_engine.md R130, R133). -/
def writeStrobe (v : Byte) (s : State) : Except Fault State := do
  let s ← select .we { s with work.valR := v }
  let s ← writeData v s
  pulse .we s

/-- Steps 1 and 2 of FASTWRITE (41_byte_engine.md R133). -/
def fastWrite (a : DevAddr) (v : Byte) (s : State) : Except Fault State := do
  let s ← latchAddress a .sel s
  writeStrobe v s

/-- Step 3 of READBYTE up to the sample, which goes to `RB_R` (41_byte_engine.md R134, 10_state.md R32). -/
def sampleByte (s : State) : Except Fault State := do
  let s ← select .oe s
  let s ← writeControl (ctl s.cfg .oe 0#1) s
  let rs ← readData (delay s.cfg.tOeSettle s)
  .ok { rs.2 with work.rbR := rs.1 }

/-- Steps 1 to 4 of READBYTE; the byte read is in `RB_R` (41_byte_engine.md R134, R135). -/
def readByte (a : DevAddr) (s : State) : Except Fault State := do
  let s ← latchAddress a .sel s
  let s ← setDirection .inp s
  let s ← sampleByte s
  let s ← writeControl (ctl s.cfg .oe 1#1) s
  let s ← setDirection .out s
  latchAddress a .desel s

/-- The poll test: bit 7 of (read-back xor written value) is 0 (41_byte_engine.md R130 step 5, 30_encoding.md R113 (d)). -/
def converged (r v : Byte) : Bool := (r ^^^ v).getLsbD 7 == false

/-- Steps 5 and 6 of WRITEBYTE with `n` read-backs still permitted: the bit-7 test comes first, the bound only where it
differs, and the verify uses the byte in hand (41_byte_engine.md R130, R131, R132, R136). -/
def pollLoop (a : DevAddr) (v : Byte) (head : StepIndex) : Nat → State → Except Fault (OutcomeCode × State)
  | 0, s => .ok (.timedOut, s)
  | n + 1, s => do
    let s ← readByte a (returnTo head s)
    let s := { s with work.pollR := s.work.pollR + 1 }
    if converged s.work.rbR v then
      .ok (if s.work.rbR = v then .ok else .verifyMismatch, s)
    else pollLoop a v head n s

/-- Steps 1 to 6 of WRITEBYTE (41_byte_engine.md R130). -/
def writeByte (a : DevAddr) (v : Byte) (s : State) : Except Fault (OutcomeCode × State) := do
  let s ← fastWrite a v s
  let s ← latchAddress a .desel (delay s.cfg.tWriteSettle s)
  pollLoop a v s.work.stepR s.cfg.pollLimit { s with work.pollR := 0 }

/-- WRITEBYTE (41_byte_engine.md R130). -/
def execWritebyte (addr : AddrOperand) (value : Byte) (s : State) : Host.Outcome State Fault Refusal :=
  match deviceAddress addr.toNat with
  | none => rejectRange s
  | some a => finish do
    let r ← writeByte a value (begin 2 (fun w => { w with addrR := addr }) s)
    .ok (conclude r.1 0 r.2)

/-- FASTWRITE (41_byte_engine.md R133). -/
def execFastwrite (addr : AddrOperand) (value : Byte) (s : State) : Host.Outcome State Fault Refusal :=
  match deviceAddress addr.toNat with
  | none => rejectRange s
  | some a => finish do
    let s ← fastWrite a value (begin 3 (fun w => { w with addrR := addr }) s)
    .ok (conclude .ok 0 s)

/-- READBYTE (41_byte_engine.md R134): the byte in `VALUE[7:0]`. -/
def execReadbyte (addr : AddrOperand) (s : State) : Host.Outcome State Fault Refusal :=
  match deviceAddress addr.toNat with
  | none => rejectRange s
  | some a => finish do
    let s ← readByte a (begin 4 (fun w => { w with addrR := addr }) s)
    .ok (conclude .ok (s.work.rbR.setWidth 11) s)

end Sys2Proof.Machine
end

