-- ==== Sys2Proof/Machine/BlockTransfer.lean ====
section
/-! DEFINITION. The Block Transfer Engine (42_block_transfer.md). -/

namespace Sys2Proof.Machine

/-- The loop of READBLOCK at index `i` with `n` indices to go: the clip test, then the byte (42_block_transfer.md R150, R152).
It gives the count transferred. -/
def readLoop (addr : Nat) (head : StepIndex) : Nat → Nat → State → Except Fault (Nat × State)
  | 0, i, s => .ok (i, s)
  | n + 1, i, s =>
    match deviceAddress (addr + i) with
    | none => .ok (i, s)
    | some a => do
      let s ← readByte a (returnTo head s)
      readLoop addr head n (i + 1)
        { s with buf := Buffer.set s.buf i s.work.rbR, work.idxR := BitVec.ofNat 11 (i + 1) }

/-- The loop of WRITEBLOCK at index `i` with `n` indices to go: the clip test, then the byte; a failing byte stops it and is
not counted (42_block_transfer.md R151, R152). `BUF[i]` with no value is a model fault (R151). -/
def writeLoop (addr : Nat) (head : StepIndex) : Nat → Nat → State → Except Fault (OutcomeCode × Nat × State)
  | 0, i, s => .ok (.ok, i, s)
  | n + 1, i, s =>
    match deviceAddress (addr + i) with
    | none => .ok (.ok, i, s)
    | some a =>
      match Buffer.get s.buf i with
      | none => .error (.noValue .buffer)
      | some v => do
        let r ← writeByte a v (returnTo head s)
        if r.1 = .ok then writeLoop addr head n (i + 1) { r.2 with work.idxR := BitVec.ofNat 11 (i + 1) }
        else .ok (r.1, i, r.2)

/-- The working registers of a block operation (10_state.md R32). -/
def blockOperands (addr : AddrOperand) (count : Count) (w : Work) : Work :=
  { w with addrR := addr, cntR := count, idxR := 0 }

/-- READBLOCK (42_block_transfer.md R150, R153). -/
def execReadblock (addr : AddrOperand) (count : Count) (s : State) : Host.Outcome State Fault Refusal :=
  if s.cfg.blockSize < count.toNat then rejectCommand s
  else finish do
    let r ← readLoop addr.toNat (.running 5 1) count.toNat 0 (begin 5 (blockOperands addr count) s)
    .ok (conclude .ok (BitVec.ofNat 11 r.1) r.2)

/-- WRITEBLOCK (42_block_transfer.md R151, R153). -/
def execWriteblock (addr : AddrOperand) (count : Count) (s : State) : Host.Outcome State Fault Refusal :=
  if s.cfg.blockSize < count.toNat then rejectCommand s
  else finish do
    let r ← writeLoop addr.toNat (.running 6 1) count.toNat 0 (begin 6 (blockOperands addr count) s)
    .ok (conclude r.1 (BitVec.ofNat 11 r.2.1) r.2.2)

end Sys2Proof.Machine
end

