-- ==== Sys2Proof/Machine/EraseEngine.lean ====
section
/-! DEFINITION. The Erase Engine (43_erase_engine.md). -/

namespace Sys2Proof.Machine

/-- What follows the write of address `a`: the pause that ends a batch, then the progress report (43_erase_engine.md R160,
R161, R163). -/
def erasePacing (a : Nat) (s : State) : State :=
  let s := if (a + 1) % eraseBatch = 0 then delay s.cfg.tErasePause s else s
  if (a + 1) % progressInterval = 0 then progress (a + 1) s else s

/-- The sweep from address `a` with `n` addresses to go, ascending (43_erase_engine.md R160). -/
def eraseSweep (head : StepIndex) : Nat → Nat → State → Except Fault State
  | 0, _, s => .ok s
  | n + 1, a, s => do
    let s ← fastWrite (BitVec.ofNat 15 a) blank (returnTo head s)
    let s := erasePacing a s
    eraseSweep head n (a + 1) { s with work.eraseR := BitVec.ofNat 16 (a + 1) }

/-- ERASE (43_erase_engine.md R160, R164). -/
def execErase (s : State) : Host.Outcome State Fault Refusal :=
  finish do
    let s ← eraseSweep (.running 7 1) deviceSize 0 (begin 7 (fun w => { w with eraseR := 0 }) s)
    let s ← latchAddress s.cfg.eraseParkAddr .desel s
    .ok (conclude .ok 0 s)

end Sys2Proof.Machine
end

