-- ==== Sys2Proof/Machine/IllegalCommand.lean ====
section
/-! DEFINITION. The reserved opcodes (30_encoding.md R96): `IllegalCommand` and no port event. -/

namespace Sys2Proof.Machine

/-- Opcode 0x0 (30_encoding.md R96). -/
def execIllegalOp0 (_low : BitVec 28) (s : State) : Host.Outcome State Fault Refusal := rejectCommand s

/-- Opcodes 0x8 to 0xF (30_encoding.md R96). -/
def execIllegalOp8F (_low : BitVec 31) (s : State) : Host.Outcome State Fault Refusal := rejectCommand s

end Sys2Proof.Machine
end

