-- ==== Sys2Proof/Machine/SRecord.lean ====
section
/-! DEFINITION. The S-record parser (44_srecord_parser.md): the character-serial machine that PARSELINE runs (R178), and the
function of the whole line that it computes (R171). -/

namespace Sys2Proof.Machine

/-- A hex digit's nibble, upper or lower case (30_encoding.md R104). -/
def nibble (x : Byte) : Option (BitVec 4) :=
  if 0x30 ≤ x ∧ x ≤ 0x39 then some ((x - 0x30).setWidth 4)
  else if 0x41 ≤ x ∧ x ≤ 0x46 then some ((x - 0x41 + 10).setWidth 4)
  else if 0x61 ≤ x ∧ x ≤ 0x66 then some ((x - 0x61 + 10).setWidth 4)
  else none

/-! ## The function of the line (R171) -/

/-- `pair(c[k], c[k+1])`: none where a position is missing or is no hex digit (30_encoding.md R105, 44_srecord_parser.md
R171). -/
def pairAt (text : List Byte) (k : Nat) : Option Byte :=
  match text[k]?, text[k + 1]? with
  | some h, some l =>
    match nibble h, nibble l with
    | some hi, some lo => some (hi ++ lo)
    | _, _ => none
  | _, _ => none

/-- The `n` pairs from position `k` on (44_srecord_parser.md R171 step 4). -/
def pairsFrom (text : List Byte) : Nat → Nat → Option (List Byte)
  | _, 0 => some []
  | k, n + 1 =>
    match pairAt text k, pairsFrom text (k + 2) n with
    | some b, some bs => some (b :: bs)
    | _, _ => none

/-- `parseLine` as 44_srecord_parser.md R171 writes it. -/
def parseLine (text : List Byte) : ParseResult :=
  if text[0]? ≠ some 0x53 ∨ text[1]? ≠ some 0x31 then .skipped
  else
    match pairAt text 2 with
    | none => .malformed
    | some count =>
      if count.toNat < 3 then .malformed
      else
        match pairAt text 4, pairAt text 6, pairsFrom text 8 (count.toNat - 3) with
        | some hi, some lo, some payload => .record (hi ++ lo) payload
        | _, _, _ => .malformed

/-! ## The character-serial machine (R178) -/

/-- One more digit of the address field: `(P_ADDR << 4 | nibble(x))[15:0]` (44_srecord_parser.md R178). -/
def shiftAddr (addr : BitVec 16) (d : BitVec 4) : BitVec 16 := addr.extractLsb' 0 12 ++ d

/-- A hex digit in a state that needs one (44_srecord_parser.md R178). -/
def onDigit (d : BitVec 4) (p : Parser) : Parser :=
  match p.state with
  | .cntH => { p with nib := d, state := .cntL }
  | .cntL =>
    let count : Byte := p.nib ++ d
    if count.toNat < 3 then { p with count := count, state := .bad }
    else { p with count := count, rem := count - 3, addr := 0, state := .adr3 }
  | .adr3 => { p with addr := shiftAddr p.addr d, state := .adr2 }
  | .adr2 => { p with addr := shiftAddr p.addr d, state := .adr1 }
  | .adr1 => { p with addr := shiftAddr p.addr d, state := .adr0 }
  | .adr0 => { p with addr := shiftAddr p.addr d, state := if p.rem = 0 then .done else .datH }
  | .datH => { p with nib := d, state := .datL }
  | .datL =>
    { p with out := p.out ++ [p.nib ++ d], rem := p.rem - 1, state := if p.rem - 1 = 0 then .done else .datH }
  | .start | .type | .skip | .done | .bad => p

/-- One character (44_srecord_parser.md R178). -/
def onChar (p : Parser) (x : Byte) : Parser :=
  match p.state with
  | .start => { p with state := if x = 0x53 then .type else .skip }
  | .type => { p with state := if x = 0x31 then .cntH else .skip }
  | .skip | .done | .bad => p
  | .cntH | .cntL | .adr3 | .adr2 | .adr1 | .adr0 | .datH | .datL =>
    match nibble x with
    | some d => onDigit d p
    | none => { p with state := .bad }

/-- The result at the end of the line (44_srecord_parser.md R178). -/
def onEol (p : Parser) : ParseResult :=
  match p.state with
  | .start | .type | .skip => .skipped
  | .done => .record p.addr p.out
  | .cntH | .cntL | .adr3 | .adr2 | .adr1 | .adr0 | .datH | .datL | .bad => .malformed

/-- The characters of a line, fed one at a time from the idle parser (44_srecord_parser.md R178; log 25). -/
def feedLine (line : List Byte) : Parser := line.foldl onChar Parser.idle

/-- PARSELINE on a whole line: the result is handed to the host and the parser returns to idle; no port, latch, device,
buffer or response is touched (44_srecord_parser.md R170, R178; logs 11 and 25). -/
def runParser (line : List Byte) (s : State) : Host.Outcome State Fault Refusal :=
  .next { s with parsed := onEol (feedLine line), parser := Parser.idle }

/-! ## The rows of PARSELINE (30_encoding.md R108) -/

/-- PARSELINE of an `S1` line (44_srecord_parser.md R171). -/
def execParseS1 (rest : List Byte) (s : State) : Host.Outcome State Fault Refusal := runParser (0x53 :: 0x31 :: rest) s
/-- PARSELINE of an `S0` line (44_srecord_parser.md R173). -/
def execParseS0 (rest : List Byte) (s : State) : Host.Outcome State Fault Refusal := runParser (0x53 :: 0x30 :: rest) s
/-- PARSELINE of an `S2` line (44_srecord_parser.md R173). -/
def execParseS2 (rest : List Byte) (s : State) : Host.Outcome State Fault Refusal := runParser (0x53 :: 0x32 :: rest) s
/-- PARSELINE of an `S3` line (44_srecord_parser.md R173). -/
def execParseS3 (rest : List Byte) (s : State) : Host.Outcome State Fault Refusal := runParser (0x53 :: 0x33 :: rest) s
/-- PARSELINE of an `S4` line (44_srecord_parser.md R173). -/
def execParseS4 (rest : List Byte) (s : State) : Host.Outcome State Fault Refusal := runParser (0x53 :: 0x34 :: rest) s
/-- PARSELINE of an `S5` line (44_srecord_parser.md R173). -/
def execParseS5 (rest : List Byte) (s : State) : Host.Outcome State Fault Refusal := runParser (0x53 :: 0x35 :: rest) s
/-- PARSELINE of an `S6` line (44_srecord_parser.md R173). -/
def execParseS6 (rest : List Byte) (s : State) : Host.Outcome State Fault Refusal := runParser (0x53 :: 0x36 :: rest) s
/-- PARSELINE of an `S7` line (44_srecord_parser.md R173). -/
def execParseS7 (rest : List Byte) (s : State) : Host.Outcome State Fault Refusal := runParser (0x53 :: 0x37 :: rest) s
/-- PARSELINE of an `S8` line (44_srecord_parser.md R173). -/
def execParseS8 (rest : List Byte) (s : State) : Host.Outcome State Fault Refusal := runParser (0x53 :: 0x38 :: rest) s
/-- PARSELINE of an `S9` line (44_srecord_parser.md R173). -/
def execParseS9 (rest : List Byte) (s : State) : Host.Outcome State Fault Refusal := runParser (0x53 :: 0x39 :: rest) s
/-- PARSELINE of any other line (44_srecord_parser.md R173; log 26). -/
def execParseOther (line : List Byte) (s : State) : Host.Outcome State Fault Refusal := runParser line s

end Sys2Proof.Machine
end

