-- ==== Sys2Proof/Machine/Dispatch.lean ====
section
/-! DEFINITION. One arm per instruction. -/

namespace Sys2Proof.Machine

def exec (i : Instr) (s : State) : Host.Outcome State Fault Refusal :=
  match i with
  | .setaddr addr cs => Sys2Proof.Machine.execSetaddr addr cs s
  | .writebyte addr value => Sys2Proof.Machine.execWritebyte addr value s
  | .fastwrite addr value => Sys2Proof.Machine.execFastwrite addr value s
  | .readbyte addr => Sys2Proof.Machine.execReadbyte addr s
  | .readblock addr count => Sys2Proof.Machine.execReadblock addr count s
  | .writeblock addr count => Sys2Proof.Machine.execWriteblock addr count s
  | .erase => Sys2Proof.Machine.execErase s
  | .illegalOp0 low => Sys2Proof.Machine.execIllegalOp0 low s
  | .illegalOp8F low => Sys2Proof.Machine.execIllegalOp8F low s
  | .parseS1 rest => Sys2Proof.Machine.execParseS1 rest s
  | .parseS0 rest => Sys2Proof.Machine.execParseS0 rest s
  | .parseS2 rest => Sys2Proof.Machine.execParseS2 rest s
  | .parseS3 rest => Sys2Proof.Machine.execParseS3 rest s
  | .parseS4 rest => Sys2Proof.Machine.execParseS4 rest s
  | .parseS5 rest => Sys2Proof.Machine.execParseS5 rest s
  | .parseS6 rest => Sys2Proof.Machine.execParseS6 rest s
  | .parseS7 rest => Sys2Proof.Machine.execParseS7 rest s
  | .parseS8 rest => Sys2Proof.Machine.execParseS8 rest s
  | .parseS9 rest => Sys2Proof.Machine.execParseS9 rest s
  | .parseOther line => Sys2Proof.Machine.execParseOther line s

end Sys2Proof.Machine
end

