-- ==== Sys2Proof/Machine/Issue.lean ====
section
/-! DEFINITION. Carrying out one move of the host (00_scope.md R3 (a), R4). -/

namespace Sys2Proof.Machine

/-- The host writes one element of the Transfer Buffer between operations (10_state.md R35, 42_block_transfer.md R154). -/
def fillBuffer (index : Nat) (value : Byte) (s : State) : Host.Outcome State Fault Refusal :=
  if index < s.cfg.blockSize then .next { s with buf := Buffer.set s.buf index value } else .fault .noBufferElement

/-- A command word: the instruction it decodes to, or `IllegalCommand` where it matches no row (30_encoding.md R96). -/
def issueWord (w : CmdWord) (s : State) : Host.Outcome State Fault Refusal :=
  match decodeWord w with
  | .ok i => exec i s
  | .error _ => rejectCommand s

/-- One move of the host. -/
def issue (m : HostMove) (s : State) : Host.Outcome State Fault Refusal :=
  match m with
  | .command w => issueWord w s
  | .line text => exec (decodeLine text) s
  | .fill index value => fillBuffer index value s

end Sys2Proof.Machine
end

