-- ==== Sys2Proof/Machine/Step.lean ====
section
/-! DEFINITION. One step: the host's next move carried out whole; with none waiting, the block is idle with its state held
(60_exceptions.md R221; log 2). -/

namespace Sys2Proof.Machine

def step (s : State) : Host.Outcome State Fault Refusal :=
  match s.inbox with
  | [] => .next s
  | m :: rest => issue m { s with inbox := rest }

/-- The host's next move is the command word or text line of these table bits (log 2, log 15). -/
def State.withFetchWord (s : State) (nbits w : Nat) : State := { s with inbox := tableMove nbits w :: s.inbox }

end Sys2Proof.Machine
end

