-- ==== Sys2Proof/Machine/HostProcedures.lean ====
section
/-! DEFINITION. The host procedures over whole ranges and files (45_host_procedures.md): they have no command word and touch
the block only by issuing its operations and filling its buffer (log 24). -/

namespace Sys2Proof.Machine

/-- How a host procedure ends (45_host_procedures.md R191 to R194, 60_exceptions.md R204, R205), with the context it reports
(R196). -/
inductive HostResult where
  /-- done, with the number of bytes moved -/
  | ok (moved : Nat)
  /-- a parameter out of range, rejected before any hardware access (R193) -/
  | outOfRange
  /-- the file-size guard (R192) -/
  | tooLarge
  /-- a block came back short: its `RESP.CODE`, the address, the byte in `BUF` there (R191, R192), and the count moved
  (60_exceptions.md R200) -/
  | shortTransfer (code : BitVec 4) (address : Nat) (byte : Option Byte) (moved : Nat)
  /-- a byte's write was not `Ok`: its code, the address, the byte, the count written before it (R194) -/
  | failed (code : BitVec 4) (address : Nat) (byte : Byte) (written : Nat)
  /-- a malformed line: its number and the count written before it (R194, R205) -/
  | srecMalformed (line : Nat) (written : Nat)
  deriving DecidableEq, Repr

/-- The code of 60_exceptions.md R200 that a result stands for: `Ok`, `OutOfRange`, `ShortTransfer`, `SrecMalformed`, or the code
that the byte's write answered (45_host_procedures.md R194). The file-size guard has none in the spec (log 24). -/
def HostResult.code : HostResult → Option (BitVec 4)
  | .ok _ => some (outcomeBits .ok)
  | .outOfRange => some (outcomeBits .outOfRange)
  | .tooLarge => none
  | .shortTransfer _ _ _ _ => some (outcomeBits .shortTransfer)
  | .failed code _ _ _ => some code
  | .srecMalformed _ _ => some (outcomeBits .srecMalformed)

/-- The bytes a procedure moved or wrote before it ended (60_exceptions.md R200 "count moved", "count written"). -/
def HostResult.moved : HostResult → Nat
  | .ok moved | .shortTransfer _ _ _ moved => moved
  | .outOfRange | .tooLarge => 0
  | .failed _ _ _ written | .srecMalformed _ written => written

/-- What a host procedure leaves: its result, the bytes it emitted to the file, and the machine. -/
structure HostRun where
  result : HostResult
  emitted : List Byte
  state : State
  deriving DecidableEq, Repr

/-- Go on after an operation that ended. -/
def afterOp {α : Type} (o : Host.Outcome State Fault Refusal) (k : State → Host.Outcome α Fault Refusal) :
    Host.Outcome α Fault Refusal :=
  match o with
  | .next s => k s
  | .fault f => .fault f
  | .refused r => .refused r

/-- `BUF[0 .. n-1]` as far as its elements have values. -/
def bufferPrefix (b : List Host.Cell) (n : Nat) : List Byte := (List.range n).filterMap (Buffer.get b)

/-- The loop of readRange from address `a`, `n` bounding the blocks to go (45_host_procedures.md R191). -/
def readRangeLoop (start stop : Nat) : Nat → Nat → List Byte → State → Host.Outcome HostRun Fault Refusal
  | 0, a, out, s => .next ⟨.ok (a - start), out, s⟩
  | n + 1, a, out, s =>
    if stop < a then .next ⟨.ok (a - start), out, s⟩
    else
      let req := min s.cfg.blockSize (stop - a + 1)
      afterOp (exec (.readblock (BitVec.ofNat 17 a) (BitVec.ofNat 11 req)) s) fun t =>
        let got := (respValue t.resp).toNat
        let out := out ++ bufferPrefix t.buf got
        if got < req then .next ⟨.shortTransfer (respCode t.resp) (a + got) (Buffer.get t.buf got) (a + got - start), out, t⟩
        else readRangeLoop start stop n (a + got) out t

/-- readRange (45_host_procedures.md R191, R193): the parameters are checked before any hardware access. -/
def readRange (start stop : Nat) (s : State) : Host.Outcome HostRun Fault Refusal :=
  if start ≤ stop ∧ stop < deviceSize then readRangeLoop start stop (stop + 1 - start) start [] s
  else .next ⟨.outOfRange, [], s⟩

/-- `BUF[i ..] <- bytes`. -/
def loadBuffer : Nat → List Byte → List Host.Cell → List Host.Cell
  | _, [], b => b
  | i, v :: vs, b => loadBuffer (i + 1) vs (Buffer.set b i v)

/-- The loop of writeRange with the rest of the image, `n` bounding the blocks to go (45_host_procedures.md R192). -/
def writeRangeLoop (start : Nat) : Nat → Nat → List Byte → State → Host.Outcome HostRun Fault Refusal
  | 0, done, _, s => .next ⟨.ok done, [], s⟩
  | n + 1, done, rest, s =>
    if rest = [] then .next ⟨.ok done, [], s⟩
    else
      let req := min s.cfg.blockSize rest.length
      let s := { s with buf := loadBuffer 0 (rest.take req) s.buf }
      afterOp (exec (.writeblock (BitVec.ofNat 17 (start + done)) (BitVec.ofNat 11 req)) s) fun t =>
        let got := (respValue t.resp).toNat
        if got < req then
          .next ⟨.shortTransfer (respCode t.resp) (start + done + got) (Buffer.get t.buf got) (done + got), [], t⟩
        else writeRangeLoop start n (done + req) (rest.drop req) t

/-- writeRange (45_host_procedures.md R192): the file-size guard, then the start address, before any write. -/
def writeRange (start : Nat) (image : List Byte) (s : State) : Host.Outcome HostRun Fault Refusal :=
  if deviceSize < image.length then .next ⟨.tooLarge, [], s⟩
  else if deviceSize ≤ start then .next ⟨.outOfRange, [], s⟩
  else writeRangeLoop start image.length 0 image s

/-- How writing one record's payload ends: all of it written, or stopped at a byte. -/
inductive PayloadEnd where
  | written (count : Nat) (s : State)
  | stopped (code : BitVec 4) (address : Nat) (byte : Byte) (count : Nat) (s : State)
  deriving DecidableEq, Repr

/-- One record's payload, byte by byte, with `count` bytes written so far (45_host_procedures.md R194). -/
def writePayload : Nat → List Byte → Nat → State → Host.Outcome PayloadEnd Fault Refusal
  | _, [], count, s => .next (.written count s)
  | address, v :: vs, count, s =>
    afterOp (exec (.writebyte (BitVec.ofNat 17 address) v) s) fun t =>
      if respCode t.resp = 0 then writePayload (address + 1) vs (count + 1) t
      else .next (.stopped (respCode t.resp) address v count t)

/-- The lines of an S-record file from line number `j` on (45_host_procedures.md R194). -/
def srecLines : Nat → List (List Byte) → Nat → State → Host.Outcome HostRun Fault Refusal
  | _, [], count, s => .next ⟨.ok count, [], s⟩
  | j, l :: ls, count, s =>
    afterOp (exec (decodeLine l) s) fun t =>
      match t.parsed with
      | .skipped => srecLines (j + 1) ls count t
      | .malformed => .next ⟨.srecMalformed j count, [], t⟩
      | .record address payload =>
        match writePayload address.toNat payload count t with
        | .next (.written count t) => srecLines (j + 1) ls count t
        | .next (.stopped code a v count t) => .next ⟨.failed code a v count, [], t⟩
        | .fault f => .fault f
        | .refused r => .refused r

/-- srecWrite (45_host_procedures.md R194). -/
def srecWrite (lines : List (List Byte)) (s : State) : Host.Outcome HostRun Fault Refusal := srecLines 0 lines 0 s

end Sys2Proof.Machine
end

