-- ==== Sys2Proof/Safety.lean ====
section
/-! DEFINITION. What counts as a safe run: the premises of 70_reset_and_hazards.md R231 and the invariant that every step
keeps. -/

namespace Sys2Proof.Machine

/-- The premises StrobeSet and DirOut of 70_reset_and_hazards.md R231, which are also the quiescent state between operations
(10_state.md R42). -/
def State.quiescent (s : State) : Bool := strobeSet s.port.ctrl && decide (s.port.dir = .out)

/-- No pending write has a budget of 0: such a write has completed (20_memory.md R73). -/
def Pend.wf : Pend → Bool
  | .busy _ _ (.finite k) => decide (0 < k)
  | .none | .busy _ _ .infinite => true

/-- The device's memory in canonical form and a write cycle that has not run out. -/
def Device.wf (d : Device) : Bool := Memory.wf d.mem && d.pend.wf

/-- The invariant of every state between two steps: parameters within their constraints (00_scope.md R11), the quiescent
port (10_state.md R42), memory and buffer in canonical form, a write cycle that has not run out, an idle step index (R34) and
an idle parser (R36). -/
def State.inv (s : State) : Bool :=
  s.cfg.wf && s.quiescent && s.dev.wf && Buffer.wf s.cfg.blockSize s.buf &&
    decide (s.work.stepR = .idle) && decide (s.parser = Parser.idle)

/-- The launch premises of 70_reset_and_hazards.md R231 that a model can state: StrobeSet, DirOut, DeviceIdle. (NoFault is
that there is a state at all: a fault ends the run. Acquired is outside the model.) -/
def State.launchPremises (s : State) : Bool := s.quiescent && decide (s.dev.pend = .none)

/-- `BUF[0 .. n-1]` all have values: what the host owes a WRITEBLOCK (70_reset_and_hazards.md R233 (4)). -/
def State.filled (s : State) (n : Nat) : Bool := (List.range n).all (fun i => (Buffer.get s.buf i).isSome)

/-- The device never draws an infinite budget from draw `n` on (43_erase_engine.md R166). -/
def DeviceKind.alwaysCompletes (n : Nat) : DeviceKind → Prop
  | .contract | .oracle => ∀ m, n ≤ m → Config.freeBudget m ≠ .infinite
  | .ideal | .slow _ | .faulty _ => True
  | .stuck => False

/-- The device keeps the contract of 20_memory.md R72 to R74: not the reference mode `faulty` (R75), not the oracle. -/
def DeviceKind.keepsContract : DeviceKind → Bool
  | .contract | .ideal | .slow _ | .stuck => true
  | .faulty _ | .oracle => false

/-! ## Traces and end states of the byte operations (00_scope.md R16) -/

/-- The eight events of a successful SETADDR, oldest first (40_address_latch.md R121). -/
def latchTrace (c : Config) (a : DevAddr) (cs : Sel) : List Event :=
  [.wd (loByte a), .wc (ctl c .low 1#1), .wc (ctl c .low 0#1), .wc (ctl c .low 1#1),
    .wd (hiByte c a cs), .wc (ctl c .high 1#1), .wc (ctl c .high 0#1), .wc (ctl c .high 1#1)]

/-- The twelve events of FASTWRITE, oldest first (41_byte_engine.md R133). -/
def fastWriteTrace (c : Config) (a : DevAddr) (v : Byte) : List Event :=
  latchTrace c a .sel ++ [.wc (ctl c .we 1#1), .wd v, .wc (ctl c .we 0#1), .wc (ctl c .we 1#1)]

/-- The twenty-three events of READBYTE answering `r`, oldest first (41_byte_engine.md R134). -/
def readTrace (c : Config) (a : DevAddr) (r : Byte) : List Event :=
  latchTrace c a .sel ++
    [.dir .inp, .wc (ctl c .oe 1#1), .wc (ctl c .oe 0#1), .delay c.tOeSettle, .rd r, .wc (ctl c .oe 1#1), .dir .out] ++
    latchTrace c a .desel

/-- The twenty-one events of WRITEBYTE before its first read-back, oldest first (41_byte_engine.md R130). -/
def writeTrace (c : Config) (a : DevAddr) (v : Byte) : List Event :=
  fastWriteTrace c a v ++ [.delay c.tWriteSettle] ++ latchTrace c a .desel

/-- The port after a SETADDR (40_address_latch.md R121 "End state after `Ok`"). -/
def Port.latched (c : Config) (a : DevAddr) (cs : Sel) (p : Port) : Port :=
  { p with
    data := hiByte c a cs, dataKnown := true, ctrl := ctl c .high 1#1, fselKnown := true
    latchLo := loByte a, latchLoKnown := true, latchHi := hiByte c a cs, latchHiKnown := true }

/-- The port after a FASTWRITE (41_byte_engine.md R133 "End state"). -/
def Port.strobed (c : Config) (a : DevAddr) (v : Byte) (p : Port) : Port :=
  { p.latched c a .sel with data := v, ctrl := ctl c .we 1#1 }

/-- The device as the sample of a READBYTE finds it: the hold before it may have completed a write (41_byte_engine.md R134
step 3, 20_memory.md R74). -/
def State.heldDevice (s : State) : Device := s.dev.waited s.cfg.tDevWc s.cfg.tOeSettle

/-- What a READBYTE of `a` reads: the answer of the device as its sample finds it. -/
def State.readBack (a : DevAddr) (s : State) : Byte := s.heldDevice.answer s.draws a

/-- How a control write or another port call ends that leaves the port of `t`, with `FSEL` known: a fault where port and device then
drive together, or where an active `OE` depends on a latch without a value, and `t` otherwise (20_memory.md R70, R71; log 19). -/
def contentionChecked (t : State) (r : Except Fault State) : Prop :=
  let oe := lineUnder t.cfg t.port.ctrl = some .oe
  let sel := csPin t.port = t.cfg.csSelLevel
  (¬oe → r = .ok t) ∧
  (oe → t.port.latchHiKnown = false → r = .error (.noValue .latch)) ∧
  (oe → t.port.latchHiKnown = true → ¬sel → r = .ok t) ∧
  (oe → t.port.latchHiKnown = true → sel → t.port.latchLoKnown = false → r = .error (.noValue .latch)) ∧
  (oe → t.port.latchHiKnown = true → sel → t.port.latchLoKnown = true → t.port.dir = .out →
    r = .error .busContention) ∧
  (oe → t.port.latchHiKnown = true → sel → t.port.latchLoKnown = true → t.port.dir = .inp → r = .ok t)

/-- The read-backs of one WRITEBYTE of `v` that answers `o`, with `limit` of them permitted: every one before the last differs
from `v` in bit 7; the last decides (41_byte_engine.md R130 to R132, R136; that the last permitted one still goes to the verify
is the spec's decision D9, log 20). -/
def pollEnds (limit : Nat) (v : Byte) (o : OutcomeCode) (reads : List Byte) : Prop :=
  ∃ rs r, reads = rs ++ [r] ∧ reads.length ≤ limit ∧ (∀ x ∈ rs, (x ^^^ v).getLsbD 7 = true) ∧
    ((r ^^^ v).getLsbD 7 = false → o = if r = v then .ok else .verifyMismatch) ∧
    ((r ^^^ v).getLsbD 7 = true → reads.length = limit ∧ o = .timedOut)

/-- The bytes of the records among a file's lines (45_host_procedures.md R194). -/
def recordBytes : List (List Byte) → Nat
  | [] => 0
  | line :: rest =>
    (match parseLine line with
      | .record _ payload => payload.length
      | .skipped | .malformed => 0) + recordBytes rest

/-- The number of samples in a trace. -/
def samples (t : List Event) : Nat := (t.filter (fun e => match e with | .rd _ => true | _ => false)).length

/-- The trace of ERASE, oldest first: a FASTWRITE of every address, the pause after each batch, the progress report after each
interval, the final deselect (43_erase_engine.md R160 to R164). -/
def eraseTrace (c : Config) : List Event :=
  (List.range deviceSize).flatMap (fun a =>
    fastWriteTrace c (BitVec.ofNat 15 a) blank ++
      (if (a + 1) % eraseBatch = 0 then [.delay c.tErasePause] else []) ++
      (if (a + 1) % progressInterval = 0 then [.progress (a + 1)] else [])) ++
  latchTrace c c.eraseParkAddr .desel

/-- How many bytes a block operation of `count` bytes from `addr` can move before it is clipped (42_block_transfer.md R152). -/
def clipped (addr count : Nat) : Nat := min count (deviceSize - addr)

/-- What no byte or block write, no read and no erase touches: the parameters and which device it is, STATUS, the buffer, the
parser and its result, the host's waiting moves. -/
def State.sameElsewhere (s t : State) : Prop :=
  t.cfg = s.cfg ∧ t.dev.kind = s.dev.kind ∧ t.port.status = s.port.status ∧ t.buf = s.buf ∧ t.parser = s.parser ∧
    t.parsed = s.parsed ∧ t.inbox = s.inbox

/-- Whether a write pending in the device will land at `b`: its budget is finite, and `b` is the one byte a later device reaction
may still change. A write with an infinite budget never reaches MEM (20_memory.md R73, R74). -/
def Device.landsAt (d : Device) (b : DevAddr) : Bool :=
  match d.pend with
  | .busy a _ (.finite _) => a == b
  | .busy _ _ .infinite | .none => false

/-- The illegal command words, field by field as 30_encoding.md R96 lists them. -/
def wordIsIllegal (c : Config) (w : CmdWord) : Bool :=
  let op := (w.extractLsb' 28 4).toNat
  let formatC := op == 1 || op == 2 || op == 3 || op == 4 || op == 7
  op == 0 || decide (8 ≤ op) ||
    (formatC && w.extractLsb' 25 2 != 0) ||
    (formatC && op != 1 && w.extractLsb' 27 1 != 0) ||
    ((op == 1 || op == 4 || op == 7) && w.extractLsb' 17 8 != 0) ||
    (op == 7 && w.extractLsb' 0 17 != 0) ||
    ((op == 5 || op == 6) && decide (c.blockSize < (w.extractLsb' 17 11).toNat))

/-- The responses 30_encoding.md R99 allows an operation. -/
def responseAllowed : Instr → OutcomeCode → Prop
  | .setaddr _ _, o | .fastwrite _ _, o | .readbyte _, o => o = .ok ∨ o = .outOfRange
  | .writebyte _ _, o => o = .ok ∨ o = .timedOut ∨ o = .verifyMismatch ∨ o = .outOfRange
  | .readblock _ _, o => o = .ok ∨ o = .illegalCommand
  | .writeblock _ _, o => o = .ok ∨ o = .timedOut ∨ o = .verifyMismatch ∨ o = .illegalCommand
  | .erase, o => o = .ok
  | .illegalOp0 _, o | .illegalOp8F _, o => o = .illegalCommand
  | .parseS1 _, _ | .parseS0 _, _ | .parseS2 _, _ | .parseS3 _, _ | .parseS4 _, _ | .parseS5 _, _ | .parseS6 _, _
  | .parseS7 _, _ | .parseS8 _, _ | .parseS9 _, _ | .parseOther _, _ => False

/-- The rows of PARSELINE: the operations that are not command words and write no response (30_encoding.md R111, log 11). -/
def isParse : Instr → Bool
  | .parseS1 _ | .parseS0 _ | .parseS2 _ | .parseS3 _ | .parseS4 _ | .parseS5 _ | .parseS6 _ | .parseS7 _ | .parseS8 _
  | .parseS9 _ | .parseOther _ => true
  | .setaddr _ _ | .writebyte _ _ | .fastwrite _ _ | .readbyte _ | .readblock _ _ | .writeblock _ _ | .erase
  | .illegalOp0 _ | .illegalOp8F _ => false

/-- The faults that 20_memory.md R71 rules out when the launch premises hold. -/
def Fault.isPortFault : Fault → Bool
  | .busContention | .floatingCapture => true
  | .noValue _ | .noBufferElement => false

end Sys2Proof.Machine
end

