-- ==== Sys2Proof/Certificates/Slice0/Obligations.lean ====
section
/-! DEFINITION. The statements for the provers. `s.cfg.wf` is the constraints of 00_scope.md R11, `s.quiescent` the premises
StrobeSet and DirOut of 70_reset_and_hazards.md R231. Where a statement rests on a choice of the model's, its docstring names
the log entry. -/

open Sys2Proof Sys2Proof.Machine

/-! ## Encoding -/

/-- Words of 95_test_vectors.md 2.1 and lines of 2.8 decode to the instruction they stand for. -/
def Obligations.SpecWordsDecodeToTheirInstructions : Prop :=
  decodeWord 0x18007AF0 = .ok (.setaddr 0x07AF0 .sel) ∧ decodeWord 0x10008000 = .ok (.setaddr 0x08000 .desel) ∧
  decodeWord 0x20AA1234 = .ok (.writebyte 0x01234 0x55) ∧ decodeWord 0x31FE0000 = .ok (.fastwrite 0x00000 0xFF) ∧
  decodeWord 0x40007AF0 = .ok (.readbyte 0x07AF0) ∧ decodeWord 0x50147FFB = .ok (.readblock 0x07FFB 10) ∧
  decodeWord 0x68000000 = .ok (.writeblock 0x00000 1024) ∧ decodeWord 0x70000000 = .ok .erase ∧
  decodeWord 0x00000000 = .ok (.illegalOp0 0) ∧ decodeWord 0xF0001234 = .ok (.illegalOp8F 0x70001234) ∧
  decodeWord 0x28007AF0 = .error .nonzeroCs ∧ decodeWord 0x10147AF0 = .error .nonzeroData ∧
  decodeLine [0x53, 0x31, 0x30] = .parseS1 [0x30] ∧ decodeLine [0x53, 0x39] = .parseS9 [] ∧
  decodeLine [0x73, 0x31] = .parseOther [0x73, 0x31]

/-- Decoding what the encoder gives for a well-formed instruction gives it back, for every instruction and operand. -/
def Obligations.DecodeOfEncodeIsTheInstruction : Prop :=
  ∀ i : Instr, i.wf = true → decodeMove (encode i) = some (.ok i)

/-- What decodes is well formed and encodes to the very word or line it was read from. -/
def Obligations.EncodeOfDecodeIsTheWord : Prop :=
  (∀ (w : CmdWord) (i : Instr), decodeWord w = .ok i → i.wf = true ∧ encode i = .command w) ∧
  ∀ text : List Byte, (decodeLine text).wf = true ∧ encode (decodeLine text) = .line text

/-- 30_encoding.md R96: an illegal word answers IllegalCommand and does nothing else; every other word is an instruction that
is legal, whatever its address. -/
def Obligations.IllegalWordsAnswerIllegalCommand : Prop :=
  ∀ (w : CmdWord) (s : State),
    (wordIsIllegal s.cfg w = true → issueWord w s = .next { s with resp := 0x7000 }) ∧
    (wordIsIllegal s.cfg w = false → ∃ i, decodeWord w = .ok i ∧ i.legal s.cfg = true)

/-- 30_encoding.md R96 for the two reserved rows of the table: IllegalCommand and nothing else. -/
def Obligations.ReservedOpcodesChangeOnlyResp : Prop :=
  ∀ s : State,
    (∀ low, exec (.illegalOp0 low) s = .next { s with resp := 0x7000 }) ∧
    ∀ low, exec (.illegalOp8F low) s = .next { s with resp := 0x7000 }

/-- 30_encoding.md R98: the response word's fields, bit 11 zero. -/
def Obligations.ResponseWordFields : Prop :=
  ∀ (o : OutcomeCode) (v : BitVec 11),
    respCode (respWord o v) = outcomeBits o ∧ respValue (respWord o v) = v ∧ (respWord o v).getLsbD 11 = false

/-! ## The step, reset and invariants -/

/-- A step runs the instruction that the host's next move decodes to, with that move taken from the waiting ones (log 2). -/
def Obligations.StepRunsTheDecodedInstruction : Prop :=
  ∀ (s : State) (rest : List HostMove) (i : Instr),
    (∀ w, s.inbox = .command w :: rest → decodeWord w = .ok i → step s = exec i { s with inbox := rest }) ∧
    ∀ text, s.inbox = .line text :: rest → decodeLine text = i → step s = exec i { s with inbox := rest }

/-- A step that runs no instruction: no move waits (log 2), the word matches no row (30_encoding.md R96), or the host fills one
element of the buffer (10_state.md R35; an index that does not exist faults, log 23). -/
def Obligations.StepWithoutAnInstruction : Prop :=
  ∀ (s : State) (rest : List HostMove),
    (s.inbox = [] → step s = .next s) ∧
    (∀ w e, s.inbox = .command w :: rest → decodeWord w = .error e →
      step s = .next { s with inbox := rest, resp := 0x7000 }) ∧
    ∀ n v, s.inbox = .fill n v :: rest →
      (n < s.cfg.blockSize → ∃ t, step s = .next t ∧ t = { s with inbox := rest, buf := t.buf } ∧
        Buffer.get t.buf n = some v ∧ ∀ m, m ≠ n → Buffer.get t.buf m = Buffer.get s.buf m) ∧
      (s.cfg.blockSize ≤ n → step s = .fault .noBufferElement)

/-- The launch values that 10_state.md R40 gives, for every launch: DIR out, the strobe set, no value in DATA, FSEL, the latches
or any buffer element, no pending write, parser and step index idle, MEM as given. (The bits held by an element without a
value are the model's choice, log 3, and are not stated.) -/
def Obligations.LaunchStateIsAsSpecified : Prop :=
  ∀ (c : Config) (k : DeviceKind) (m : List Host.Cell),
    let s := State.launch c k m
    s.port.dir = .out ∧ strobeSet s.port.ctrl = true ∧ s.port.dataKnown = false ∧ s.port.fselKnown = false ∧
    s.port.latchLoKnown = false ∧ s.port.latchHiKnown = false ∧ (∀ i, Buffer.get s.buf i = none) ∧ s.dev.pend = .none ∧
    s.parser.state = .start ∧ s.parser.out = [] ∧ s.work.stepR = .idle ∧ s.dev.mem = m ∧ s.launchPremises = true

/-- The invariant holds at reset, and at every launch with parameters and memory in form. -/
def Obligations.InvariantHoldsAtLaunch : Prop :=
  State.reset.inv = true ∧
  ∀ (c : Config) (k : DeviceKind) (m : List Host.Cell), c.wf = true → Memory.wf m = true → (State.launch c k m).inv = true

/-- Every step keeps the invariant: parameters, quiescent port (10_state.md R42), canonical memory and buffer, no write cycle
that has run out, idle step index and parser. -/
def Obligations.EveryStepKeepsTheInvariant : Prop :=
  ∀ s t : State, s.inv = true → step s = .next t → t.inv = true

/-- From every state that meets the invariant every instruction completes, and the invariant holds after it; WRITEBLOCK needs
the bytes it will use in the buffer (70_reset_and_hazards.md R233 (4)). -/
def Obligations.EveryInstructionCompletes : Prop :=
  ∀ (i : Instr) (s : State), s.inv = true →
    (∀ addr count, i = .writeblock addr count → s.filled (clipped addr.toNat count.toNat) = true) →
    ∃ t, exec i s = .next t ∧ t.inv = true

/-- 20_memory.md R71: from the launch premises (here the invariant, which holds at launch and is kept) no step reaches
BusContention or FloatingCapture; the only faults left are a buffer element without a value (42_block_transfer.md R151) and a
fill outside the buffer (log 23); nothing is ever refused. -/
def Obligations.NoPortFaultFromTheInvariant : Prop :=
  (∀ (s : State) (f : Fault), s.inv = true → step s = .fault f → f = .noValue .buffer ∨ f = .noBufferElement) ∧
  ∀ (s : State) (r : Refusal), step s ≠ .refused r

/-- The parameters and the device's kind are constant (10_state.md R39, 00_scope.md R11, R12; logs 1 and 8), from any state. -/
def Obligations.ParametersAreConstant : Prop :=
  ∀ s t : State, step s = .next t → t.cfg = s.cfg ∧ t.dev.kind = s.dev.kind

/-- 10_state.md R31, 60_exceptions.md R214: no instruction reads RESP, so no outcome disables a later operation: from two states
that differ in RESP alone an instruction ends in the same way, and its next states differ in RESP at most. -/
def Obligations.NoInstructionReadsResp : Prop :=
  ∀ (i : Instr) (s : State) (r : BitVec 16),
    (∀ t, exec i s = .next t → ∃ r', exec i { s with resp := r } = .next { t with resp := r' } ∧
      (isParse i = false → r' = t.resp)) ∧
    ∀ f, exec i s = .fault f → exec i { s with resp := r } = .fault f

/-- 30_encoding.md R99: the responses by operation, from any state; PARSELINE leaves RESP as it was (log 11). -/
def Obligations.ResponsesByOperation : Prop :=
  ∀ (i : Instr) (s t : State), exec i s = .next t →
    (isParse i = true → t.resp = s.resp) ∧
    (isParse i = false → ∃ o v, t.resp = respWord o v ∧ responseAllowed i o ∧
      ((∀ addr, i ≠ .readbyte addr) → (∀ addr n, i ≠ .readblock addr n) → (∀ addr n, i ≠ .writeblock addr n) → v = 0))

/-- 10_state.md R25: what CTL(f, s) is, its eight values with the default codes, and that an instruction writes no other byte to
CTRL; an instruction only adds to the trace. -/
def Obligations.ControlWritesAreTheEightBytes : Prop :=
  (∀ (c : Config) (f : Fn) (b : BitVec 1), ctl c f b = ((c.code f).setWidth 8 <<< 1) ||| b.setWidth 8) ∧
  (ctl Config.default .low 1#1 = 0x01 ∧ ctl Config.default .low 0#1 = 0x00 ∧ ctl Config.default .high 1#1 = 0x03 ∧
    ctl Config.default .high 0#1 = 0x02 ∧ ctl Config.default .we 1#1 = 0x05 ∧ ctl Config.default .we 0#1 = 0x04 ∧
    ctl Config.default .oe 1#1 = 0x07 ∧ ctl Config.default .oe 0#1 = 0x06) ∧
  ∀ (i : Instr) (s t : State), exec i s = .next t →
    ∃ new, t.trace = new ++ s.trace ∧ ∀ c, Event.wc c ∈ new → ∃ f b, c = ctl s.cfg f b

/-! ## Port -/

/-- 10_state.md R30: the line of a function is active exactly when FSEL is its code and the strobe is 0; so at most one is, and
none is while the strobe is 1. -/
def Obligations.FunctionLineActivity : Prop :=
  ∀ (c : Config) (ctrl : Byte), c.wf = true →
    (∀ f, lineUnder c ctrl = some f ↔ ctrl.extractLsb' 1 2 = c.code f ∧ ctrl.getLsbD 0 = false) ∧
    (ctrl.getLsbD 0 = true → lineUnder c ctrl = none)

/-- 20_memory.md R58 and R63 from any state in which the port is not in contention afterwards: DATA or DIR and nothing else of
port and device; and with no line active they always complete. -/
def Obligations.WriteDataAndSetDirection : Prop :=
  ∀ (s t : State),
    (∀ b, writeData b s = .ok t → t = emit (.wd b) { s with port.data := b, port.dataKnown := true }) ∧
    (∀ d, setDirection d s = .ok t → t = emit (.dir d) { s with port.dir := d }) ∧
    (strobeSet s.port.ctrl = true → (∀ b, ∃ u, writeData b s = .ok u) ∧ ∀ d, ∃ u, setDirection d s = .ok u)

/-- 20_memory.md R67, R68: a trailing edge of LOW or HIGH, which any control byte makes under which the line is no longer active,
captures DL (with DIR = out, DATA) into its latch and changes nothing else but CTRL; with DIR = in, or DATA without a value, it
faults. (Where the new byte activates OE, contention is looked for afterwards, log 19.) -/
def Obligations.LatchCaptureAtTheTrailingEdge : Prop :=
  ∀ (s : State) (c : Byte), s.port.fselKnown = true →
    (lineUnder s.cfg s.port.ctrl = some .low → lineUnder s.cfg c ≠ some .low →
      (s.port.dir = .out → s.port.dataKnown = true → contentionChecked
        (emit (.wc c) { s with port := { s.port with ctrl := c, latchLo := s.port.data, latchLoKnown := true } })
        (writeControl c s)) ∧
      (s.port.dir = .inp ∨ s.port.dataKnown = false → writeControl c s = .error .floatingCapture)) ∧
    (lineUnder s.cfg s.port.ctrl = some .high → lineUnder s.cfg c ≠ some .high →
      (s.port.dir = .out → s.port.dataKnown = true → contentionChecked
        (emit (.wc c) { s with port := { s.port with ctrl := c, latchHi := s.port.data, latchHiKnown := true } })
        (writeControl c s)) ∧
      (s.port.dir = .inp ∨ s.port.dataKnown = false → writeControl c s = .error .floatingCapture))

/-- 20_memory.md R67, R69: a trailing edge of WE, which any control byte makes under which WE is no longer active, commits DL at
the pins when the device is selected and DIR = out, does nothing when the device is not selected, and faults with DIR = in
(device selected) or when a latch or DATA has no value. (Where the new byte activates OE, contention is looked for afterwards,
log 19.) -/
def Obligations.WriteCommitAtTheTrailingEdge : Prop :=
  ∀ (s : State) (c : Byte), s.port.fselKnown = true → lineUnder s.cfg s.port.ctrl = some .we → lineUnder s.cfg c ≠ some .we →
    let after (t : State) := emit (.wc c) { t with port := { t.port with ctrl := c } }
    (s.port.latchHiKnown = true → csPin s.port = s.cfg.csSelLevel → s.port.latchLoKnown = true → s.port.dataKnown = true →
      s.port.dir = .out →
      contentionChecked (after (devWrite (addressPins s.port) s.port.data s)) (writeControl c s)) ∧
    (s.port.latchHiKnown = true → csPin s.port ≠ s.cfg.csSelLevel → writeControl c s = .ok (after s)) ∧
    (s.port.latchHiKnown = false → writeControl c s = .error .floatingCapture) ∧
    (s.port.latchHiKnown = true → csPin s.port = s.cfg.csSelLevel →
      s.port.dir = .inp ∨ s.port.latchLoKnown = false ∨ s.port.dataKnown = false →
      writeControl c s = .error .floatingCapture)

/-- 20_memory.md R60, R67: a control write under which no line goes inactive (none was active, or the same one stays), or only OE
does, stores all eight bits of the byte in CTRL and changes nothing else; with the strobe clear and an FSEL without a value it
faults (10_state.md R41, log 4). (Where the new byte activates OE, contention is looked for afterwards, log 19.) -/
def Obligations.ControlWriteWithoutACapture : Prop :=
  ∀ (s : State) (c : Byte),
    (strobeSet s.port.ctrl = true ∨ (s.port.fselKnown = true ∧ (lineUnder s.cfg s.port.ctrl = none ∨
        lineUnder s.cfg s.port.ctrl = lineUnder s.cfg c ∨ lineUnder s.cfg s.port.ctrl = some .oe)) →
      contentionChecked (emit (.wc c) { s with port := { s.port with ctrl := c, fselKnown := true } }) (writeControl c s)) ∧
    (strobeSet s.port.ctrl = false → s.port.fselKnown = false → writeControl c s = .error (.noValue .function))

/-- 20_memory.md R70: what a sample returns, by direction, OE line and selection, where the elements it depends on have values;
floating lines give a free byte. -/
def Obligations.DataLineResolution : Prop :=
  ∀ s : State, s.cfg.wf = true → s.port.dataKnown = true → s.port.fselKnown = true → s.port.latchLoKnown = true →
    s.port.latchHiKnown = true →
    let oe := lineUnder s.cfg s.port.ctrl = some .oe
    let sel := csPin s.port = s.cfg.csSelLevel
    (s.port.dir = .out → ¬(oe ∧ sel) → readData s = .ok (s.port.data, emit (.rd s.port.data) s)) ∧
    (s.port.dir = .inp → oe → sel →
      let r := s.dev.answer s.draws (addressPins s.port)
      readData s = .ok (r, emit (.rd r) (afterDevRead s))) ∧
    (s.port.dir = .inp → ¬(oe ∧ sel) →
      readData s = .ok (Config.freeByte s.draws, emit (.rd (Config.freeByte s.draws)) (countDraw s))) ∧
    (s.port.dir = .out → oe → sel → readData s = .error .busContention)

/-- 41_byte_engine.md R135, 70_reset_and_hazards.md R241: activating OE on a selected device while DIR = out, or turning the
direction to out while OE is active, reaches BusContention. -/
def Obligations.DirectionBeforeOutputEnable : Prop :=
  ∀ s : State, s.cfg.wf = true → s.port.latchLoKnown = true → s.port.latchHiKnown = true →
    csPin s.port = s.cfg.csSelLevel →
    (strobeSet s.port.ctrl = true → s.port.dir = .out → writeControl (ctl s.cfg .oe 0#1) s = .error .busContention) ∧
    (s.port.fselKnown = true → s.port.ctrl = ctl s.cfg .oe 0#1 → setDirection .out s = .error .busContention)

/-! ## Device -/

/-- 20_memory.md R72: an idle device answers MEM[a] and a read changes nothing of it; a busy device answers with bit 7 of the
pending byte inverted, whatever the address. The unconstrained oracle alone is excepted. -/
def Obligations.DeviceReadContract : Prop :=
  ∀ (d : Device) (draw : Nat) (a : DevAddr), d.kind ≠ .oracle →
    (d.pend = .none → d.answer draw a = Memory.read d.mem a ∧ d.consumed = d) ∧
    ∀ b v k, d.pend = .busy b v k → (d.answer draw a).getLsbD 7 = !v.getLsbD 7

/-- 20_memory.md R73: a new write first completes a pending one with a finite budget or abandons one with an infinite budget, then
is pending with the budget drawn, or complete where that is 0. Memory elsewhere is as before. -/
def Obligations.DeviceWriteContract : Prop :=
  ∀ (a : DevAddr) (v : Byte) (s : State), s.dev.kind.keepsContract = true →
    let t := devWrite a v s
    let k := s.dev.kind.budget s.draws
    (k = .finite 0 → t.dev.pend = .none ∧ Memory.read t.dev.mem a = v) ∧
    (k ≠ .finite 0 → t.dev.pend = .busy a v k) ∧
    ∀ b, (k = .finite 0 → b ≠ a) →
      Memory.read t.dev.mem b =
        (match s.dev.pend with
          | .busy pa pv (.finite _) => if b = pa then pv else Memory.read s.dev.mem b
          | .busy _ _ .infinite | .none => Memory.read s.dev.mem b)

/-- 20_memory.md R74: a read lowers a finite budget by one and at 0 the write completes; a delay of at least T_DEV_WC completes a
pending write with a finite budget; an infinite budget never completes. That a delay shorter than T_DEV_WC leaves the device as
it was is the model's own reading (log 17; compare 20_memory.md R75, 70_reset_and_hazards.md R242). -/
def Obligations.WriteCycleCompletion : Prop :=
  ∀ (d : Device) (a : DevAddr) (v : Byte),
    (∀ k, d.pend = .busy a v (.finite (k + 2)) → d.consumed = { d with pend := .busy a v (.finite (k + 1)) }) ∧
    (d.pend = .busy a v (.finite 1) → d.consumed = d.complete a v) ∧
    (∀ k wc n, d.pend = .busy a v (.finite k) → wc ≤ n → d.waited wc n = d.complete a v) ∧
    (∀ k wc n, d.pend = .busy a v (.finite k) → n < wc → d.waited wc n = d) ∧
    (d.pend = .busy a v .infinite → d.consumed = d ∧ ∀ wc n, d.waited wc n = d) ∧
    (d.kind.keepsContract = true → (d.complete a v).pend = .none ∧ Memory.read (d.complete a v).mem a = v ∧
      ∀ b, b ≠ a → Memory.read (d.complete a v).mem b = Memory.read d.mem b)

/-! ## SETADDR -/

/-- 40_address_latch.md R121, R125: out of range, RESP alone changes, from any state; in range, from a quiescent port, the whole
next state: the two latch bytes, the eight events, RESP = (Ok, 0); device, buffer, parser untouched. (Which working registers it
writes is WorkingRegisterFrame's.) -/
def Obligations.SetaddrLatchesOrRejects : Prop :=
  ∀ (addr : AddrOperand) (cs : Sel) (s : State),
    (deviceSize ≤ addr.toNat → exec (.setaddr addr cs) s = .next { s with resp := 0x1000 }) ∧
    (addr.toNat < deviceSize → s.cfg.wf = true → s.quiescent = true →
      let lo : Byte := addr.extractLsb' 0 8
      let hi : Byte := (if cs = .sel then s.cfg.csSelLevel else ~~~ s.cfg.csSelLevel) ++ addr.extractLsb' 8 7
      ∃ w : Work, w.stepR = .idle ∧ exec (.setaddr addr cs) s = .next { s with
        port := { s.port with
          data := hi, dataKnown := true, ctrl := ctl s.cfg .high 1#1, fselKnown := true
          latchLo := lo, latchLoKnown := true, latchHi := hi, latchHiKnown := true }
        trace := [.wd lo, .wc (ctl s.cfg .low 1#1), .wc (ctl s.cfg .low 0#1), .wc (ctl s.cfg .low 1#1),
          .wd hi, .wc (ctl s.cfg .high 1#1), .wc (ctl s.cfg .high 0#1), .wc (ctl s.cfg .high 1#1)].reverse ++ s.trace
        resp := 0
        work := w })

/-- 10_state.md R29, 40_address_latch.md R121, R124: after a SETADDR in range the address pins show the address and the
chip-select pin carries the flag. -/
def Obligations.SetaddrDrivesThePins : Prop :=
  ∀ (addr : AddrOperand) (cs : Sel) (s t : State), addr.toNat < deviceSize → s.cfg.wf = true → s.quiescent = true →
    exec (.setaddr addr cs) s = .next t →
    (addressPins t.port).toNat = addr.toNat ∧ (csPin t.port = s.cfg.csSelLevel ↔ cs = .sel)

/-! ## Byte Engine -/

/-- 41_byte_engine.md R137: an out-of-range address in a byte operation answers OutOfRange with no port event and no byte, from
any state. That nothing else changes either, the working registers included, is the model's reading (log 12; compare
60_exceptions.md R212 and program P6 of 95_test_vectors.md). -/
def Obligations.ByteOperationsRejectOutOfRange : Prop :=
  ∀ (addr : AddrOperand) (v : Byte) (s : State), deviceSize ≤ addr.toNat →
    exec (.writebyte addr v) s = .next { s with resp := 0x1000 } ∧
    exec (.fastwrite addr v) s = .next { s with resp := 0x1000 } ∧
    exec (.readbyte addr) s = .next { s with resp := 0x1000 }

/-- 41_byte_engine.md R133: FASTWRITE out of range answers OutOfRange and nothing else; in range, the whole next state: its twelve
events, DevWrite(address, value), the device left selected, RESP = (Ok, 0). (Which working registers it writes is
WorkingRegisterFrame's.) -/
def Obligations.FastwriteCommitsUnverified : Prop :=
  ∀ (addr : AddrOperand) (v : Byte) (s : State),
    (deviceSize ≤ addr.toNat → exec (.fastwrite addr v) s = .next { s with resp := 0x1000 }) ∧
    (addr.toNat < deviceSize → s.cfg.wf = true → s.quiescent = true →
    let a : DevAddr := addr.setWidth 15
    ∃ w : Work, w.stepR = .idle ∧ exec (.fastwrite addr v) s = .next { s with
      port := { s.port.latched s.cfg a .sel with data := v, ctrl := ctl s.cfg .we 1#1 }
      dev := (devWrite a v s).dev
      draws := s.draws + 1
      trace := (latchTrace s.cfg a .sel ++
        ([.wc (ctl s.cfg .we 1#1), .wd v, .wc (ctl s.cfg .we 0#1), .wc (ctl s.cfg .we 1#1)] : List Event)).reverse ++ s.trace
      resp := 0
      work := w })

/-- 41_byte_engine.md R134: READBYTE out of range answers OutOfRange and nothing else; in range, the whole next state: its
twenty-three events with one sample, the device's answer in RESP, the device left deselected. (Which working registers it
writes is WorkingRegisterFrame's.) -/
def Obligations.ReadbyteSamplesOnce : Prop :=
  ∀ (addr : AddrOperand) (s : State),
    (deviceSize ≤ addr.toNat → exec (.readbyte addr) s = .next { s with resp := 0x1000 }) ∧
    (addr.toNat < deviceSize → s.cfg.wf = true → s.quiescent = true →
    let a : DevAddr := addr.setWidth 15
    let d := s.dev.waited s.cfg.tDevWc s.cfg.tOeSettle
    let r := d.answer s.draws a
    ∃ w : Work, w.stepR = .idle ∧ exec (.readbyte addr) s = .next { s with
      port := s.port.latched s.cfg a .desel
      dev := d.consumed
      draws := s.draws + 1
      trace := (latchTrace s.cfg a .sel ++
        ([.dir .inp, .wc (ctl s.cfg .oe 1#1), .wc (ctl s.cfg .oe 0#1), .delay s.cfg.tOeSettle, .rd r,
          .wc (ctl s.cfg .oe 1#1), .dir .out] : List Event) ++ latchTrace s.cfg a .desel).reverse ++ s.trace
      resp := respWord .ok (r.setWidth 11)
      work := w })

/-- 41_byte_engine.md R130, R131, R132, R136: WRITEBYTE in range completes; its trace is the twenty-one events of the write and
then whole READBYTEs answering `rs` and last `r`; every read-back before the last differs from the value in bit 7; the last
one decides: bit 7 equal and the byte equal is Ok, bit 7 equal and the byte not is VerifyMismatch, bit 7 differing is TimedOut
after exactly POLL_LIMIT read-backs. (That the last permitted read-back still goes to the verify is the spec's own choice, R131
and D9 of 92_eei_decisions.md, log 20.) The end state is that of the last READBYTE (R140). -/
def Obligations.WritebytePollsThenVerifies : Prop :=
  ∀ (addr : AddrOperand) (v : Byte) (s : State), addr.toNat < deviceSize → s.cfg.wf = true → s.quiescent = true →
    let a : DevAddr := addr.setWidth 15
    ∃ (rs : List Byte) (r : Byte) (o : OutcomeCode) (t : State), exec (.writebyte addr v) s = .next t ∧
      rs.length + 1 ≤ s.cfg.pollLimit ∧
      (∀ x ∈ rs, (x ^^^ v).getLsbD 7 = true) ∧
      ((r ^^^ v).getLsbD 7 = false → o = if r = v then .ok else .verifyMismatch) ∧
      ((r ^^^ v).getLsbD 7 = true → rs.length + 1 = s.cfg.pollLimit ∧ o = .timedOut) ∧
      t.resp = respWord o 0 ∧
      t.trace = (writeTrace s.cfg a v ++ (rs ++ [r]).flatMap (readTrace s.cfg a)).reverse ++ s.trace ∧
      t.port = s.port.latched s.cfg a .desel ∧
      s.sameElsewhere t ∧ t.work.stepR = .idle

/-- 41_byte_engine.md R131, 20_memory.md R75: on the reference device slow(n), whose write cycle no settle or hold completes,
WRITEBYTE is Ok after n + 1 read-backs where n is below POLL_LIMIT, with the byte in place, and TimedOut after exactly
POLL_LIMIT read-backs where it is not. -/
def Obligations.SlowDeviceMeetsThePollBound : Prop :=
  ∀ (addr : AddrOperand) (v : Byte) (n : Nat) (s : State), addr.toNat < deviceSize → s.cfg.wf = true →
    s.quiescent = true → s.dev.kind = .slow n → s.cfg.tWriteSettle < s.cfg.tDevWc → s.cfg.tOeSettle < s.cfg.tDevWc →
    ∃ (t : State) (new : List Event), exec (.writebyte addr v) s = .next t ∧ t.trace = new ++ s.trace ∧
      (n < s.cfg.pollLimit → t.resp = respWord .ok 0 ∧ samples new = n + 1 ∧ t.dev.pend = .none ∧
        Memory.read t.dev.mem (addr.setWidth 15) = v) ∧
      (s.cfg.pollLimit ≤ n → t.resp = respWord .timedOut 0 ∧ samples new = s.cfg.pollLimit)

/-- 41_byte_engine.md R141: on a device that never negates bit 7 (one that gives this write an infinite budget, 20_memory.md R74)
WRITEBYTE answers TimedOut after exactly POLL_LIMIT read-backs, and no byte of MEM changes but that of an earlier write with a
finite budget. -/
def Obligations.StuckDeviceTimesOutExactly : Prop :=
  ∀ (addr : AddrOperand) (v : Byte) (s : State), addr.toNat < deviceSize → s.cfg.wf = true → s.quiescent = true →
    s.dev.kind ≠ .oracle → s.dev.kind.budget s.draws = .infinite →
    ∃ (t : State) (new : List Event), exec (.writebyte addr v) s = .next t ∧ t.trace = new ++ s.trace ∧
      t.resp = respWord .timedOut 0 ∧ samples new = s.cfg.pollLimit ∧ new.length = 21 + 23 * s.cfg.pollLimit ∧
      t.dev.pend = .busy (addr.setWidth 15) v .infinite ∧
      ∀ b, s.dev.landsAt b = false → Memory.read t.dev.mem b = Memory.read s.dev.mem b

/-- 20_memory.md R73, 60_exceptions.md R203: under the device contract WRITEBYTE never answers VerifyMismatch, and Ok means the
device is idle with the byte stored. -/
def Obligations.ContractExcludesVerifyMismatch : Prop :=
  ∀ (addr : AddrOperand) (v : Byte) (s : State), addr.toNat < deviceSize → s.cfg.wf = true → s.quiescent = true →
    s.dev.kind.keepsContract = true →
    ∃ t, exec (.writebyte addr v) s = .next t ∧ (t.resp = respWord .ok 0 ∨ t.resp = respWord .timedOut 0) ∧
      (t.resp = respWord .ok 0 → t.dev.pend = .none ∧ Memory.read t.dev.mem (addr.setWidth 15) = v)

/-- 20_memory.md R75, 60_exceptions.md R203: the device faulty(m), whose stored byte is `v and m`: VerifyMismatch after one
read-back where that differs from v in some bit but not in bit 7, TimedOut where it differs in bit 7, Ok where it does not
differ. -/
def Obligations.FaultyDeviceIsCaught : Prop :=
  ∀ (addr : AddrOperand) (v m : Byte) (s : State), addr.toNat < deviceSize → s.cfg.wf = true → s.quiescent = true →
    s.dev.kind = .faulty m →
    ∃ (t : State) (new : List Event), exec (.writebyte addr v) s = .next t ∧ t.trace = new ++ s.trace ∧
      Memory.read t.dev.mem (addr.setWidth 15) = v &&& m ∧
      (v &&& m = v → t.resp = respWord .ok 0 ∧ samples new = 1) ∧
      (v &&& m ≠ v → ((v &&& m) ^^^ v).getLsbD 7 = false → t.resp = respWord .verifyMismatch 0 ∧ samples new = 1) ∧
      (((v &&& m) ^^^ v).getLsbD 7 = true → t.resp = respWord .timedOut 0 ∧ samples new = s.cfg.pollLimit)

/-- 41_byte_engine.md R142: under the device contract a WRITEBYTE that answered Ok is read back by an immediately following
READBYTE. -/
def Obligations.WriteThenReadRoundTrip : Prop :=
  ∀ (addr : AddrOperand) (v : Byte) (s t : State), addr.toNat < deviceSize → s.cfg.wf = true → s.quiescent = true →
    s.dev.kind.keepsContract = true → exec (.writebyte addr v) s = .next t → t.resp = respWord .ok 0 →
    ∃ u, exec (.readbyte addr) t = .next u ∧ u.resp = respWord .ok (v.setWidth 11)

/-- 41_byte_engine.md R143: with no write pending a READBYTE answers MEM[address], changes no byte of the device, and repeated
answers the same, with the full twenty-three events each time. -/
def Obligations.IdleReadsAreIdempotent : Prop :=
  ∀ (addr : AddrOperand) (s : State), addr.toNat < deviceSize → s.cfg.wf = true → s.quiescent = true →
    s.dev.pend = .none → s.dev.kind ≠ .oracle →
    ∃ t u, exec (.readbyte addr) s = .next t ∧ exec (.readbyte addr) t = .next u ∧
      t.resp = respWord .ok ((Memory.read s.dev.mem (addr.setWidth 15)).setWidth 11) ∧ u.resp = t.resp ∧
      t.dev = s.dev ∧ u.dev = s.dev ∧
      let events := (readTrace s.cfg (addr.setWidth 15) (Memory.read s.dev.mem (addr.setWidth 15))).reverse
      t.trace = events ++ s.trace ∧ u.trace = events ++ t.trace

/-- What SETADDR, WRITEBYTE, FASTWRITE and READBYTE leave alone: everything but port, device, RESP, draws, trace and working
registers, from any state; from a quiescent port DIR and STATUS too; and every byte of MEM reads as before but the byte
written (the address is the operand's, as the meanings compute it) and the byte of an earlier write that was still pending
with a finite budget. -/
def Obligations.ByteOperationFrame : Prop :=
  ∀ (addr : AddrOperand) (cs : Sel) (v : Byte) (s t : State),
    (∀ i, i = .setaddr addr cs ∨ i = .writebyte addr v ∨ i = .fastwrite addr v ∨ i = .readbyte addr →
      exec i s = .next t → s.sameElsewhere t) ∧
    (s.cfg.wf = true → s.quiescent = true →
      (exec (.setaddr addr cs) s = .next t → t.port.dir = s.port.dir ∧ t.dev = s.dev ∧ t.draws = s.draws) ∧
      (exec (.readbyte addr) s = .next t → t.port.dir = s.port.dir ∧
        ∀ b, s.dev.landsAt b = false → Memory.read t.dev.mem b = Memory.read s.dev.mem b) ∧
      ∀ i, i = .writebyte addr v ∨ i = .fastwrite addr v → exec i s = .next t → t.port.dir = s.port.dir ∧
        ∀ b, deviceAddress addr.toNat ≠ some b → s.dev.landsAt b = false →
          Memory.read t.dev.mem b = Memory.read s.dev.mem b)

/-! ## Block Transfer Engine -/

/-- 42_block_transfer.md R153, and step 0 of R150 and R151: a count above BLOCK_SIZE answers IllegalCommand before any port event,
from any state. That nothing else changes either, the working registers and the buffer included, is the model's reading
(log 12). -/
def Obligations.BlockCountMustFitTheBuffer : Prop :=
  ∀ (addr : AddrOperand) (count : Count) (s : State), s.cfg.blockSize < count.toNat →
    exec (.readblock addr count) s = .next { s with resp := 0x7000 } ∧
    exec (.writeblock addr count) s = .next { s with resp := 0x7000 }

/-- 42_block_transfer.md R150, R152: READBLOCK moves min(count, DEVICE_SIZE - address) bytes, BUF[j] the byte sampled by a whole
READBYTE of address + j, answers (Ok, that number), and keeps the rest of BUF; where nothing is moved, port and device are
unchanged. -/
def Obligations.ReadblockClipsAndFillsTheBuffer : Prop :=
  ∀ (addr : AddrOperand) (count : Count) (s : State), count.toNat ≤ s.cfg.blockSize → s.cfg.wf = true →
    s.quiescent = true →
    let m := clipped addr.toNat count.toNat
    ∃ t, exec (.readblock addr count) s = .next t ∧ t.resp = respWord .ok (BitVec.ofNat 11 m) ∧
      (∀ j, j < m → (Buffer.get t.buf j).isSome = true) ∧ (∀ j, m ≤ j → Buffer.get t.buf j = Buffer.get s.buf j) ∧
      t.trace = ((List.range m).flatMap (fun j =>
        readTrace s.cfg (BitVec.ofNat 15 (addr.toNat + j)) ((Buffer.get t.buf j).getD 0))).reverse ++ s.trace ∧
      (m = 0 → t.port = s.port ∧ t.dev = s.dev) ∧
      (0 < m → t.port = s.port.latched s.cfg (BitVec.ofNat 15 (addr.toNat + (m - 1))) .desel) ∧
      t.cfg = s.cfg ∧ t.dev.kind = s.dev.kind ∧ t.parser = s.parser ∧ t.parsed = s.parsed ∧ t.inbox = s.inbox ∧
      ∀ b, s.dev.landsAt b = false → Memory.read t.dev.mem b = Memory.read s.dev.mem b

/-- 42_block_transfer.md R150 on a device with no write pending: BUF receives MEM, and the device is unchanged. -/
def Obligations.ReadblockCopiesAnIdleDevice : Prop :=
  ∀ (addr : AddrOperand) (count : Count) (s : State), count.toNat ≤ s.cfg.blockSize → s.cfg.wf = true →
    s.quiescent = true → s.dev.pend = .none → s.dev.kind ≠ .oracle →
    ∃ t, exec (.readblock addr count) s = .next t ∧ t.dev = s.dev ∧
      ∀ j, j < clipped addr.toNat count.toNat →
        Buffer.get t.buf j = some (Memory.read s.dev.mem (BitVec.ofNat 15 (addr.toNat + j)))

/-- 42_block_transfer.md R151, R152: with the bytes in the buffer WRITEBLOCK completes: every byte before index k is a whole
WRITEBYTE of BUF[j] at address + j that answered Ok, and k is all of the clipped block when the code is Ok, or the index of the
first byte whose WRITEBYTE answered o, not Ok, which is not counted. The trace is that of those WRITEBYTEs (`reads j` are the
read-backs of byte j), and nothing else; BUF is unchanged; where nothing is tried, port and device are unchanged. -/
def Obligations.WriteblockStopsAtTheFirstFailure : Prop :=
  ∀ (addr : AddrOperand) (count : Count) (s : State), count.toNat ≤ s.cfg.blockSize → s.cfg.wf = true →
    s.quiescent = true → s.filled (clipped addr.toNat count.toNat) = true →
    let m := clipped addr.toNat count.toNat
    let a (j : Nat) : DevAddr := BitVec.ofNat 15 (addr.toNat + j)
    let v (j : Nat) : Byte := (Buffer.get s.buf j).getD 0
    ∃ (t : State) (k : Nat) (o : OutcomeCode) (reads : Nat → List Byte), exec (.writeblock addr count) s = .next t ∧
      t.resp = respWord o (BitVec.ofNat 11 k) ∧ (o = .ok → k = m) ∧
      (o ≠ .ok → k < m ∧ (o = .timedOut ∨ o = .verifyMismatch) ∧ pollEnds s.cfg.pollLimit (v k) o (reads k)) ∧
      (∀ j, j < k → pollEnds s.cfg.pollLimit (v j) .ok (reads j)) ∧
      t.trace = ((List.range (if o = .ok then m else k + 1)).flatMap (fun j =>
        writeTrace s.cfg (a j) (v j) ++ (reads j).flatMap (readTrace s.cfg (a j)))).reverse ++ s.trace ∧
      s.sameElsewhere t ∧
      (m = 0 → t.port = s.port ∧ t.dev = s.dev) ∧
      (0 < m → t.port = s.port.latched s.cfg (a (min k (m - 1))) .desel) ∧
      ∀ b, (∀ j, j < m → b ≠ a j) → s.dev.landsAt b = false → Memory.read t.dev.mem b = Memory.read s.dev.mem b

/-- 42_block_transfer.md R151 on the reference device ideal: every byte of the clipped block is stored, with forty-four events
each, and the response is (Ok, that number); with one of them missing from the buffer it is the model fault of R151. -/
def Obligations.WriteblockOnAnIdealDevice : Prop :=
  ∀ (addr : AddrOperand) (count : Count) (s : State), count.toNat ≤ s.cfg.blockSize → s.cfg.wf = true →
    s.quiescent = true → s.dev.kind = .ideal →
    let m := clipped addr.toNat count.toNat
    (s.filled m = true → ∃ t, exec (.writeblock addr count) s = .next t ∧ t.resp = respWord .ok (BitVec.ofNat 11 m) ∧
      t.trace.length = s.trace.length + 44 * m ∧
      ∀ j, j < m → some (Memory.read t.dev.mem (BitVec.ofNat 15 (addr.toNat + j))) = Buffer.get s.buf j) ∧
    (s.filled m = false → exec (.writeblock addr count) s = .fault (.noValue .buffer))

/-! ## Erase Engine -/

/-- 43_erase_engine.md R160 to R165: ERASE completes from a quiescent port with its exact trace, its end state and (Ok, 0),
whatever the device does; it samples nothing. -/
def Obligations.EraseSweepsTheDevice : Prop :=
  ∀ s : State, s.cfg.wf = true → s.quiescent = true →
    ∃ t, exec .erase s = .next t ∧ t.resp = 0 ∧ t.trace = (eraseTrace s.cfg).reverse ++ s.trace ∧
      t.port = s.port.latched s.cfg s.cfg.eraseParkAddr .desel ∧ t.draws = s.draws + deviceSize ∧ s.sameElsewhere t ∧
      t.work.stepR = .idle

/-- 43_erase_engine.md R166: with T_DEV_WC at most T_ERASE_PAUSE and a device under the contract that draws no infinite budget,
after ERASE the device is idle, every byte is 0xFF, and READBYTE answers 0xFF at every address. -/
def Obligations.EraseLeavesEveryByteBlank : Prop :=
  ∀ s : State, s.cfg.wf = true → s.quiescent = true → s.cfg.tDevWc ≤ s.cfg.tErasePause →
    s.dev.kind.keepsContract = true → s.dev.kind.alwaysCompletes s.draws →
    ∃ t, exec .erase s = .next t ∧ t.dev.pend = .none ∧ (∀ a, Memory.read t.dev.mem a = 0xFF) ∧
      ∀ addr : AddrOperand, addr.toNat < deviceSize →
        ∃ u, exec (.readbyte addr) t = .next u ∧ u.resp = respWord .ok 0xFF

/-- 43_erase_engine.md R165, 20_memory.md R73: on the reference device stuck ERASE still answers Ok and no byte of MEM changes but
that of an earlier write with a finite budget: it does not verify. -/
def Obligations.EraseDoesNotVerify : Prop :=
  ∀ s : State, s.cfg.wf = true → s.quiescent = true → s.dev.kind = .stuck →
    ∃ t, exec .erase s = .next t ∧ t.resp = 0 ∧
      ∀ b, s.dev.landsAt b = false → Memory.read t.dev.mem b = Memory.read s.dev.mem b

/-- What each instruction leaves in the working registers and counters (10_state.md R32 to R34, log 14), from a quiescent port:
the operands, the last byte written and read back, POLL_R the number of read-backs, IDX_R the count, ERASE_R the whole sweep,
STEP_R idle; every other one keeps its value. An operand rejected at step 0 writes none (log 12), nor does any row of PARSELINE
or a reserved opcode. -/
def Obligations.WorkingRegisterFrame : Prop :=
  ∀ (addr : AddrOperand) (cs : Sel) (v : Byte) (count : Count) (s t : State), s.cfg.wf = true → s.quiescent = true →
    let inRange := addr.toNat < deviceSize
    let fits := count.toNat ≤ s.cfg.blockSize
    (exec (.setaddr addr cs) s = .next t → t.work =
      if inRange then { s.work with opR := 1, addrR := addr, csR := cs, stepR := .idle } else s.work) ∧
    (exec (.writebyte addr v) s = .next t → (¬inRange → t.work = s.work) ∧
      (inRange → (∃ new, t.trace = new ++ s.trace ∧ t.work.pollR = samples new) ∧
        (t.resp = respWord .ok 0 → t.work.rbR = v) ∧
        t.work = { s.work with opR := 2, addrR := addr, valR := v, rbR := t.work.rbR, pollR := t.work.pollR, stepR := .idle })) ∧
    (exec (.fastwrite addr v) s = .next t → t.work =
      if inRange then { s.work with opR := 3, addrR := addr, valR := v, stepR := .idle } else s.work) ∧
    (exec (.readbyte addr) s = .next t → t.work =
      if inRange then { s.work with opR := 4, addrR := addr, rbR := (respValue t.resp).setWidth 8, stepR := .idle }
      else s.work) ∧
    (exec (.readblock addr count) s = .next t → t.work =
      if fits then { s.work with
        opR := 5, addrR := addr, rbR := t.work.rbR, cntR := count, idxR := respValue t.resp, stepR := .idle }
      else s.work) ∧
    (exec (.writeblock addr count) s = .next t → t.work =
      if fits then { s.work with
        opR := 6, addrR := addr, valR := t.work.valR, rbR := t.work.rbR, cntR := count, idxR := respValue t.resp
        pollR := t.work.pollR, stepR := .idle }
      else s.work) ∧
    (exec .erase s = .next t → t.work = { s.work with opR := 7, valR := blank, eraseR := 0x8000, stepR := .idle }) ∧
    ∀ i, isParse i = true ∨ (∃ low, i = .illegalOp0 low) ∨ (∃ low, i = .illegalOp8F low) →
      exec i s = .next t → t.work = s.work

/-! ## S-record parser -/

/-- 44_srecord_parser.md R170, R171, R178: on every S1 line the character-serial parser hands the host the result of the function
of R171, and PARSELINE touches nothing else: no port, latch, device, buffer; nor RESP (log 11). -/
def Obligations.ParselineComputesTheFunction : Prop :=
  ∀ (rest : List Byte) (s : State),
    exec (.parseS1 rest) s = .next { s with parsed := parseLine (0x53 :: 0x31 :: rest), parser := Parser.idle }

/-- 44_srecord_parser.md R173: every other row of PARSELINE is skipped, whatever follows (a line that does not begin with S too,
D14 of 92_eei_decisions.md, log 20), and touches nothing else. That RESP keeps its value is the model's reading (log 11), and
so is what the parser's registers return to (log 25). -/
def Obligations.OtherRecordsAreSkipped : Prop :=
  ∀ (line : List Byte) (s : State),
    let skip : Host.Outcome State Fault Refusal := .next { s with parsed := .skipped, parser := Parser.idle }
    exec (.parseS0 line) s = skip ∧ exec (.parseS2 line) s = skip ∧ exec (.parseS3 line) s = skip ∧
    exec (.parseS4 line) s = skip ∧ exec (.parseS5 line) s = skip ∧ exec (.parseS6 line) s = skip ∧
    exec (.parseS7 line) s = skip ∧ exec (.parseS8 line) s = skip ∧ exec (.parseS9 line) s = skip ∧
    ((Instr.parseOther line).wf = true → exec (.parseOther line) s = skip)

/-- 30_encoding.md R103, R106, R107: a line of `S1`, a count, an address and its payload in hex pairs is read as exactly that, with
anything at all after it (44_srecord_parser.md R172: the checksum is never read). -/
def Obligations.WrittenRecordIsReadBack : Prop :=
  ∀ (count hi lo : Byte) (payload : List Byte) (tail : List Byte) (digits : Byte → List Byte),
    (∀ b, ∃ h l dh dl, digits b = [h, l] ∧ nibble h = some dh ∧ nibble l = some dl ∧ b = dh ++ dl) →
    3 ≤ count.toNat → payload.length = count.toNat - 3 →
    parseLine ([0x53, 0x31] ++ digits count ++ digits hi ++ digits lo ++ payload.flatMap digits ++ tail) =
      .record (hi ++ lo) payload

/-- 30_encoding.md R109, 44_srecord_parser.md R174: an S1 line is malformed exactly when its count is missing or no hex pair, the
count is below 3, or one of the count - 1 pairs of address and payload is missing or no hex pair; and it is never skipped. -/
def Obligations.MalformedLines : Prop :=
  ∀ (rest : List Byte),
    let text := 0x53 :: 0x31 :: rest
    (parseLine text = .malformed ↔
      (pairAt text 2 = none ∨ ∃ count, pairAt text 2 = some count ∧
        (count.toNat < 3 ∨ ∃ k, k < count.toNat - 1 ∧ pairAt text (4 + 2 * k) = none))) ∧
    parseLine text ≠ .skipped

/-! ## Host procedures -/

/-- 45_host_procedures.md R192, R193: the parameter checks come before any hardware access: a violation leaves the machine as it
was, from any state. -/
def Obligations.HostChecksComeFirst : Prop :=
  ∀ (start stop : Nat) (image : List Byte) (s : State),
    (¬(start ≤ stop ∧ stop < deviceSize) → readRange start stop s = .next ⟨.outOfRange, [], s⟩) ∧
    (deviceSize < image.length → writeRange start image s = .next ⟨.tooLarge, [], s⟩) ∧
    (image.length ≤ deviceSize → deviceSize ≤ start → writeRange start image s = .next ⟨.outOfRange, [], s⟩)

/-- 45_host_procedures.md R191: on a device with no write pending readRange never comes back short: it emits the bytes of
[start, stop] verbatim and leaves the device as it was. -/
def Obligations.ReadRangeIsVerbatim : Prop :=
  ∀ (start stop : Nat) (s : State), start ≤ stop → stop < deviceSize → s.cfg.wf = true → s.quiescent = true →
    s.dev.pend = .none → s.dev.kind ≠ .oracle →
    ∃ r, readRange start stop s = .next r ∧ r.result = .ok (stop + 1 - start) ∧ r.state.dev = s.dev ∧
      r.emitted = (List.range (stop + 1 - start)).map (fun k => Memory.read s.dev.mem (BitVec.ofNat 15 (start + k)))

/-- 45_host_procedures.md R192, 60_exceptions.md R200: on the reference device ideal writeRange stores the image from its start
address on, up to the end of the device; an image that fits ends in Ok with its length, and one that runs past the end in
ShortTransfer (code 4) with the count moved, the block's own code Ok, and the byte that did not fit (log 24). -/
def Obligations.WriteRangeStoresTheImage : Prop :=
  ∀ (start : Nat) (image : List Byte) (s : State), start < deviceSize → image.length ≤ deviceSize → s.cfg.wf = true →
    s.quiescent = true → s.dev.kind = .ideal →
    let w := min image.length (deviceSize - start)
    ∃ r, writeRange start image s = .next r ∧ r.emitted = [] ∧
      (∀ k, k < w → some (Memory.read r.state.dev.mem (BitVec.ofNat 15 (start + k))) = image[k]?) ∧
      (start + image.length ≤ deviceSize → r.result = .ok image.length ∧ r.result.code = some 0) ∧
      (deviceSize < start + image.length → r.result = .shortTransfer 0 deviceSize image[w]? w ∧
        r.result.code = some 4 ∧ r.result.moved = w)

/-- 45_host_procedures.md R194, R177: in file order, from any line number and any count: the first malformed line ends the file
with the count written so far and no byte of it written, and no line after it is looked at. The lines before it may hold
records, whose bytes are that count, or be all skipped, which write nothing. (That neither a skipped nor a malformed line
changes RESP is log 11.) -/
def Obligations.SrecFileStopsAtAMalformedLine : Prop :=
  ∀ (before after : List (List Byte)) (bad : List Byte) (j count : Nat) (s : State), parseLine bad = .malformed →
    ((∀ l ∈ before, parseLine l = .skipped) → srecLines j (before ++ bad :: after) count s =
      .next ⟨.srecMalformed (j + before.length) count, [], { s with parsed := .malformed, parser := Parser.idle }⟩) ∧
    ∀ (r : HostRun) (n : Nat), srecLines j before count s = .next r → r.result = .ok n →
      n = count + recordBytes before ∧
      srecLines j (before ++ bad :: after) count s =
        .next ⟨.srecMalformed (j + before.length) n, [], { r.state with parsed := .malformed, parser := Parser.idle }⟩

/-- 45_host_procedures.md R194, 44_srecord_parser.md R176: the first byte of a record whose WRITEBYTE is not Ok ends the file
there, with its outcome, its address, the byte and the count written before it, and no later line is looked at; so a record
that runs past the end of a device (here the reference device ideal) is written up to 0x7FFF and fails with OutOfRange at the
first byte beyond. -/
def Obligations.SrecFileStopsAtTheFirstFailingByte : Prop :=
  ∀ (line : List Byte) (after : List (List Byte)) (address : BitVec 16) (payload : List Byte) (j count : Nat) (s : State),
    parseLine line = .record address payload →
    (∀ (k : Nat) (v : Byte) (t u : State), payload[k]? = some v →
      writePayload address.toNat (payload.take k) count
        { s with parsed := .record address payload, parser := Parser.idle } = .next (.written (count + k) t) →
      exec (.writebyte (BitVec.ofNat 17 (address.toNat + k)) v) t = .next u → respCode u.resp ≠ 0 →
      srecLines j (line :: after) count s =
        .next ⟨.failed (respCode u.resp) (address.toNat + k) v (count + k), [], u⟩) ∧
    (s.cfg.wf = true → s.quiescent = true → s.dev.kind = .ideal → 0 < payload.length →
      deviceSize < address.toNat + payload.length →
      let w := deviceSize - address.toNat
      ∃ r v, payload[w]? = some v ∧ srecLines j (line :: after) count s = .next r ∧
        r.result = .failed 1 (address.toNat + w) v (count + w) ∧
        ∀ k, k < w → some (Memory.read r.state.dev.mem (BitVec.ofNat 15 (address.toNat + k))) = payload[k]?)

/-- 45_host_procedures.md R194, 44_srecord_parser.md R176: on the reference device ideal a record inside the device is written
byte by byte, the byte at offset k to address + k. -/
def Obligations.SrecRecordIsWrittenByteByByte : Prop :=
  ∀ (line : List Byte) (address : BitVec 16) (payload : List Byte) (s : State), s.cfg.wf = true → s.quiescent = true →
    s.dev.kind = .ideal → parseLine line = .record address payload → address.toNat + payload.length ≤ deviceSize →
    ∃ r, srecWrite [line] s = .next r ∧ r.result = .ok payload.length ∧
      ∀ k, k < payload.length →
        some (Memory.read r.state.dev.mem (BitVec.ofNat 15 (address.toNat + k))) = payload[k]?
end

