-- ==== Sys2Proof/Laws/State.lean ====
section
/-! SUPPORT. What each small update of the state does to each field, true by rfl, so that no proof unfolds a record update. -/

namespace Sys2Proof.Machine

@[simp] theorem emit_cfg (e : Event) (s : State) : (emit e s).cfg = s.cfg := rfl
@[simp] theorem emit_port (e : Event) (s : State) : (emit e s).port = s.port := rfl
@[simp] theorem emit_dev (e : Event) (s : State) : (emit e s).dev = s.dev := rfl
@[simp] theorem emit_draws (e : Event) (s : State) : (emit e s).draws = s.draws := rfl
@[simp] theorem emit_resp (e : Event) (s : State) : (emit e s).resp = s.resp := rfl
@[simp] theorem emit_work (e : Event) (s : State) :
    (emit e s).work = { s.work with stepR := s.work.stepR.advance 1 } := rfl
@[simp] theorem emit_buf (e : Event) (s : State) : (emit e s).buf = s.buf := rfl
@[simp] theorem emit_parser (e : Event) (s : State) : (emit e s).parser = s.parser := rfl
@[simp] theorem emit_parsed (e : Event) (s : State) : (emit e s).parsed = s.parsed := rfl
@[simp] theorem emit_trace (e : Event) (s : State) : (emit e s).trace = e :: s.trace := rfl
@[simp] theorem emit_inbox (e : Event) (s : State) : (emit e s).inbox = s.inbox := rfl

@[simp] theorem returnTo_cfg (h : StepIndex) (s : State) : (returnTo h s).cfg = s.cfg := rfl
@[simp] theorem returnTo_port (h : StepIndex) (s : State) : (returnTo h s).port = s.port := rfl
@[simp] theorem returnTo_dev (h : StepIndex) (s : State) : (returnTo h s).dev = s.dev := rfl
@[simp] theorem returnTo_draws (h : StepIndex) (s : State) : (returnTo h s).draws = s.draws := rfl
@[simp] theorem returnTo_resp (h : StepIndex) (s : State) : (returnTo h s).resp = s.resp := rfl
@[simp] theorem returnTo_work (h : StepIndex) (s : State) : (returnTo h s).work = { s.work with stepR := h } := rfl
@[simp] theorem returnTo_buf (h : StepIndex) (s : State) : (returnTo h s).buf = s.buf := rfl
@[simp] theorem returnTo_parser (h : StepIndex) (s : State) : (returnTo h s).parser = s.parser := rfl
@[simp] theorem returnTo_parsed (h : StepIndex) (s : State) : (returnTo h s).parsed = s.parsed := rfl
@[simp] theorem returnTo_trace (h : StepIndex) (s : State) : (returnTo h s).trace = s.trace := rfl
@[simp] theorem returnTo_inbox (h : StepIndex) (s : State) : (returnTo h s).inbox = s.inbox := rfl

@[simp] theorem begin_cfg (op : BitVec 4) (load : Work → Work) (s : State) : (begin op load s).cfg = s.cfg := rfl
@[simp] theorem begin_port (op : BitVec 4) (load : Work → Work) (s : State) : (begin op load s).port = s.port := rfl
@[simp] theorem begin_dev (op : BitVec 4) (load : Work → Work) (s : State) : (begin op load s).dev = s.dev := rfl
@[simp] theorem begin_draws (op : BitVec 4) (load : Work → Work) (s : State) : (begin op load s).draws = s.draws := rfl
@[simp] theorem begin_resp (op : BitVec 4) (load : Work → Work) (s : State) : (begin op load s).resp = s.resp := rfl
@[simp] theorem begin_work (op : BitVec 4) (load : Work → Work) (s : State) :
    (begin op load s).work = { load s.work with opR := op, stepR := .running op 1 } := rfl
@[simp] theorem begin_buf (op : BitVec 4) (load : Work → Work) (s : State) : (begin op load s).buf = s.buf := rfl
@[simp] theorem begin_parser (op : BitVec 4) (load : Work → Work) (s : State) :
    (begin op load s).parser = s.parser := rfl
@[simp] theorem begin_parsed (op : BitVec 4) (load : Work → Work) (s : State) :
    (begin op load s).parsed = s.parsed := rfl
@[simp] theorem begin_trace (op : BitVec 4) (load : Work → Work) (s : State) : (begin op load s).trace = s.trace := rfl
@[simp] theorem begin_inbox (op : BitVec 4) (load : Work → Work) (s : State) : (begin op load s).inbox = s.inbox := rfl

@[simp] theorem answer_cfg (c : OutcomeCode) (v : BitVec 11) (s : State) : (answer c v s).cfg = s.cfg := rfl
@[simp] theorem answer_port (c : OutcomeCode) (v : BitVec 11) (s : State) : (answer c v s).port = s.port := rfl
@[simp] theorem answer_dev (c : OutcomeCode) (v : BitVec 11) (s : State) : (answer c v s).dev = s.dev := rfl
@[simp] theorem answer_draws (c : OutcomeCode) (v : BitVec 11) (s : State) : (answer c v s).draws = s.draws := rfl
@[simp] theorem answer_resp (c : OutcomeCode) (v : BitVec 11) (s : State) : (answer c v s).resp = respWord c v := rfl
@[simp] theorem answer_work (c : OutcomeCode) (v : BitVec 11) (s : State) : (answer c v s).work = s.work := rfl
@[simp] theorem answer_buf (c : OutcomeCode) (v : BitVec 11) (s : State) : (answer c v s).buf = s.buf := rfl
@[simp] theorem answer_parser (c : OutcomeCode) (v : BitVec 11) (s : State) : (answer c v s).parser = s.parser := rfl
@[simp] theorem answer_parsed (c : OutcomeCode) (v : BitVec 11) (s : State) : (answer c v s).parsed = s.parsed := rfl
@[simp] theorem answer_trace (c : OutcomeCode) (v : BitVec 11) (s : State) : (answer c v s).trace = s.trace := rfl
@[simp] theorem answer_inbox (c : OutcomeCode) (v : BitVec 11) (s : State) : (answer c v s).inbox = s.inbox := rfl

@[simp] theorem conclude_cfg (c : OutcomeCode) (v : BitVec 11) (s : State) : (conclude c v s).cfg = s.cfg := rfl
@[simp] theorem conclude_port (c : OutcomeCode) (v : BitVec 11) (s : State) : (conclude c v s).port = s.port := rfl
@[simp] theorem conclude_dev (c : OutcomeCode) (v : BitVec 11) (s : State) : (conclude c v s).dev = s.dev := rfl
@[simp] theorem conclude_draws (c : OutcomeCode) (v : BitVec 11) (s : State) : (conclude c v s).draws = s.draws := rfl
@[simp] theorem conclude_resp (c : OutcomeCode) (v : BitVec 11) (s : State) :
    (conclude c v s).resp = respWord c v := rfl
@[simp] theorem conclude_work (c : OutcomeCode) (v : BitVec 11) (s : State) :
    (conclude c v s).work = { s.work with stepR := .idle } := rfl
@[simp] theorem conclude_buf (c : OutcomeCode) (v : BitVec 11) (s : State) : (conclude c v s).buf = s.buf := rfl
@[simp] theorem conclude_parser (c : OutcomeCode) (v : BitVec 11) (s : State) :
    (conclude c v s).parser = s.parser := rfl
@[simp] theorem conclude_parsed (c : OutcomeCode) (v : BitVec 11) (s : State) :
    (conclude c v s).parsed = s.parsed := rfl
@[simp] theorem conclude_trace (c : OutcomeCode) (v : BitVec 11) (s : State) : (conclude c v s).trace = s.trace := rfl
@[simp] theorem conclude_inbox (c : OutcomeCode) (v : BitVec 11) (s : State) : (conclude c v s).inbox = s.inbox := rfl

@[simp] theorem StepIndex.advance_advance (m n : Nat) (i : StepIndex) :
    (i.advance m).advance n = i.advance (m + n) := by
  cases i <;> simp [StepIndex.advance, Nat.add_assoc]

@[simp] theorem StepIndex.advance_zero (i : StepIndex) : i.advance 0 = i := by
  cases i <;> rfl

/-- A response's code is the one it was made with (30_encoding.md R98). -/
@[simp] theorem respCode_respWord (c : OutcomeCode) (v : BitVec 11) : respCode (respWord c v) = outcomeBits c :=
  (BitVec.extractLsb'_append_eq_of_le (by decide)).trans BitVec.extractLsb'_append_eq_left

/-- A response's value is the one it was made with (30_encoding.md R98). -/
@[simp] theorem respValue_respWord (c : OutcomeCode) (v : BitVec 11) : respValue (respWord c v) = v :=
  BitVec.extractLsb'_append_eq_right

@[simp] theorem finish_ok (s : State) : finish (.ok s) = .next s := rfl
@[simp] theorem finish_error (f : Fault) : finish (.error f) = .fault f := rfl

/-- Two results one after the other, the first of them an error or not. -/
@[simp] theorem ok_bind {α β : Type} (a : α) (f : α → Except Fault β) : (Except.ok a >>= f) = f a := rfl
@[simp] theorem error_bind {α β : Type} (e : Fault) (f : α → Except Fault β) :
    ((Except.error e : Except Fault α) >>= f) = .error e := rfl

/-- What a sequence's success says of its parts. -/
theorem bind_eq_ok {α β : Type} {x : Except Fault α} {f : α → Except Fault β} {b : β} (h : (x >>= f) = .ok b) :
    ∃ a, x = .ok a ∧ f a = .ok b := by
  cases x with
  | error e => simp at h
  | ok a => exact ⟨a, rfl, h⟩

/-- What a finished operation's next state says. -/
theorem finish_eq_next {r : Except Fault State} {t : State} (h : finish r = .next t) : r = .ok t := by
  cases r with
  | error e => simp at h
  | ok s => simpa using h

end Sys2Proof.Machine
end

