-- ==== Sys2Proof/Laws/Memory.lean ====
section
/-! SUPPORT. The laws of the sparse lists that hold `MEM` and `BUF`: read after write, everything else unchanged, and every
operation keeps the canonical form. -/

namespace Sys2Proof.Machine

/-! ## Cells -/

@[simp] theorem Cells.find_nil (a : Nat) : Cells.find [] a = none := rfl

@[simp] theorem Cells.find_put_same (m : List Host.Cell) (a : Nat) (v : Byte) :
    Cells.find (Cells.put m a v) a = some v := by
  induction m with
  | nil => simp [Cells.put, Cells.find]
  | cons c rest ih =>
    obtain ⟨b, w⟩ := c
    unfold Cells.put
    split
    · simp [Cells.find]
    · split
      · simp [Cells.find]
      · simp [Cells.find, Ne.symm ‹_›, ih]

theorem Cells.find_put_other (m : List Host.Cell) {a b : Nat} (v : Byte) (h : b ≠ a) :
    Cells.find (Cells.put m a v) b = Cells.find m b := by
  induction m with
  | nil => simp [Cells.put, Cells.find, Ne.symm h]
  | cons c rest ih =>
    obtain ⟨k, w⟩ := c
    unfold Cells.put
    split
    · simp [Cells.find, Ne.symm h]
    · split
      · subst_vars; simp [Cells.find, Ne.symm h]
      · simp [Cells.find, ih]

@[simp] theorem Cells.find_drop_same (m : List Host.Cell) (a : Nat) : Cells.find (Cells.drop m a) a = none := by
  induction m with
  | nil => rfl
  | cons c rest ih =>
    obtain ⟨k, w⟩ := c
    unfold Cells.drop at ih ⊢
    by_cases hk : k = a <;> simp_all [Cells.find]

theorem Cells.find_drop_other (m : List Host.Cell) {a b : Nat} (h : b ≠ a) :
    Cells.find (Cells.drop m a) b = Cells.find m b := by
  induction m with
  | nil => rfl
  | cons c rest ih =>
    obtain ⟨k, w⟩ := c
    unfold Cells.drop at ih ⊢
    by_cases hk : k = a
    · subst hk; simp [Cells.find, ih, Ne.symm h]
    · simp [Cells.find, ih, hk]

theorem Cells.rising_weaken {bound low low' : Nat} {m : List Host.Cell} (h : low' ≤ low)
    (hm : Cells.rising bound low m = true) : Cells.rising bound low' m = true := by
  cases m with
  | nil => rfl
  | cons c rest =>
    obtain ⟨k, w⟩ := c
    simp only [Cells.rising, Bool.and_eq_true, decide_eq_true_eq] at hm ⊢
    exact ⟨⟨h.trans hm.1.1, hm.1.2⟩, hm.2⟩

theorem Cells.rising_put {bound low a : Nat} {m : List Host.Cell} (v : Byte) (hl : low ≤ a) (ha : a < bound)
    (hm : Cells.rising bound low m = true) : Cells.rising bound low (Cells.put m a v) = true := by
  induction m generalizing low with
  | nil => simp [Cells.put, Cells.rising, hl, ha]
  | cons c rest ih =>
    obtain ⟨k, w⟩ := c
    simp only [Cells.rising, Bool.and_eq_true, decide_eq_true_eq] at hm
    unfold Cells.put
    split
    · simp [Cells.rising, hl, ha, hm.1.2, hm.2]; omega
    · split
      · subst_vars; simp [Cells.rising, hl, ha, hm.2]
      · simp only [Cells.rising, Bool.and_eq_true, decide_eq_true_eq]
        exact ⟨hm.1, ih (by omega) hm.2⟩

theorem Cells.rising_drop {bound low : Nat} {m : List Host.Cell} (a : Nat) (hm : Cells.rising bound low m = true) :
    Cells.rising bound low (Cells.drop m a) = true := by
  induction m generalizing low with
  | nil => rfl
  | cons c rest ih =>
    obtain ⟨k, w⟩ := c
    simp only [Cells.rising, Bool.and_eq_true, decide_eq_true_eq] at hm
    have hrest := ih hm.2
    unfold Cells.drop at hrest ⊢
    by_cases hk : k = a
    · simpa [hk] using Cells.rising_weaken (by omega) hrest
    · simp [hk, Cells.rising, hm.1, hrest]

theorem Cells.mem_put {c : Host.Cell} {m : List Host.Cell} {a : Nat} {v : Byte} (h : c ∈ Cells.put m a v) :
    c = (a, v) ∨ c ∈ m := by
  induction m with
  | nil => simpa [Cells.put] using h
  | cons d rest ih =>
    obtain ⟨k, w⟩ := d
    unfold Cells.put at h
    split at h
    · simpa using h
    · split at h
      · simp only [List.mem_cons] at h ⊢; tauto
      · simp only [List.mem_cons] at h ⊢; tauto

/-! ## Device memory -/

@[simp] theorem Memory.read_write_same (m : List Host.Cell) (a : DevAddr) (v : Byte) :
    Memory.read (Memory.write m a v) a = v := by
  unfold Memory.read Memory.write
  split
  · simp_all
  · simp

theorem Memory.read_write_other (m : List Host.Cell) {a b : DevAddr} (v : Byte) (h : b ≠ a) :
    Memory.read (Memory.write m a v) b = Memory.read m b := by
  have h' : b.toNat ≠ a.toNat := fun e => h (BitVec.eq_of_toNat_eq e)
  unfold Memory.read Memory.write
  split
  · rw [Cells.find_drop_other m h']
  · rw [Cells.find_put_other m v h']

theorem Memory.wf_write {m : List Host.Cell} (a : DevAddr) (v : Byte) (hm : Memory.wf m = true) :
    Memory.wf (Memory.write m a v) = true := by
  simp only [Memory.wf, Bool.and_eq_true, List.all_eq_true, bne_iff_ne] at hm ⊢
  unfold Memory.write
  split
  · refine ⟨Cells.rising_drop _ hm.1, fun c hc => hm.2 c ?_⟩
    exact List.mem_of_mem_filter hc
  · refine ⟨Cells.rising_put v (Nat.zero_le _) a.isLt hm.1, fun c hc => ?_⟩
    rcases Cells.mem_put hc with h | h
    · simpa [h] using ‹¬ v = blank›
    · exact hm.2 c h

/-! ## Transfer Buffer -/

@[simp] theorem Buffer.get_set_same (b : List Host.Cell) (i : Nat) (v : Byte) :
    Buffer.get (Buffer.set b i v) i = some v := by simp [Buffer.get, Buffer.set]

theorem Buffer.get_set_other (b : List Host.Cell) {i j : Nat} (v : Byte) (h : j ≠ i) :
    Buffer.get (Buffer.set b i v) j = Buffer.get b j := by simp [Buffer.get, Buffer.set, Cells.find_put_other _ _ h]

theorem Buffer.wf_set {n : Nat} {b : List Host.Cell} {i : Nat} (v : Byte) (hi : i < n) (hb : Buffer.wf n b = true) :
    Buffer.wf n (Buffer.set b i v) = true := Cells.rising_put v (Nat.zero_le _) hi hb

/-! ## The device's reactions -/

@[simp] theorem Device.complete_kind (d : Device) (a : DevAddr) (v : Byte) : (d.complete a v).kind = d.kind := rfl
@[simp] theorem Device.complete_pend (d : Device) (a : DevAddr) (v : Byte) : (d.complete a v).pend = .none := rfl
@[simp] theorem Device.complete_mem (d : Device) (a : DevAddr) (v : Byte) :
    (d.complete a v).mem = Memory.write d.mem a (d.kind.stored v) := rfl

@[simp] theorem Device.overtaken_kind (d : Device) : d.overtaken.kind = d.kind := by
  unfold Device.overtaken; split <;> rfl
@[simp] theorem Device.overtaken_pend (d : Device) : d.overtaken.pend = .none := by
  unfold Device.overtaken; split <;> simp_all
@[simp] theorem Device.accept_kind (d : Device) (a : DevAddr) (v : Byte) (k : Budget) :
    (d.accept a v k).kind = d.kind := by
  unfold Device.accept; split <;> rfl
@[simp] theorem Device.consumed_kind (d : Device) : d.consumed.kind = d.kind := by
  unfold Device.consumed; split <;> try rfl
  split <;> rfl
@[simp] theorem Device.waited_kind (d : Device) (wc t : Nat) : (d.waited wc t).kind = d.kind := by
  unfold Device.waited; split <;> try rfl
  split <;> rfl

theorem Device.wf_complete {d : Device} (a : DevAddr) (v : Byte) (h : d.wf = true) : (d.complete a v).wf = true := by
  simp only [Device.wf, Bool.and_eq_true] at h ⊢
  exact ⟨Memory.wf_write _ _ h.1, rfl⟩

theorem Device.wf_overtaken {d : Device} (h : d.wf = true) : d.overtaken.wf = true := by
  unfold Device.overtaken; split
  · exact h
  · exact Device.wf_complete _ _ h
  · simp only [Device.wf, Bool.and_eq_true] at h ⊢; exact ⟨h.1, rfl⟩

theorem Device.wf_accept {d : Device} (a : DevAddr) (v : Byte) (k : Budget) (h : d.wf = true) :
    (d.accept a v k).wf = true := by
  unfold Device.accept; split
  · exact Device.wf_complete _ _ h
  · rename_i hk
    simp only [Device.wf, Bool.and_eq_true] at h ⊢
    refine ⟨h.1, ?_⟩
    cases k with
    | infinite => rfl
    | finite n => cases n with
      | zero => exact absurd rfl hk
      | succ n => simp [Pend.wf]

theorem Device.wf_consumed {d : Device} (h : d.wf = true) : d.consumed.wf = true := by
  unfold Device.consumed; split
  · exact h
  · exact h
  · split
    · exact Device.wf_complete _ _ h
    · simp only [Device.wf, Bool.and_eq_true] at h ⊢
      exact ⟨h.1, by simp only [Pend.wf, decide_eq_true_eq]; omega⟩

theorem Device.wf_waited {d : Device} (wc t : Nat) (h : d.wf = true) : (d.waited wc t).wf = true := by
  unfold Device.waited; split
  · split
    · exact Device.wf_complete _ _ h
    · exact h
  · exact h
  · exact h

end Sys2Proof.Machine
end

