-- ==== Sys2Proof/Laws/Frame.lean ====
section
/-! SUPPORT. What every shared operation leaves alone, from any state: one relation, one lemma per operation. -/

namespace Sys2Proof.Machine

/-- What port activity leaves alone: the parameters, which device it is, STATUS, RESP, the buffer, the parser and the inbox;
the trace only grows, and every control write in what is added is one of the eight bytes of 10_state.md R25. -/
structure Frame (s t : State) : Prop where
  cfg : t.cfg = s.cfg
  kind : t.dev.kind = s.dev.kind
  status : t.port.status = s.port.status
  resp : t.resp = s.resp
  buf : t.buf = s.buf
  parser : t.parser = s.parser
  parsed : t.parsed = s.parsed
  inbox : t.inbox = s.inbox
  trace : ∃ new, t.trace = new ++ s.trace ∧ ∀ c, Event.wc c ∈ new → ∃ f b, c = ctl s.cfg f b

theorem Frame.refl (s : State) : Frame s s :=
  ⟨rfl, rfl, rfl, rfl, rfl, rfl, rfl, rfl, [], rfl, by simp⟩

theorem Frame.trans {s t u : State} (h : Frame s t) (k : Frame t u) : Frame s u := by
  obtain ⟨new, hn, hw⟩ := h.trace
  obtain ⟨new', hn', hw'⟩ := k.trace
  refine ⟨k.cfg.trans h.cfg, k.kind.trans h.kind, k.status.trans h.status, k.resp.trans h.resp, k.buf.trans h.buf,
    k.parser.trans h.parser, k.parsed.trans h.parsed, k.inbox.trans h.inbox, new' ++ new, by simp [hn', hn], ?_⟩
  intro c hc
  rcases List.mem_append.mp hc with h1 | h1
  · exact h.cfg ▸ hw' c h1
  · exact hw c h1

/-- Adding an event that is no control write, or one of the eight control bytes. -/
theorem Frame.emit {s t : State} {e : Event} (h : Frame s t) (he : ∀ c, e = .wc c → ∃ f b, c = ctl s.cfg f b) :
    Frame s (emit e t) := by
  refine h.trans ⟨rfl, rfl, rfl, rfl, rfl, rfl, rfl, rfl, [e], rfl, ?_⟩
  intro c hc
  have := he c (by simpa [eq_comm] using hc)
  rwa [h.cfg]

theorem settle_eq_ok {s t : State} (h : settle s = .ok t) : t = s := by
  unfold settle at h
  split at h
  · cases h
  · split at h
    · cases h
    · exact (Except.ok.inj h).symm

theorem writeData_frame {b : Byte} {s t : State} (h : writeData b s = .ok t) : Frame s t := by
  rw [settle_eq_ok h]
  exact Frame.emit ⟨rfl, rfl, rfl, rfl, rfl, rfl, rfl, rfl, [], rfl, by simp⟩ (by simp)

theorem setDirection_frame {d : Dir} {s t : State} (h : setDirection d s = .ok t) : Frame s t := by
  rw [settle_eq_ok h]
  exact Frame.emit ⟨rfl, rfl, rfl, rfl, rfl, rfl, rfl, rfl, [], rfl, by simp⟩ (by simp)

theorem devWrite_frame (a : DevAddr) (v : Byte) (s : State) : Frame s (devWrite a v s) :=
  ⟨rfl, by simp [devWrite, countDraw], rfl, rfl, rfl, rfl, rfl, rfl, [], rfl, by simp⟩

theorem afterDevRead_frame (s : State) : Frame s (afterDevRead s) :=
  ⟨rfl, by simp [afterDevRead, countDraw], rfl, rfl, rfl, rfl, rfl, rfl, [], rfl, by simp⟩

theorem delay_frame (n : Nat) (s : State) : Frame s (delay n s) :=
  Frame.emit ⟨rfl, by simp, rfl, rfl, rfl, rfl, rfl, rfl, [], rfl, by simp⟩ (by simp)

theorem trailingEdge_frame {f : Fn} {s t : State} (h : trailingEdge f s = .ok t) : Frame s t := by
  cases f with
  | low =>
    obtain ⟨v, -, h⟩ := bind_eq_ok h
    rw [← Except.ok.inj h]
    exact ⟨rfl, rfl, rfl, rfl, rfl, rfl, rfl, rfl, [], rfl, by simp⟩
  | high =>
    obtain ⟨v, -, h⟩ := bind_eq_ok h
    rw [← Except.ok.inj h]
    exact ⟨rfl, rfl, rfl, rfl, rfl, rfl, rfl, rfl, [], rfl, by simp⟩
  | we =>
    simp only [trailingEdge, commitEdge] at h
    split at h
    · cases h
    · split at h
      · rw [← Except.ok.inj h]; exact Frame.refl _
      · split at h
        · rw [← Except.ok.inj h]; exact devWrite_frame _ _ _
        · cases h
  | oe => rw [← Except.ok.inj h]; exact Frame.refl _

theorem writeControl_frame {f : Fn} {b : BitVec 1} {s t : State} (h : writeControl (ctl s.cfg f b) s = .ok t) :
    Frame s t := by
  obtain ⟨was, -, h⟩ := bind_eq_ok h
  obtain ⟨u, hu, h⟩ := bind_eq_ok h
  have h0 : Frame s { s with port.ctrl := ctl s.cfg f b, port.fselKnown := true } :=
    ⟨rfl, rfl, rfl, rfl, rfl, rfl, rfl, rfl, [], rfl, by simp⟩
  have h1 : Frame s u := by
    unfold applyEdge at hu
    split at hu
    · rw [← Except.ok.inj hu]; exact h0
    · split at hu
      · rw [← Except.ok.inj hu]; exact h0
      · exact h0.trans (trailingEdge_frame hu)
  rw [settle_eq_ok h]
  exact h1.emit (by rintro c ⟨⟩; exact ⟨f, b, rfl⟩)

theorem select_frame {f : Fn} {s t : State} (h : select f s = .ok t) : Frame s t := writeControl_frame h

theorem pulse_frame {f : Fn} {s t : State} (h : pulse f s = .ok t) : Frame s t := by
  obtain ⟨u, hu, h⟩ := bind_eq_ok h
  have h1 := writeControl_frame hu
  exact h1.trans (writeControl_frame h)

theorem readData_frame {s : State} {r : Byte × State} (h : readData s = .ok r) : Frame s r.2 := by
  unfold readData at h
  split at h
  · cases h
  · cases h
  · rw [← Except.ok.inj h]; exact (afterDevRead_frame s).emit (by simp)
  · rw [← Except.ok.inj h]
    exact Frame.emit ⟨rfl, rfl, rfl, rfl, rfl, rfl, rfl, rfl, [], rfl, by simp⟩ (by simp)
  · split at h
    · rw [← Except.ok.inj h]; exact (Frame.refl s).emit (by simp)
    · cases h

theorem work_frame (s : State) (w : Work) : Frame s { s with work := w } :=
  ⟨rfl, rfl, rfl, rfl, rfl, rfl, rfl, rfl, [], rfl, by simp⟩

theorem loadLatch_frame {f : Fn} {b : Byte} {s t : State} (h : loadLatch f b s = .ok t) : Frame s t := by
  obtain ⟨u, hu, h⟩ := bind_eq_ok h
  obtain ⟨w, hw, h⟩ := bind_eq_ok h
  exact (writeData_frame hu).trans ((select_frame hw).trans (pulse_frame h))

theorem latchAddress_frame {a : DevAddr} {cs : Sel} {s t : State} (h : latchAddress a cs s = .ok t) : Frame s t := by
  obtain ⟨u, hu, h⟩ := bind_eq_ok h
  exact (loadLatch_frame hu).trans (loadLatch_frame h)

theorem fastWrite_frame {a : DevAddr} {v : Byte} {s t : State} (h : fastWrite a v s = .ok t) : Frame s t := by
  obtain ⟨u, hu, h⟩ := bind_eq_ok h
  obtain ⟨w, hw, h⟩ := bind_eq_ok h
  obtain ⟨x, hx, h⟩ := bind_eq_ok h
  exact (latchAddress_frame hu).trans (((work_frame u _).trans (select_frame hw)).trans
    ((writeData_frame hx).trans (pulse_frame h)))

theorem readByte_frame {a : DevAddr} {s t : State} (h : readByte a s = .ok t) : Frame s t := by
  obtain ⟨u, hu, h⟩ := bind_eq_ok h
  obtain ⟨v, hv, h⟩ := bind_eq_ok h
  obtain ⟨w, hw, h⟩ := bind_eq_ok h
  obtain ⟨x, hx, h⟩ := bind_eq_ok h
  obtain ⟨y, hy, h⟩ := bind_eq_ok h
  have hs : Frame v w := by
    obtain ⟨p, hp, hw⟩ := bind_eq_ok hw
    obtain ⟨q, hq, hw⟩ := bind_eq_ok hw
    obtain ⟨r, hr, hw⟩ := bind_eq_ok hw
    rw [← Except.ok.inj hw]
    have h2 := writeControl_frame hq
    exact (select_frame hp).trans (h2.trans ((delay_frame _ q).trans ((readData_frame hr).trans (work_frame _ _))))
  have h4 := writeControl_frame hx
  exact (latchAddress_frame hu).trans ((setDirection_frame hv).trans (hs.trans (h4.trans
    ((setDirection_frame hy).trans (latchAddress_frame h)))))

theorem pollLoop_frame {a : DevAddr} {v : Byte} {head : StepIndex} {n : Nat} {s : State} {r : OutcomeCode × State}
    (h : pollLoop a v head n s = .ok r) : Frame s r.2 := by
  induction n generalizing s with
  | zero => rw [← Except.ok.inj h]; exact Frame.refl _
  | succ n ih =>
    obtain ⟨u, hu, h⟩ := bind_eq_ok h
    have h1 := (work_frame s _).trans ((readByte_frame hu).trans (work_frame u { u.work with pollR := u.work.pollR + 1 }))
    simp only at h
    split at h
    · rw [← Except.ok.inj h]; exact h1
    · exact h1.trans (ih h)

theorem writeByte_frame {a : DevAddr} {v : Byte} {s : State} {r : OutcomeCode × State} (h : writeByte a v s = .ok r) :
    Frame s r.2 := by
  obtain ⟨u, hu, h⟩ := bind_eq_ok h
  obtain ⟨w, hw, h⟩ := bind_eq_ok h
  exact (fastWrite_frame hu).trans ((delay_frame _ u).trans ((latchAddress_frame hw).trans
    ((work_frame w _).trans (pollLoop_frame h))))

theorem writeLoop_frame {addr : Nat} {head : StepIndex} {n i : Nat} {s : State} {r : OutcomeCode × Nat × State}
    (h : writeLoop addr head n i s = .ok r) : Frame s r.2.2 := by
  induction n generalizing s i with
  | zero => rw [← Except.ok.inj h]; exact Frame.refl _
  | succ n ih =>
    unfold writeLoop at h
    split at h
    · rw [← Except.ok.inj h]; exact Frame.refl _
    · split at h
      · cases h
      · obtain ⟨q, hq, h⟩ := bind_eq_ok h
        have h1 := (work_frame s _).trans (writeByte_frame hq)
        split at h
        · exact h1.trans ((work_frame _ _).trans (ih h))
        · rw [← Except.ok.inj h]; exact h1

/-- A READBLOCK's loop changes the buffer and is otherwise port activity. -/
theorem readLoop_frame {addr : Nat} {head : StepIndex} {n i : Nat} {s : State} {r : Nat × State}
    (h : readLoop addr head n i s = .ok r) : Frame s { r.2 with buf := s.buf } := by
  induction n generalizing s i with
  | zero => rw [← Except.ok.inj h]; exact Frame.refl _
  | succ n ih =>
    unfold readLoop at h
    split at h
    · rw [← Except.ok.inj h]; exact Frame.refl _
    · obtain ⟨u, hu, h⟩ := bind_eq_ok h
      have h1 := (work_frame s _).trans (readByte_frame hu)
      have h2 := ih h
      exact h1.trans ⟨h2.cfg, h2.kind, h2.status, h2.resp, h1.buf.symm, h2.parser, h2.parsed, h2.inbox, h2.trace⟩

theorem erasePacing_frame (a : Nat) (s : State) : Frame s (erasePacing a s) := by
  unfold erasePacing progress
  split <;> split
  · exact (delay_frame _ s).emit (by simp)
  · exact delay_frame _ s
  · exact (Frame.refl s).emit (by simp)
  · exact Frame.refl s

theorem eraseSweep_frame {head : StepIndex} {n a : Nat} {s t : State} (h : eraseSweep head n a s = .ok t) :
    Frame s t := by
  induction n generalizing s a with
  | zero => rw [← Except.ok.inj h]; exact Frame.refl _
  | succ n ih =>
    obtain ⟨u, hu, h⟩ := bind_eq_ok h
    exact (work_frame s _).trans ((fastWrite_frame hu).trans ((erasePacing_frame a u).trans
      ((work_frame _ _).trans (ih h))))

end Sys2Proof.Machine
end

