-- ==== Sys2Proof/Laws/Port.lean ====
section
/-! SUPPORT. What each port call does from a quiescent port (strobe set, DIR out), or inside a pulse or a read, so that no
later proof unfolds the edge rule. -/

namespace Sys2Proof.Machine

/-! ## Control byte and pins -/

@[simp] theorem strobeSet_ctl_one (c : Config) (f : Fn) : strobeSet (ctl c f 1#1) = true := by
  simp only [strobeSet, ctl]; generalize c.code f = k; revert k; decide

@[simp] theorem strobeSet_ctl_zero (c : Config) (f : Fn) : strobeSet (ctl c f 0#1) = false := by
  simp only [strobeSet, ctl]; generalize c.code f = k; revert k; decide

@[simp] theorem fsel_ctl (c : Config) (f : Fn) (b : BitVec 1) : fsel (ctl c f b) = c.code f :=
  (BitVec.extractLsb'_append_eq_of_le (by decide)).trans BitVec.extractLsb'_append_eq_right

/-- With pairwise distinct codes a function's code stands for it (10_state.md R24). -/
theorem fnOfCode_code {c : Config} (hc : c.wf = true) (f : Fn) : fnOfCode c (c.code f) = some f := by
  simp only [Config.wf, Bool.and_eq_true, decide_eq_true_eq] at hc
  have h := hc.2
  simp only [List.nodup_cons, List.mem_cons, List.not_mem_nil, or_false, not_or] at h
  cases f <;> simp [fnOfCode, Config.code, Ne.symm h.1.1, Ne.symm h.1.2.1, Ne.symm h.1.2.2, Ne.symm h.2.1.1,
    Ne.symm h.2.1.2, Ne.symm h.2.2.1]

@[simp] theorem lineUnder_ctl_one (c : Config) (f : Fn) : lineUnder c (ctl c f 1#1) = none := by simp [lineUnder]

theorem lineUnder_ctl_zero {c : Config} (hc : c.wf = true) (f : Fn) : lineUnder c (ctl c f 0#1) = some f := by
  simp [lineUnder, fnOfCode_code hc]

theorem activeLine_set {s : State} (h : strobeSet s.port.ctrl = true) : activeLine s = .ok none := by
  simp [activeLine, h]

theorem activeLine_ctl_zero {s : State} {f : Fn} (hc : s.cfg.wf = true) (h : s.port.ctrl = ctl s.cfg f 0#1)
    (hk : s.port.fselKnown = true) : activeLine s = .ok (some f) := by
  simp [activeLine, h, hk, lineUnder_ctl_zero hc]

/-- The pins after both latches are loaded show the address (10_state.md R29, 40_address_latch.md R121). -/
@[simp] theorem pins_hi_lo (c : Config) (a : DevAddr) (cs : Sel) :
    (hiByte c a cs).extractLsb' 0 7 ++ loByte a = a := by
  have h : (hiByte c a cs).extractLsb' 0 7 = a.extractLsb' 8 7 := BitVec.extractLsb'_append_eq_right
  rw [h]
  exact BitVec.extractLsb'_append_extractLsb'

/-- The chip-select pin after the high latch is loaded carries the flag (10_state.md R29). -/
@[simp] theorem csPin_hi (c : Config) (a : DevAddr) (cs : Sel) : (hiByte c a cs).extractLsb' 7 1 = csLevel c cs :=
  BitVec.extractLsb'_append_eq_left

@[simp] theorem csLevel_sel (c : Config) : csLevel c .sel = c.csSelLevel := rfl

@[simp] theorem csLevel_desel_ne (c : Config) : (csLevel c .desel == c.csSelLevel) = false := by
  simp only [csLevel]; generalize c.csSelLevel = b; revert b; decide

/-! ## Port calls -/

/-- The look for contention, with every case of it (20_memory.md R70, R71; log 19). -/
theorem settle_checked {t : State} (h : t.port.fselKnown = true) : contentionChecked t (settle t) := by
  have hl : activeLine t = .ok (lineUnder t.cfg t.port.ctrl) := by
    unfold activeLine; split
    · rename_i hs; simp [lineUnder, hs]
    · rfl
  unfold contentionChecked settle deviceDrives
  rw [hl]
  rcases lineUnder t.cfg t.port.ctrl with _ | f
  · simp
  · cases f <;> simp
    refine ⟨?_, ?_, ?_, ?_, ?_⟩ <;> intros <;> simp_all [selected]

/-- A control write is its edge and the look for contention (20_memory.md R60, R67). -/
theorem writeControl_eq {s : State} (c : Byte) (hk : s.port.fselKnown = true) :
    writeControl c s = (applyEdge (lineUnder s.cfg s.port.ctrl) (lineUnder s.cfg c)
      { s with port.ctrl := c, port.fselKnown := true }) >>= fun t => settle (emit (.wc c) t) := by
  unfold writeControl activeLine
  by_cases hs : strobeSet s.port.ctrl = true
  · simp only [hs, if_true, lineUnder, ok_bind]
  · simp only [hs, hk, if_true]; rfl

/-- With no line active nobody drives against the port. -/
theorem settle_set {s : State} (h : strobeSet s.port.ctrl = true) : settle s = .ok s := by
  simp [settle, deviceDrives, activeLine_set h]

/-- With a line other than `OE` active nobody drives against the port. -/
theorem settle_line {s : State} {f : Fn} (hf : f ≠ .oe) (h : activeLine s = .ok (some f)) : settle s = .ok s := by
  cases f <;> simp_all [settle, deviceDrives]

theorem writeData_ok {s : State} (b : Byte) (h : strobeSet s.port.ctrl = true) :
    writeData b s = .ok (emit (.wd b) { s with port.data := b, port.dataKnown := true }) :=
  settle_set h

theorem setDirection_ok {s : State} (d : Dir) (h : strobeSet s.port.ctrl = true) :
    setDirection d s = .ok (emit (.dir d) { s with port.dir := d }) :=
  settle_set h

theorem select_ok {s : State} (f : Fn) (h : strobeSet s.port.ctrl = true) :
    select f s = .ok (emit (.wc (ctl s.cfg f 1#1)) { s with port.ctrl := ctl s.cfg f 1#1, port.fselKnown := true }) := by
  unfold select writeControl
  rw [activeLine_set h]
  exact settle_set (strobeSet_ctl_one _ _)

/-- The first half of a pulse of a line other than `OE`. -/
theorem strobeClear_ok {s : State} {f : Fn} (hf : f ≠ .oe) (hc : s.cfg.wf = true)
    (h : strobeSet s.port.ctrl = true) :
    writeControl (ctl s.cfg f 0#1) s =
      .ok (emit (.wc (ctl s.cfg f 0#1)) { s with port.ctrl := ctl s.cfg f 0#1, port.fselKnown := true }) := by
  unfold writeControl
  rw [activeLine_set h]
  exact settle_line hf (activeLine_ctl_zero (f := f) hc rfl rfl)

/-- The second half of a pulse: the trailing edge of the line (20_memory.md R67). -/
theorem strobeBack_eq {s : State} {f : Fn} (hc : s.cfg.wf = true) (hk : s.port.fselKnown = true)
    (h : s.port.ctrl = ctl s.cfg f 0#1) :
    writeControl (ctl s.cfg f 1#1) s = (do
      let t ← trailingEdge f { s with port.ctrl := ctl s.cfg f 1#1, port.fselKnown := true }
      settle (emit (.wc (ctl s.cfg f 1#1)) t)) := by
  unfold writeControl
  rw [activeLine_ctl_zero hc h hk]
  simp [applyEdge]

/-- A pulse is its trailing edge between two control writes (20_memory.md R66). -/
theorem pulse_eq {s : State} {f : Fn} (hf : f ≠ .oe) (hc : s.cfg.wf = true) (h : strobeSet s.port.ctrl = true) :
    pulse f s = (do
      let t ← trailingEdge f
        (emit (.wc (ctl s.cfg f 0#1)) { s with port.ctrl := ctl s.cfg f 1#1, port.fselKnown := true })
      settle (emit (.wc (ctl s.cfg f 1#1)) t)) := by
  unfold pulse
  rw [strobeClear_ok hf hc h]
  exact strobeBack_eq (f := f)
    (s := emit (.wc (ctl s.cfg f 0#1)) { s with port.ctrl := ctl s.cfg f 0#1, port.fselKnown := true }) hc rfl rfl

/-- A pulse of `LOW` captures `DATA` (20_memory.md R66, R68). -/
theorem pulse_low_ok {s : State} (hc : s.cfg.wf = true) (h : strobeSet s.port.ctrl = true) (hd : s.port.dir = .out)
    (hk : s.port.dataKnown = true) :
    pulse .low s = .ok (emit (.wc (ctl s.cfg .low 1#1)) (emit (.wc (ctl s.cfg .low 0#1))
      { s with
        port.ctrl := ctl s.cfg .low 1#1, port.fselKnown := true
        port.latchLo := s.port.data, port.latchLoKnown := true })) := by
  rw [pulse_eq (by decide) hc h]
  simp only [trailingEdge, capturedLines, emit_port, hd, hk, and_self, if_true, ok_bind]
  exact settle_set (strobeSet_ctl_one _ _)

/-- A pulse of `HIGH` captures `DATA` (20_memory.md R66, R68). -/
theorem pulse_high_ok {s : State} (hc : s.cfg.wf = true) (h : strobeSet s.port.ctrl = true) (hd : s.port.dir = .out)
    (hk : s.port.dataKnown = true) :
    pulse .high s = .ok (emit (.wc (ctl s.cfg .high 1#1)) (emit (.wc (ctl s.cfg .high 0#1))
      { s with
        port.ctrl := ctl s.cfg .high 1#1, port.fselKnown := true
        port.latchHi := s.port.data, port.latchHiKnown := true })) := by
  rw [pulse_eq (by decide) hc h]
  simp only [trailingEdge, capturedLines, emit_port, hd, hk, and_self, if_true, ok_bind]
  exact settle_set (strobeSet_ctl_one _ _)

/-- A pulse of `WE` with the device selected commits `DATA` at the pins (20_memory.md R66, R69). -/
theorem pulse_we_ok {s : State} (hc : s.cfg.wf = true) (h : strobeSet s.port.ctrl = true) (hd : s.port.dir = .out)
    (hk : s.port.dataKnown = true) (hl : s.port.latchLoKnown = true) (hh : s.port.latchHiKnown = true)
    (hs : selected s = true) :
    pulse .we s = .ok (emit (.wc (ctl s.cfg .we 1#1)) (devWrite (addressPins s.port) s.port.data
      (emit (.wc (ctl s.cfg .we 0#1)) { s with port.ctrl := ctl s.cfg .we 1#1, port.fselKnown := true }))) := by
  rw [pulse_eq (by decide) hc h]
  have hs' : selected (emit (.wc (ctl s.cfg .we 0#1))
      { s with port.ctrl := ctl s.cfg .we 1#1, port.fselKnown := true }) = true := hs
  have hw : trailingEdge .we (emit (.wc (ctl s.cfg .we 0#1))
      { s with port.ctrl := ctl s.cfg .we 1#1, port.fselKnown := true }) =
      .ok (devWrite (addressPins s.port) s.port.data (emit (.wc (ctl s.cfg .we 0#1))
        { s with port.ctrl := ctl s.cfg .we 1#1, port.fselKnown := true })) := by
    unfold trailingEdge commitEdge
    rw [if_neg (by simp [hh]), if_neg (by simp [hs']), if_pos ⟨hd, hk, hl⟩]
    rfl
  rw [hw]
  exact settle_set (strobeSet_ctl_one _ _)

end Sys2Proof.Machine
end

