-- ==== Sys2Proof/Laws/Sequences.lean ====
section
/-! SUPPORT. What the shared sequences do from a quiescent port: SETADDR's latch loads, the write strobe, a read and its
sample. Each is one equation; the operations' lemmas cite these and unfold no port call. -/

namespace Sys2Proof.Machine

theorem quiescent_iff {s : State} : s.quiescent = true ↔ strobeSet s.port.ctrl = true ∧ s.port.dir = .out := by
  simp [State.quiescent]

@[simp] theorem latched_dir (c : Config) (a : DevAddr) (cs : Sel) (p : Port) : (p.latched c a cs).dir = p.dir := rfl
@[simp] theorem latched_ctrl (c : Config) (a : DevAddr) (cs : Sel) (p : Port) :
    (p.latched c a cs).ctrl = ctl c .high 1#1 := rfl
@[simp] theorem strobed_dir (c : Config) (a : DevAddr) (v : Byte) (p : Port) : (p.strobed c a v).dir = p.dir := rfl
@[simp] theorem strobed_ctrl (c : Config) (a : DevAddr) (v : Byte) (p : Port) :
    (p.strobed c a v).ctrl = ctl c .we 1#1 := rfl
@[simp] theorem latched_latched (c : Config) (a b : DevAddr) (cs ds : Sel) (p : Port) :
    (p.latched c a cs).latched c b ds = p.latched c b ds := rfl
@[simp] theorem strobed_latched (c : Config) (a b : DevAddr) (v : Byte) (ds : Sel) (p : Port) :
    (p.strobed c a v).latched c b ds = p.latched c b ds := rfl
@[simp] theorem latched_strobed (c : Config) (a b : DevAddr) (v : Byte) (ds : Sel) (p : Port) :
    (p.latched c a ds).strobed c b v = p.strobed c b v := rfl
@[simp] theorem strobed_strobed (c : Config) (a b : DevAddr) (v w : Byte) (p : Port) :
    (p.strobed c a v).strobed c b w = p.strobed c b w := rfl

/-- The address pins after a SETADDR (10_state.md R29). -/
@[simp] theorem addressPins_latched (c : Config) (a : DevAddr) (cs : Sel) (p : Port) :
    addressPins (p.latched c a cs) = a := pins_hi_lo c a cs

theorem loadLow_ok {s : State} (b : Byte) (hc : s.cfg.wf = true) (h : strobeSet s.port.ctrl = true)
    (hd : s.port.dir = .out) :
    loadLatch .low b s = .ok
      { s with
        port := { s.port with
          data := b, dataKnown := true, ctrl := ctl s.cfg .low 1#1, fselKnown := true, latchLo := b, latchLoKnown := true }
        trace := [.wc (ctl s.cfg .low 1#1), .wc (ctl s.cfg .low 0#1), .wc (ctl s.cfg .low 1#1), .wd b] ++ s.trace
        work.stepR := s.work.stepR.advance 4 } := by
  unfold loadLatch
  rw [writeData_ok b h, ok_bind, select_ok, ok_bind, pulse_low_ok]
  · simp [emit]
  · exact hc
  · exact strobeSet_ctl_one _ _
  · exact hd
  · rfl
  · exact h

theorem loadHigh_ok {s : State} (b : Byte) (hc : s.cfg.wf = true) (h : strobeSet s.port.ctrl = true)
    (hd : s.port.dir = .out) :
    loadLatch .high b s = .ok
      { s with
        port := { s.port with
          data := b, dataKnown := true, ctrl := ctl s.cfg .high 1#1, fselKnown := true, latchHi := b, latchHiKnown := true }
        trace := [.wc (ctl s.cfg .high 1#1), .wc (ctl s.cfg .high 0#1), .wc (ctl s.cfg .high 1#1), .wd b] ++ s.trace
        work.stepR := s.work.stepR.advance 4 } := by
  unfold loadLatch
  rw [writeData_ok b h, ok_bind, select_ok, ok_bind, pulse_high_ok]
  · simp [emit]
  · exact hc
  · exact strobeSet_ctl_one _ _
  · exact hd
  · rfl
  · exact h

/-- SETADDR's eight events and its end state (40_address_latch.md R121). -/
theorem latchAddress_ok {s : State} (a : DevAddr) (cs : Sel) (hc : s.cfg.wf = true) (hq : s.quiescent = true) :
    latchAddress a cs s = .ok
      { s with
        port := s.port.latched s.cfg a cs
        trace := (latchTrace s.cfg a cs).reverse ++ s.trace
        work.stepR := s.work.stepR.advance 8 } := by
  obtain ⟨h, hd⟩ := quiescent_iff.mp hq
  unfold latchAddress
  rw [loadLow_ok _ hc h hd, ok_bind, loadHigh_ok]
  · simp [latchTrace, Port.latched]
  · exact hc
  · exact strobeSet_ctl_one _ _
  · exact hd

/-- FASTWRITE's twelve events, its end state and the write it commits (41_byte_engine.md R133). -/
theorem fastWrite_ok {s : State} (a : DevAddr) (v : Byte) (hc : s.cfg.wf = true) (hq : s.quiescent = true) :
    fastWrite a v s = .ok
      { s with
        port := s.port.strobed s.cfg a v
        dev := s.dev.overtaken.accept a v (s.dev.kind.budget s.draws)
        draws := s.draws + 1
        trace := (fastWriteTrace s.cfg a v).reverse ++ s.trace
        work := { s.work with valR := v, stepR := s.work.stepR.advance 12 } } := by
  obtain ⟨h, hd⟩ := quiescent_iff.mp hq
  unfold fastWrite writeStrobe
  rw [latchAddress_ok a .sel hc hq, ok_bind, select_ok, ok_bind, writeData_ok, ok_bind, pulse_we_ok]
  · simp [emit, devWrite, countDraw, fastWriteTrace, Port.strobed, Port.latched, addressPins]
  · exact hc
  · exact strobeSet_ctl_one _ _
  · exact hd
  · rfl
  · rfl
  · rfl
  · simp [selected, csPin, emit, Port.latched]
  · exact strobeSet_ctl_one _ _
  · exact strobeSet_ctl_one _ _

/-- With `OE` active and the device selected the device drives the lines (20_memory.md R70). -/
theorem deviceDrives_selected {s : State} (hc : s.cfg.wf = true) (h : s.port.ctrl = ctl s.cfg .oe 0#1)
    (hk : s.port.fselKnown = true) (hl : s.port.latchLoKnown = true) (hh : s.port.latchHiKnown = true)
    (hs : selected s = true) : deviceDrives s = .ok true := by
  simp [deviceDrives, activeLine_ctl_zero hc h hk, hl, hh, hs]

/-- Activating `OE` with `DIR = in` (41_byte_engine.md R134 step 3, R135). -/
theorem oeClear_ok {s : State} (hc : s.cfg.wf = true) (h : strobeSet s.port.ctrl = true) (hd : s.port.dir = .inp)
    (hl : s.port.latchLoKnown = true) (hh : s.port.latchHiKnown = true) (hs : selected s = true) :
    writeControl (ctl s.cfg .oe 0#1) s =
      .ok (emit (.wc (ctl s.cfg .oe 0#1)) { s with port.ctrl := ctl s.cfg .oe 0#1, port.fselKnown := true }) := by
  unfold writeControl
  rw [activeLine_set h]
  have hdrive : deviceDrives (emit (.wc (ctl s.cfg .oe 0#1))
      { s with port.ctrl := ctl s.cfg .oe 0#1, port.fselKnown := true }) = .ok true :=
    deviceDrives_selected hc rfl rfl hl hh hs
  change settle _ = _
  unfold settle
  rw [hdrive]
  simp [hd]

/-- A sample while the device drives (20_memory.md R70 (b)). -/
theorem readData_ok {s : State} (h : deviceDrives s = .ok true) (hd : s.port.dir = .inp) :
    readData s = .ok (s.dev.answer s.draws (addressPins s.port),
      emit (.rd (s.dev.answer s.draws (addressPins s.port))) (afterDevRead s)) := by
  unfold readData
  rw [h, hd]

/-- The sample of a READBYTE from the selected port with `DIR = in` (41_byte_engine.md R134 step 3). -/
theorem sampleByte_ok {s : State} (hc : s.cfg.wf = true) (h : strobeSet s.port.ctrl = true) (hd : s.port.dir = .inp)
    (hl : s.port.latchLoKnown = true) (hh : s.port.latchHiKnown = true) (hs : selected s = true) :
    sampleByte s = .ok
      { s with
        port.ctrl := ctl s.cfg .oe 0#1, port.fselKnown := true
        dev := s.heldDevice.consumed
        draws := s.draws + 1
        trace := [.rd (s.readBack (addressPins s.port)), .delay s.cfg.tOeSettle, .wc (ctl s.cfg .oe 0#1),
          .wc (ctl s.cfg .oe 1#1)] ++ s.trace
        work := { s.work with
          rbR := s.readBack (addressPins s.port), stepR := s.work.stepR.advance 4 } } := by
  unfold sampleByte
  rw [select_ok .oe h, ok_bind, oeClear_ok, ok_bind, readData_ok]
  · simp [delay, emit, afterDevRead, countDraw, State.heldDevice, State.readBack, addressPins]
  · exact deviceDrives_selected hc rfl rfl hl hh hs
  · exact hd
  · exact hc
  · exact strobeSet_ctl_one _ _
  · exact hd
  · exact hl
  · exact hh
  · exact hs

/-- `DIR = in`, then the sample, then `OE` inactive, `DIR = out` and the deselecting SETADDR (41_byte_engine.md R134 steps 2
to 4), from a port that has latched `a` with SEL. -/
theorem readPhase_ok {s : State} (a : DevAddr) (hc : s.cfg.wf = true) (h : strobeSet s.port.ctrl = true)
    (hl : s.port.latchLoKnown = true) (hh : s.port.latchHiKnown = true) (hs : selected s = true)
    (hp : addressPins s.port = a) :
    (setDirection .inp s >>= sampleByte) = .ok
      { s with
        port := { s.port with dir := .inp, ctrl := ctl s.cfg .oe 0#1, fselKnown := true }
        dev := s.heldDevice.consumed
        draws := s.draws + 1
        trace := [.rd (s.readBack a), .delay s.cfg.tOeSettle, .wc (ctl s.cfg .oe 0#1), .wc (ctl s.cfg .oe 1#1),
          .dir .inp] ++ s.trace
        work := { s.work with rbR := s.readBack a, stepR := s.work.stepR.advance 5 } } := by
  subst hp
  rw [setDirection_ok _ h, ok_bind, sampleByte_ok]
  · simp [emit, State.heldDevice, State.readBack, addressPins]
  · exact hc
  · exact h
  · rfl
  · exact hl
  · exact hh
  · exact hs

/-- `OE` inactive, `DIR = out`, the deselecting SETADDR (41_byte_engine.md R134 step 4). -/
theorem closeRead_ok {s : State} (a : DevAddr) (hc : s.cfg.wf = true) (hk : s.port.fselKnown = true)
    (h : s.port.ctrl = ctl s.cfg .oe 0#1) :
    (do
      let t ← writeControl (ctl s.cfg .oe 1#1) s
      let t ← setDirection .out t
      latchAddress a .desel t) = .ok
      { s with
        port := { s.port.latched s.cfg a .desel with dir := .out }
        trace := (latchTrace s.cfg a .desel).reverse ++ [.dir .out, .wc (ctl s.cfg .oe 1#1)] ++ s.trace
        work.stepR := s.work.stepR.advance 10 } := by
  rw [strobeBack_eq (f := .oe) hc hk h]
  simp only [trailingEdge, ok_bind]
  rw [settle_set (strobeSet_ctl_one _ _), ok_bind, setDirection_ok _ (strobeSet_ctl_one _ _), ok_bind, latchAddress_ok]
  · simp [emit, Port.latched]
  · exact hc
  · exact quiescent_iff.mpr ⟨strobeSet_ctl_one _ _, rfl⟩

/-- READBYTE's twenty-three events, its end state and the byte in `RB_R` (41_byte_engine.md R134). -/
theorem readByte_ok {s : State} (a : DevAddr) (hc : s.cfg.wf = true) (hq : s.quiescent = true) :
    readByte a s = .ok
      { s with
        port := s.port.latched s.cfg a .desel
        dev := s.heldDevice.consumed
        draws := s.draws + 1
        trace := (readTrace s.cfg a (s.readBack a)).reverse ++ s.trace
        work := { s.work with rbR := s.readBack a, stepR := s.work.stepR.advance 23 } } := by
  obtain ⟨h, hd⟩ := quiescent_iff.mp hq
  unfold readByte
  rw [latchAddress_ok a .sel hc hq, ok_bind, ← bind_assoc, readPhase_ok a]
  · rw [ok_bind]
    refine (closeRead_ok a ?_ ?_ ?_).trans ?_
    · exact hc
    · rfl
    · rfl
    · simp [readTrace, Port.latched, hd, State.heldDevice, State.readBack]
  · exact hc
  · exact strobeSet_ctl_one _ _
  · rfl
  · rfl
  · simp [selected, csPin, Port.latched]
  · simp

end Sys2Proof.Machine
end

