-- ==== Sys2Proof/Laws/Loops.lean ====
section
/-! SUPPORT. One turn of each loop from a ready port (parameters within their constraints, quiescent): poll, block read, block
write, erase; and WRITEBYTE up to its poll. -/

namespace Sys2Proof.Machine

/-- What every sequence needs and every loop keeps. -/
structure Ready (s : State) : Prop where
  cfg : s.cfg.wf = true
  quiescent : s.quiescent = true

/-- The state after a READBYTE of `a` (41_byte_engine.md R134). -/
def State.afterRead (a : DevAddr) (s : State) : State :=
  { s with
    port := s.port.latched s.cfg a .desel
    dev := s.heldDevice.consumed
    draws := s.draws + 1
    trace := (readTrace s.cfg a (s.readBack a)).reverse ++ s.trace
    work := { s.work with rbR := s.readBack a, stepR := s.work.stepR.advance 23 } }

/-- The state after a FASTWRITE of `v` at `a` (41_byte_engine.md R133). -/
def State.afterFastWrite (a : DevAddr) (v : Byte) (s : State) : State :=
  { s with
    port := s.port.strobed s.cfg a v
    dev := s.dev.overtaken.accept a v (s.dev.kind.budget s.draws)
    draws := s.draws + 1
    trace := (fastWriteTrace s.cfg a v).reverse ++ s.trace
    work := { s.work with valR := v, stepR := s.work.stepR.advance 12 } }

/-- The state in which WRITEBYTE begins to poll (41_byte_engine.md R130 steps 1 to 5). -/
def State.beforePoll (a : DevAddr) (v : Byte) (s : State) : State :=
  { s with
    port := s.port.latched s.cfg a .desel
    dev := (s.dev.overtaken.accept a v (s.dev.kind.budget s.draws)).waited s.cfg.tDevWc s.cfg.tWriteSettle
    draws := s.draws + 1
    trace := (writeTrace s.cfg a v).reverse ++ s.trace
    work := { s.work with valR := v, pollR := 0, stepR := s.work.stepR.advance 21 } }

/-- One turn of the poll loop: `STEP_R` back to its head, a READBYTE, `POLL_R` one higher. -/
def State.afterPoll (a : DevAddr) (head : StepIndex) (s : State) : State :=
  let t := (returnTo head s).afterRead a
  { t with work.pollR := t.work.pollR + 1 }

/-- One turn of READBLOCK's loop at index `i`. -/
def State.afterBlockRead (a : DevAddr) (head : StepIndex) (i : Nat) (s : State) : State :=
  let t := (returnTo head s).afterRead a
  { t with buf := Buffer.set s.buf i (s.readBack a), work.idxR := BitVec.ofNat 11 (i + 1) }

/-- One turn of ERASE's sweep at address `a`. -/
def State.afterEraseTurn (head : StepIndex) (a : Nat) (s : State) : State :=
  let t := erasePacing a ((returnTo head s).afterFastWrite (BitVec.ofNat 15 a) blank)
  { t with work.eraseR := BitVec.ofNat 16 (a + 1) }

@[simp] theorem afterPoll_trace (a : DevAddr) (head : StepIndex) (s : State) :
    (s.afterPoll a head).trace = (readTrace s.cfg a (s.readBack a)).reverse ++ s.trace := rfl
@[simp] theorem afterPoll_cfg (a : DevAddr) (head : StepIndex) (s : State) : (s.afterPoll a head).cfg = s.cfg := rfl

@[simp] theorem quiescent_latched {s : State} {c : Config} {a : DevAddr} {cs : Sel} {p : Port}
    (hs : s.port = p.latched c a cs) : s.quiescent = decide (p.dir = .out) := by
  simp [State.quiescent, hs]

theorem Ready.congr {s t : State} (h : Ready s) (hc : t.cfg = s.cfg) (hp : t.port = s.port) : Ready t :=
  ⟨hc ▸ h.cfg, by have := h.quiescent; simpa [State.quiescent, hp] using this⟩

theorem Ready.dir {s : State} (h : Ready s) : s.port.dir = .out := (quiescent_iff.mp h.quiescent).2

theorem Ready.latched {s t : State} {a : DevAddr} {cs : Sel} (h : Ready s) (hc : t.cfg = s.cfg)
    (hp : t.port = s.port.latched s.cfg a cs) : Ready t :=
  ⟨hc ▸ h.cfg, by rw [quiescent_latched hp, h.dir]; rfl⟩

theorem Ready.strobed {s t : State} {a : DevAddr} {v : Byte} (h : Ready s) (hc : t.cfg = s.cfg)
    (hp : t.port = s.port.strobed s.cfg a v) : Ready t :=
  ⟨hc ▸ h.cfg, quiescent_iff.mpr (by rw [hp]; exact ⟨strobeSet_ctl_one _ _, h.dir⟩)⟩

theorem Ready.returnTo {s : State} (h : Ready s) (head : StepIndex) : Ready (returnTo head s) := h.congr rfl rfl

theorem Ready.afterRead {s : State} (h : Ready s) (a : DevAddr) : Ready (s.afterRead a) := h.latched rfl rfl

theorem Ready.afterFastWrite {s : State} (h : Ready s) (a : DevAddr) (v : Byte) : Ready (s.afterFastWrite a v) :=
  h.strobed rfl rfl

theorem Ready.beforePoll {s : State} (h : Ready s) (a : DevAddr) (v : Byte) : Ready (s.beforePoll a v) :=
  h.latched rfl rfl

theorem Ready.afterPoll {s : State} (h : Ready s) (a : DevAddr) (head : StepIndex) : Ready (s.afterPoll a head) :=
  h.latched rfl rfl

theorem Ready.afterBlockRead {s : State} (h : Ready s) (a : DevAddr) (head : StepIndex) (i : Nat) :
    Ready (s.afterBlockRead a head i) := h.latched rfl rfl

@[simp] theorem erasePacing_cfg (a : Nat) (s : State) : (erasePacing a s).cfg = s.cfg := (erasePacing_frame a s).cfg

@[simp] theorem erasePacing_port (a : Nat) (s : State) : (erasePacing a s).port = s.port := by
  unfold erasePacing progress delay; split <;> split <;> rfl

@[simp] theorem erasePacing_draws (a : Nat) (s : State) : (erasePacing a s).draws = s.draws := by
  unfold erasePacing progress delay; split <;> split <;> rfl

theorem Ready.afterEraseTurn {s : State} (h : Ready s) (head : StepIndex) (a : Nat) : Ready (s.afterEraseTurn head a) :=
  h.strobed (a := BitVec.ofNat 15 a) (v := blank) (by simp [State.afterEraseTurn, State.afterFastWrite])
    (by simp [State.afterEraseTurn, State.afterFastWrite])

theorem readByte_eq {s : State} (h : Ready s) (a : DevAddr) : readByte a s = .ok (s.afterRead a) :=
  readByte_ok a h.cfg h.quiescent

theorem fastWrite_eq {s : State} (h : Ready s) (a : DevAddr) (v : Byte) : fastWrite a v s = .ok (s.afterFastWrite a v) :=
  fastWrite_ok a v h.cfg h.quiescent

/-- WRITEBYTE is its strobe, its settle and its deselect, then the poll (41_byte_engine.md R130). -/
theorem writeByte_eq {s : State} (h : Ready s) (a : DevAddr) (v : Byte) :
    writeByte a v s = pollLoop a v (s.work.stepR.advance 21) s.cfg.pollLimit (s.beforePoll a v) := by
  unfold writeByte
  rw [fastWrite_eq h, ok_bind, latchAddress_ok, ok_bind]
  · congr 1 <;> simp [delay, emit, State.afterFastWrite, State.beforePoll, writeTrace]
  · exact h.cfg
  · exact (h.afterFastWrite a v).quiescent

/-- One turn of the poll (41_byte_engine.md R130 step 5, R131, R132). -/
theorem pollLoop_succ {s : State} (h : Ready s) (a : DevAddr) (v : Byte) (head : StepIndex) (n : Nat) :
    pollLoop a v head (n + 1) s =
      if converged (s.readBack a) v then
        .ok (if s.readBack a = v then .ok else .verifyMismatch, s.afterPoll a head)
      else pollLoop a v head n (s.afterPoll a head) := by
  conv_lhs => unfold pollLoop
  rw [readByte_eq (h.returnTo head), ok_bind]
  rfl

/-- One turn of READBLOCK's loop on an address in range (42_block_transfer.md R150). -/
theorem readLoop_succ {s : State} (h : Ready s) {addr i : Nat} {a : DevAddr} (ha : deviceAddress (addr + i) = some a)
    (head : StepIndex) (n : Nat) :
    readLoop addr head (n + 1) i s = readLoop addr head n (i + 1) (s.afterBlockRead a head i) := by
  conv_lhs => unfold readLoop
  rw [ha]
  simp only
  rw [readByte_eq (h.returnTo head), ok_bind]
  rfl

/-- The clip test of a block loop (42_block_transfer.md R152). -/
theorem readLoop_clip {s : State} {addr i : Nat} (ha : deviceAddress (addr + i) = none) (head : StepIndex) (n : Nat) :
    readLoop addr head n i s = .ok (i, s) := by
  cases n with
  | zero => rfl
  | succ n => unfold readLoop; rw [ha]

theorem writeLoop_clip {s : State} {addr i : Nat} (ha : deviceAddress (addr + i) = none) (head : StepIndex) (n : Nat) :
    writeLoop addr head n i s = .ok (.ok, i, s) := by
  cases n with
  | zero => rfl
  | succ n => unfold writeLoop; rw [ha]

/-- One turn of ERASE's sweep (43_erase_engine.md R160). -/
theorem eraseSweep_succ {s : State} (h : Ready s) (head : StepIndex) (n a : Nat) :
    eraseSweep head (n + 1) a s = eraseSweep head n (a + 1) (s.afterEraseTurn head a) := by
  conv_lhs => unfold eraseSweep
  rw [fastWrite_eq (h.returnTo head), ok_bind]
  rfl

end Sys2Proof.Machine
end

