-- ==== Sys2Proof/Laws/Device.lean ====
section
/-! SUPPORT. What the device's reactions keep: a byte that no write is on its way to (20_memory.md R74), and a write that is
pending or has arrived (R73). Every loop lemma about the device goes through these. -/

namespace Sys2Proof.Machine

/-! ## A byte that no write is on its way to -/

/-- `MEM[b]` reads as it did and no write will land at `b`. -/
def Device.KeepsByte (b : DevAddr) (d e : Device) : Prop :=
  e.landsAt b = false ∧ Memory.read e.mem b = Memory.read d.mem b

theorem Device.KeepsByte.trans {b : DevAddr} {d e f : Device} (h : d.KeepsByte b e) (k : e.KeepsByte b f) :
    d.KeepsByte b f := ⟨k.1, k.2.trans h.2⟩

theorem Device.KeepsByte.refl {b : DevAddr} {d : Device} (h : d.landsAt b = false) : d.KeepsByte b d := ⟨h, rfl⟩

theorem Device.landsAt_finite {d : Device} {a b : DevAddr} {v : Byte} {k : Nat} (hd : d.pend = .busy a v (.finite k)) :
    d.landsAt b = (a == b) := by simp [Device.landsAt, hd]

theorem Device.keepsByte_complete {d : Device} {a b : DevAddr} (v : Byte) (h : a ≠ b) : d.KeepsByte b (d.complete a v) :=
  ⟨rfl, Memory.read_write_other _ _ (Ne.symm h)⟩

theorem Device.keepsByte_consumed {d : Device} {b : DevAddr} (h : d.landsAt b = false) : d.KeepsByte b d.consumed := by
  unfold Device.consumed
  split
  · exact .refl h
  · exact .refl h
  · rename_i a v k hd
    have hab : a ≠ b := by simpa [Device.landsAt_finite hd] using h
    split
    · exact d.keepsByte_complete v hab
    · exact ⟨by simpa [Device.landsAt] using hab, rfl⟩

theorem Device.keepsByte_waited {d : Device} {b : DevAddr} (wc t : Nat) (h : d.landsAt b = false) :
    d.KeepsByte b (d.waited wc t) := by
  unfold Device.waited
  split
  · rename_i a v k hd
    have hab : a ≠ b := by simpa [Device.landsAt_finite hd] using h
    split
    · exact d.keepsByte_complete v hab
    · exact .refl h
  · exact .refl h
  · exact .refl h

theorem Device.keepsByte_overtaken {d : Device} {b : DevAddr} (h : d.landsAt b = false) : d.KeepsByte b d.overtaken := by
  unfold Device.overtaken
  split
  · exact .refl h
  · rename_i a v k hd
    exact d.keepsByte_complete v (by simpa [Device.landsAt_finite hd] using h)
  · exact ⟨rfl, rfl⟩

theorem Device.keepsByte_accept {d : Device} {a b : DevAddr} (v : Byte) (k : Budget) (h : a ≠ b) :
    d.KeepsByte b (d.accept a v k) := by
  unfold Device.accept
  split
  · exact d.keepsByte_complete v h
  · refine ⟨?_, rfl⟩
    cases k <;> simp [Device.landsAt, h]

/-! ## Byte by byte through the operations -/

theorem keepsByte_afterRead {s : State} {b : DevAddr} (a : DevAddr) (h : s.dev.landsAt b = false) :
    s.dev.KeepsByte b (s.afterRead a).dev :=
  (Device.keepsByte_waited _ _ h).trans (Device.keepsByte_consumed (Device.keepsByte_waited _ _ h).1)

theorem keepsByte_afterFastWrite {s : State} {a b : DevAddr} (v : Byte) (hab : a ≠ b) (h : s.dev.landsAt b = false) :
    s.dev.KeepsByte b (s.afterFastWrite a v).dev :=
  (Device.keepsByte_overtaken h).trans (Device.keepsByte_accept _ _ hab)

theorem keepsByte_beforePoll {s : State} {a b : DevAddr} (v : Byte) (hab : a ≠ b) (h : s.dev.landsAt b = false) :
    s.dev.KeepsByte b (s.beforePoll a v).dev :=
  (keepsByte_afterFastWrite (s := s) v hab h).trans
    (Device.keepsByte_waited _ _ (keepsByte_afterFastWrite (s := s) v hab h).1)

/-! ## A write that is pending or has arrived -/

/-- Under the contract: `v` is on its way to `a`, or the device is idle and holds it there (20_memory.md R73). -/
structure Device.Carries (a : DevAddr) (v : Byte) (d : Device) : Prop where
  contract : d.kind.keepsContract = true
  write : (d.pend = .none ∧ Memory.read d.mem a = v) ∨ ∃ k, d.pend = .busy a v k

theorem DeviceKind.stored_of_keepsContract {k : DeviceKind} (h : k.keepsContract = true) (v : Byte) : k.stored v = v := by
  cases k <;> first | rfl | simp [DeviceKind.keepsContract] at h

theorem Device.carries_complete {d : Device} (a : DevAddr) (v : Byte) (h : d.kind.keepsContract = true) :
    (d.complete a v).Carries a v :=
  ⟨h, .inl ⟨rfl, by rw [complete_mem, Memory.read_write_same, d.kind.stored_of_keepsContract h]⟩⟩

theorem Device.carries_accept {d : Device} (a : DevAddr) (v : Byte) (k : Budget) (h : d.kind.keepsContract = true) :
    (d.accept a v k).Carries a v := by
  unfold Device.accept
  split
  · exact d.carries_complete a v h
  · exact ⟨h, .inr ⟨_, rfl⟩⟩

theorem Device.Carries.consumed {d : Device} {a : DevAddr} {v : Byte} (h : d.Carries a v) : d.consumed.Carries a v := by
  obtain ⟨hk, ⟨hp, hm⟩ | ⟨k, hp⟩⟩ := h
  · exact ⟨by simpa using hk, .inl (by simp [Device.consumed, hp, hm])⟩
  · cases k with
    | infinite => exact ⟨by simpa using hk, .inr ⟨.infinite, by simp only [Device.consumed, hp]⟩⟩
    | finite n =>
      simp only [Device.consumed, hp]
      split
      · exact d.carries_complete a v hk
      · exact ⟨hk, .inr ⟨_, rfl⟩⟩

theorem Device.Carries.waited {d : Device} {a : DevAddr} {v : Byte} (h : d.Carries a v) (wc t : Nat) :
    (d.waited wc t).Carries a v := by
  obtain ⟨hk, ⟨hp, hm⟩ | ⟨k, hp⟩⟩ := h
  · exact ⟨by simpa using hk, .inl (by simp [Device.waited, hp, hm])⟩
  · cases k with
    | infinite => exact ⟨by simpa using hk, .inr ⟨.infinite, by simp only [Device.waited, hp]⟩⟩
    | finite n =>
      simp only [Device.waited, hp]
      split
      · exact d.carries_complete a v hk
      · exact ⟨hk, .inr ⟨_, hp⟩⟩

theorem carries_beforePoll {s : State} (a : DevAddr) (v : Byte) (h : s.dev.kind.keepsContract = true) :
    (s.beforePoll a v).dev.Carries a v :=
  (Device.carries_accept a v _ (by simpa using h)).waited _ _

theorem carries_afterPoll {s : State} {a : DevAddr} {v : Byte} (h : s.dev.Carries a v) (b : DevAddr) (head : StepIndex) :
    (s.afterPoll b head).dev.Carries a v := (h.waited _ _).consumed

/-- An idle device answers what it holds, unless it is the oracle (20_memory.md R72). -/
theorem Device.answer_idle {d : Device} (draw : Nat) (a : DevAddr) (hk : d.kind ≠ .oracle) (hp : d.pend = .none) :
    d.answer draw a = Memory.read d.mem a := by
  unfold Device.answer
  split
  · exact absurd (by assumption) hk
  · rfl
  · rename_i h _; rw [hp] at h; cases h

/-- A busy device answers with bit 7 of the pending byte inverted, unless it is the oracle (20_memory.md R72). -/
theorem Device.answer_busy_bit7 {d : Device} {b : DevAddr} {v : Byte} {k : Budget} (draw : Nat) (a : DevAddr)
    (hk : d.kind ≠ .oracle) (hp : d.pend = .busy b v k) : (d.answer draw a).getLsbD 7 = !v.getLsbD 7 := by
  unfold Device.answer
  split
  · exact absurd (by assumption) hk
  · rename_i h _; rw [hp] at h; cases h
  · rename_i h _
    rw [hp] at h; cases h
    simp only [BitVec.getLsbD_append, BitVec.getLsbD_not, BitVec.getLsbD_extractLsb']
    simp

theorem DeviceKind.ne_oracle {k : DeviceKind} (h : k.keepsContract = true) : k ≠ .oracle := by
  rintro rfl; cases h

/-- A read-back that agrees in bit 7 finds the write arrived (41_byte_engine.md R132, 20_memory.md R73). -/
theorem Device.Carries.converged {d : Device} {a : DevAddr} {v : Byte} (h : d.Carries a v) (draw : Nat)
    (hc : converged (d.answer draw a) v = true) : d.pend = .none ∧ d.answer draw a = v := by
  obtain ⟨hk, ⟨hp, hm⟩ | ⟨k, hp⟩⟩ := h
  · exact ⟨hp, by rw [answer_idle draw a (DeviceKind.ne_oracle hk) hp, hm]⟩
  · have hb := answer_busy_bit7 draw a (DeviceKind.ne_oracle hk) hp
    rw [Machine.converged, BitVec.getLsbD_xor, hb] at hc
    cases v.getLsbD 7 <;> simp at hc

end Sys2Proof.Machine
end

