-- ==== Sys2Proof/Laws/Encoding.lean ====
section
/-! SUPPORT. The fields of a word built from fields, and the word built from its fields (30_encoding.md R92, R93): decoder and
encoder meet in these and no later proof takes a word apart bit by bit. -/

namespace Sys2Proof

variable (op : BitVec 4) (cs : BitVec 1) (data : Byte) (addr : AddrOperand) (count : Count)

@[simp] theorem fieldOp_formatC : fieldOp (formatC op cs data addr) = op := by
  ext i hi
  simp only [fieldOp, formatC, BitVec.getElem_extractLsb', BitVec.getLsbD_append]
  rw [if_neg (by omega), if_neg (by omega), if_neg (by omega), if_neg (by omega)]
  rw [show 28 + i - 17 - 8 - 2 - 1 = i by omega]
  simp [hi]

@[simp] theorem fieldCs_formatC : fieldCs (formatC op cs data addr) = cs := by
  ext i hi
  simp only [fieldCs, formatC, BitVec.getElem_extractLsb', BitVec.getLsbD_append]
  rw [if_neg (by omega), if_neg (by omega), if_neg (by omega), if_pos (by omega)]
  rw [show 27 + i - 17 - 8 - 2 = i by omega]
  simp [hi]

@[simp] theorem fieldZ_formatC : fieldZ (formatC op cs data addr) = 0 := by
  ext i hi
  simp only [fieldZ, formatC, BitVec.getElem_extractLsb', BitVec.getLsbD_append]
  rw [if_neg (by omega), if_neg (by omega), if_pos (by omega)]
  simp

@[simp] theorem fieldData_formatC : fieldData (formatC op cs data addr) = data := by
  ext i hi
  simp only [fieldData, formatC, BitVec.getElem_extractLsb', BitVec.getLsbD_append]
  rw [if_neg (by omega), if_pos (by omega)]
  rw [show 17 + i - 17 = i by omega]
  simp [hi]

@[simp] theorem fieldAddr_formatC : fieldAddr (formatC op cs data addr) = addr := by
  ext i hi
  simp only [fieldAddr, formatC, BitVec.getElem_extractLsb', BitVec.getLsbD_append]
  rw [if_pos (by omega)]
  simp [hi]

@[simp] theorem fieldOp_formatB : fieldOp (formatB op count addr) = op := by
  ext i hi
  simp only [fieldOp, formatB, BitVec.getElem_extractLsb', BitVec.getLsbD_append]
  rw [if_neg (by omega), if_neg (by omega)]
  rw [show 28 + i - 17 - 11 = i by omega]
  simp [hi]

@[simp] theorem fieldCount_formatB : fieldCount (formatB op count addr) = count := by
  ext i hi
  simp only [fieldCount, formatB, BitVec.getElem_extractLsb', BitVec.getLsbD_append]
  rw [if_neg (by omega), if_pos (by omega)]
  rw [show 17 + i - 17 = i by omega]
  simp [hi]

@[simp] theorem fieldAddr_formatB : fieldAddr (formatB op count addr) = addr := by
  ext i hi
  simp only [fieldAddr, formatB, BitVec.getElem_extractLsb', BitVec.getLsbD_append]
  rw [if_pos (by omega)]
  simp [hi]

/-- A format C word under a mask put together from fields. -/
theorem formatC_masked (mop : BitVec 4) (mcs : BitVec 1) (mz : BitVec 2) (mdata : Byte) (maddr : AddrOperand) :
    formatC op cs data addr &&& (mop ++ mcs ++ mz ++ mdata ++ maddr) =
      (op &&& mop) ++ (cs &&& mcs) ++ (0#2 &&& mz) ++ (data &&& mdata) ++ (addr &&& maddr) := by
  unfold formatC
  rw [BitVec.and_append, BitVec.and_append, BitVec.and_append, BitVec.and_append]

/-- A format B word under a mask put together from fields. -/
theorem formatB_masked (mop : BitVec 4) (mcount : Count) (maddr : AddrOperand) :
    formatB op count addr &&& (mop ++ mcount ++ maddr) = (op &&& mop) ++ (count &&& mcount) ++ (addr &&& maddr) := by
  unfold formatB
  rw [BitVec.and_append, BitVec.and_append]

/-- Bit 31 is the top bit of the opcode (30_encoding.md R92). -/
theorem top_of_fieldOp (w : CmdWord) : w.extractLsb' 31 1 = (fieldOp w).extractLsb' 3 1 := by
  ext i hi
  simp only [fieldOp, BitVec.getElem_extractLsb', BitVec.getLsbD_extractLsb']
  rw [show 28 + (3 + i) = 31 + i by omega]
  simp; omega

/-- Decoding a word whose opcode is below 8. -/
theorem decodeWord_below {w : CmdWord} (h : (fieldOp w).extractLsb' 3 1 = 0) : decodeWord w =
    if fieldOp w = 0 then .ok (.illegalOp0 (w.extractLsb' 0 28))
    else if fieldOp w = 1 then decodeSetaddr w
    else if fieldOp w = 2 then decodeAddrData .writebyte w
    else if fieldOp w = 3 then decodeAddrData .fastwrite w
    else if fieldOp w = 4 then decodeReadbyte w
    else if fieldOp w = 5 then .ok (.readblock (fieldAddr w) (fieldCount w))
    else if fieldOp w = 6 then .ok (.writeblock (fieldAddr w) (fieldCount w))
    else decodeErase w := by
  unfold decodeWord; rw [top_of_fieldOp, h]; rfl

/-- A format C word with a zero field is its fields put together. -/
theorem formatC_fields {w : CmdWord} (h : fieldZ w = 0) :
    formatC (fieldOp w) (fieldCs w) (fieldData w) (fieldAddr w) = w := by
  have h' : (0#2) = fieldZ w := h.symm
  rw [formatC, h']
  unfold fieldOp fieldCs fieldZ fieldData fieldAddr
  ext i hi
  simp only [BitVec.getElem_append, BitVec.getElem_extractLsb']
  split_ifs <;> (rw [← BitVec.getLsbD_eq_getElem]; congr 1; omega)

/-- A format B word is its fields put together. -/
theorem formatB_fields (w : CmdWord) : formatB (fieldOp w) (fieldCount w) (fieldAddr w) = w := by
  unfold formatB fieldOp fieldCount fieldAddr
  ext i hi
  simp only [BitVec.getElem_append, BitVec.getElem_extractLsb']
  split_ifs <;> (rw [← BitVec.getLsbD_eq_getElem]; congr 1; omega)

@[simp] theorem bitOfSel_selOfBit (b : BitVec 1) : bitOfSel (selOfBit b) = b := by revert b; decide

@[simp] theorem selOfBit_bitOfSel (s : Sel) : selOfBit (bitOfSel s) = s := by cases s <;> decide

/-- The opcode is one of the seven, or the word is one of the two reserved rows' (30_encoding.md R94). -/
theorem fieldOp_cases (w : CmdWord) : fieldOp w = 0 ∨ fieldOp w = 1 ∨ fieldOp w = 2 ∨ fieldOp w = 3 ∨ fieldOp w = 4 ∨
    fieldOp w = 5 ∨ fieldOp w = 6 ∨ fieldOp w = 7 ∨ w.extractLsb' 31 1 = 1 := by
  rw [top_of_fieldOp]; generalize fieldOp w = o; revert o; decide

/-! ## Text lines (30_encoding.md R108) -/

theorem startsRecord_digit (c1 : Byte) (rest : List Byte) :
    startsRecord (0x53 :: c1 :: rest) =
      decide (c1 ∈ ([0x30, 0x31, 0x32, 0x33, 0x34, 0x35, 0x36, 0x37, 0x38, 0x39] : List Byte)) := by
  simp only [startsRecord]; revert c1; decide

/-- A line of no `S` row is the last row's. -/
theorem decodeLine_other {l : List Byte} (h : startsRecord l = false) : decodeLine l = .parseOther l := by
  match l, h with
  | [], _ => rfl
  | [_], _ => rfl
  | c0 :: c1 :: rest, h =>
    by_cases h0 : c0 = 0x53
    · subst h0
      rw [startsRecord_digit, decide_eq_false_iff_not] at h
      simp only [List.mem_cons, List.not_mem_nil, or_false, not_or] at h
      obtain ⟨e0, e1, e2, e3, e4, e5, e6, e7, e8, e9⟩ := h
      unfold decodeLine
      dsimp only
      rw [if_neg (not_not_intro rfl), if_neg e0, if_neg e1, if_neg e2, if_neg e3, if_neg e4, if_neg e5, if_neg e6, if_neg e7,
        if_neg e8, if_neg e9]
    · unfold decodeLine; dsimp only; rw [if_pos h0]

/-- A line is one of the ten `S` rows or no row but the last. -/
theorem line_cases (l : List Byte) :
    (∃ d rest, d ∈ ([0x30, 0x31, 0x32, 0x33, 0x34, 0x35, 0x36, 0x37, 0x38, 0x39] : List Byte) ∧ l = 0x53 :: d :: rest) ∨
      startsRecord l = false := by
  match l with
  | [] => exact .inr rfl
  | [_] => exact .inr rfl
  | c0 :: c1 :: rest =>
    by_cases h0 : c0 = 0x53
    · subst h0
      rw [startsRecord_digit]
      by_cases h : c1 ∈ ([0x30, 0x31, 0x32, 0x33, 0x34, 0x35, 0x36, 0x37, 0x38, 0x39] : List Byte)
      · exact .inl ⟨c1, rest, h, rfl⟩
      · exact .inr (decide_eq_false h)
    · exact .inr (by simp only [startsRecord, beq_false_of_ne h0, Bool.false_and])

end Sys2Proof
end

