-- ==== Sys2Proof/Laws/HostProcedures.lean ====
section
/-! SUPPORT. What writing a record's payload does, byte by byte (45_host_procedures.md R194). -/

namespace Sys2Proof.Machine

/-- A payload written whole counts all of its bytes (45_host_procedures.md R194). -/
theorem writePayload_written : ∀ (p : List Byte) (a c : Nat) (s t : State) (n : Nat),
    writePayload a p c s = .next (.written n t) → n = c + p.length := by
  intro p
  induction p with
  | nil => intro a c s t n h; cases h; rfl
  | cons v vs ih =>
    intro a c s t n h
    rw [writePayload] at h
    cases hx : exec (.writebyte (BitVec.ofNat 17 a) v) s with
    | next u =>
      rw [hx, afterOp] at h
      split at h
      · have := ih _ _ _ _ _ h; simp; omega
      · cases h
    | fault f => rw [hx] at h; cases h
    | refused f => rw [hx] at h; cases h

/-- A payload goes on where its first part, written whole, ended (45_host_procedures.md R194). -/
theorem writePayload_append : ∀ (p q : List Byte) (a c : Nat) (s t : State) (n : Nat),
    writePayload a p c s = .next (.written n t) → writePayload a (p ++ q) c s = writePayload (a + p.length) q n t := by
  intro p
  induction p with
  | nil => intro q a c s t n h; cases h; rfl
  | cons v vs ih =>
    intro q a c s t n h
    rw [writePayload] at h
    rw [List.cons_append, writePayload]
    cases hx : exec (.writebyte (BitVec.ofNat 17 a) v) s with
    | next u =>
      rw [hx, afterOp] at h
      rw [afterOp]
      split at h
      · rename_i h0
        rw [if_pos h0, ih q _ _ _ _ _ h]; simp; congr 1; omega
      · cases h
    | fault f => rw [hx] at h; cases h
    | refused f => rw [hx] at h; cases h

end Sys2Proof.Machine
end

