-- ==== Sys2Proof/Laws/Operations.lean ====
section
/-! SUPPORT. Each loop as a whole, from a ready port: how the poll, the block loops and the sweep end, and what they leave. -/

namespace Sys2Proof.Machine

/-! ## The poll -/

theorem converged_eq (r v : Byte) : converged r v = !(r ^^^ v).getLsbD 7 := by
  unfold converged; cases (r ^^^ v).getLsbD 7 <;> rfl

/-- A first read-back that agrees in bit 7 is the only one (41_byte_engine.md R132, R136). -/
theorem pollEnds_converged {r v : Byte} (n : Nat) (h : converged r v = true) :
    pollEnds (n + 1) v (if r = v then .ok else .verifyMismatch) [r] := by
  have h7 : (r ^^^ v).getLsbD 7 = false := by simpa [converged_eq] using h
  exact ⟨[], r, rfl, by simp, by simp, fun _ => rfl, fun e => absurd (h7.symm.trans e) (by decide)⟩

/-- The last permitted read-back, when it differs in bit 7 (41_byte_engine.md R131). -/
theorem pollEnds_timedOut {r v : Byte} (h : converged r v = false) : pollEnds 1 v .timedOut [r] := by
  have h7 : (r ^^^ v).getLsbD 7 = true := by simpa [converged_eq] using h
  exact ⟨[], r, rfl, by simp, by simp, fun e => absurd (h7.symm.trans e) (by decide), fun _ => ⟨rfl, rfl⟩⟩

/-- A read-back that differs in bit 7 before the others (41_byte_engine.md R130 step 5). -/
theorem pollEnds.cons {n : Nat} {x v : Byte} {o : OutcomeCode} {reads : List Byte} (h : pollEnds n v o reads)
    (hx : converged x v = false) : pollEnds (n + 1) v o (x :: reads) := by
  obtain ⟨rs, r, rfl, h1, h2, h3, h4⟩ := h
  have h7 : (x ^^^ v).getLsbD 7 = true := by simpa [converged_eq] using hx
  exact ⟨x :: rs, r, rfl, Nat.succ_le_succ h1, List.forall_mem_cons.mpr ⟨h7, h2⟩, h3, fun e => ⟨congrArg (· + 1) (h4 e).1, (h4 e).2⟩⟩

/-- The outcomes of WRITEBYTE on an address in range (41_byte_engine.md R136). -/
theorem pollEnds.outcome {n : Nat} {v : Byte} {o : OutcomeCode} {reads : List Byte} (h : pollEnds n v o reads) :
    o = .ok ∨ o = .timedOut ∨ o = .verifyMismatch := by
  obtain ⟨rs, r, -, -, -, h3, h4⟩ := h
  cases h7 : (r ^^^ v).getLsbD 7 with
  | true => simp [(h4 h7).2]
  | false => rw [h3 h7]; split <;> simp

/-- The poll with `n + 1` read-backs permitted (41_byte_engine.md R130 to R132, R136). -/
theorem pollLoop_spec (a : DevAddr) (v : Byte) (head : StepIndex) (n : Nat) : ∀ {s : State}, Ready s →
    ∃ (reads : List Byte) (o : OutcomeCode) (t : State), pollLoop a v head (n + 1) s = .ok (o, t) ∧
      pollEnds (n + 1) v o reads ∧ t.trace = (reads.flatMap (readTrace s.cfg a)).reverse ++ s.trace ∧
      t.port = s.port.latched s.cfg a .desel := by
  induction n with
  | zero =>
    intro s h
    rw [pollLoop_succ h]
    by_cases hc : converged (s.readBack a) v = true
    · rw [if_pos hc]
      exact ⟨[s.readBack a], _, _, rfl, pollEnds_converged 0 hc, by simp, rfl⟩
    · rw [if_neg hc]
      exact ⟨[s.readBack a], _, _, rfl, pollEnds_timedOut (by simpa using hc), by simp, rfl⟩
  | succ n ih =>
    intro s h
    rw [pollLoop_succ h]
    by_cases hc : converged (s.readBack a) v = true
    · rw [if_pos hc]
      exact ⟨[s.readBack a], _, _, rfl, pollEnds_converged _ hc, by simp, rfl⟩
    · rw [if_neg hc]
      obtain ⟨reads, o, t, h1, h2, h3, h4⟩ := ih (h.afterPoll a head)
      exact ⟨s.readBack a :: reads, o, t, h1, h2.cons (by simpa using hc), by rw [h3]; simp, by rw [h4]; rfl⟩

/-- WRITEBYTE on an address in range always ends, with its exact events and the port of a deselecting SETADDR
(41_byte_engine.md R130, R140). -/
theorem writeByte_spec {s : State} (h : Ready s) (a : DevAddr) (v : Byte) :
    ∃ (reads : List Byte) (o : OutcomeCode) (t : State), writeByte a v s = .ok (o, t) ∧
      pollEnds s.cfg.pollLimit v o reads ∧
      t.trace = (writeTrace s.cfg a v ++ reads.flatMap (readTrace s.cfg a)).reverse ++ s.trace ∧
      t.port = s.port.latched s.cfg a .desel := by
  rw [writeByte_eq h]
  have hc := h.cfg
  simp only [Config.wf, Bool.and_eq_true, decide_eq_true_eq] at hc
  obtain ⟨n, hn⟩ : ∃ n, s.cfg.pollLimit = n + 1 := ⟨s.cfg.pollLimit - 1, by omega⟩
  rw [hn]
  obtain ⟨reads, o, t, h1, h2, h3, h4⟩ := pollLoop_spec a v (s.work.stepR.advance 21) n (h.beforePoll a v)
  exact ⟨reads, o, t, h1, h2, by rw [h3]; simp [State.beforePoll], by rw [h4]; rfl⟩

theorem Ready.writeByte {s t : State} (h : Ready s) {a : DevAddr} {v : Byte} {o : OutcomeCode}
    (hw : Machine.writeByte a v s = .ok (o, t)) : Ready t := by
  obtain ⟨-, o', t', h1, -, -, h2⟩ := writeByte_spec h a v
  rw [h1] at hw; cases hw
  exact h.latched (writeByte_frame h1).cfg h2

/-- Under the contract the poll ends in `Ok`, with the write arrived, or in `TimedOut` (41_byte_engine.md R136, 20_memory.md
R73). -/
theorem pollLoop_contract (a : DevAddr) (v : Byte) (head : StepIndex) (n : Nat) : ∀ {s : State}, Ready s →
    s.dev.Carries a v → ∃ o t, pollLoop a v head n s = .ok (o, t) ∧ t.dev.Carries a v ∧
      (o = .timedOut ∨ (o = .ok ∧ t.dev.pend = .none)) := by
  induction n with
  | zero => intro s _ hd; exact ⟨_, _, rfl, hd, .inl rfl⟩
  | succ n ih =>
    intro s h hd
    rw [pollLoop_succ h]
    by_cases hc : converged (s.readBack a) v = true
    · rw [if_pos hc]
      obtain ⟨hp, hr⟩ := (hd.waited s.cfg.tDevWc s.cfg.tOeSettle).converged s.draws hc
      refine ⟨_, _, rfl, carries_afterPoll hd a head, .inr ⟨if_pos hr, ?_⟩⟩
      change (s.dev.waited s.cfg.tDevWc s.cfg.tOeSettle).consumed.pend = .none
      simp [Device.consumed, hp]
    · rw [if_neg hc]
      exact ih (h.afterPoll a head) (carries_afterPoll hd a head)

/-- The poll keeps every byte that no write is on its way to. -/
theorem keepsByte_pollLoop {a b : DevAddr} {v : Byte} {head : StepIndex} (n : Nat) : ∀ {s : State}
    {r : OutcomeCode × State}, Ready s → s.dev.landsAt b = false → pollLoop a v head n s = .ok r →
      s.dev.KeepsByte b r.2.dev := by
  induction n with
  | zero => intro s r _ hb hr; cases hr; exact .refl hb
  | succ n ih =>
    intro s r h hb hr
    have hk : s.dev.KeepsByte b (s.afterPoll a head).dev := keepsByte_afterRead (s := returnTo head s) a hb
    rw [pollLoop_succ h] at hr
    split at hr
    · cases hr; exact hk
    · exact hk.trans (ih (h.afterPoll a head) hk.1 hr)

/-- WRITEBYTE keeps every byte but its own that no earlier write is on its way to. -/
theorem keepsByte_writeByte {s : State} (h : Ready s) {a b : DevAddr} {v : Byte} (hab : a ≠ b)
    (hb : s.dev.landsAt b = false) {r : OutcomeCode × State} (hr : writeByte a v s = .ok r) :
    s.dev.KeepsByte b r.2.dev := by
  rw [writeByte_eq h] at hr
  have hk := keepsByte_beforePoll (s := s) v hab hb
  exact hk.trans (keepsByte_pollLoop _ (h.beforePoll a v) hk.1 hr)

theorem deviceAddress_some {n : Nat} (h : n < deviceSize) : deviceAddress n = some (BitVec.ofNat 15 n) := if_pos h

theorem deviceAddress_none {n : Nat} (h : deviceSize ≤ n) : deviceAddress n = none := if_neg (Nat.not_lt.mpr h)

/-- READBLOCK's loop at index `i` with `n` to go moves what is left of the clipped block (42_block_transfer.md R150, R152). -/
theorem readLoop_spec (addr : Nat) (head : StepIndex) (n : Nat) : ∀ {i : Nat} {s : State}, Ready s →
    let m := min n (deviceSize - (addr + i))
    ∃ t, readLoop addr head n i s = .ok (i + m, t) ∧ Ready t ∧
      (∀ j, i ≤ j → j < i + m → (Buffer.get t.buf j).isSome = true) ∧
      (∀ j, (j < i ∨ i + m ≤ j) → Buffer.get t.buf j = Buffer.get s.buf j) ∧
      t.trace = ((List.range' i m).flatMap (fun j =>
        readTrace s.cfg (BitVec.ofNat 15 (addr + j)) ((Buffer.get t.buf j).getD 0))).reverse ++ s.trace ∧
      (m = 0 → t = s) ∧
      (0 < m → t.port = s.port.latched s.cfg (BitVec.ofNat 15 (addr + (i + m - 1))) .desel) := by
  induction n with
  | zero =>
    intro i s h
    exact ⟨s, by simp [readLoop], h, by intro j h1 h2; simp at h2; omega, by simp, by simp, by simp, by simp⟩
  | succ n ih =>
    intro i s h
    by_cases hr : addr + i < deviceSize
    · have hm : min (n + 1) (deviceSize - (addr + i)) = min n (deviceSize - (addr + (i + 1))) + 1 := by omega
      rw [readLoop_succ h (deviceAddress_some hr)]
      simp only [hm]
      obtain ⟨t, h1, h2, h3, h4, h5, h6, h7⟩ := ih (i := i + 1) (h.afterBlockRead (BitVec.ofNat 15 (addr + i)) head i)
      generalize min n (deviceSize - (addr + (i + 1))) = m at *
      have hi : Buffer.get t.buf i = some (s.readBack (BitVec.ofNat 15 (addr + i))) := by
        rw [h4 i (.inl (Nat.lt_succ_self i))]; exact Buffer.get_set_same _ _ _
      refine ⟨t, by rw [h1]; congr 2; omega, h2, ?_, ?_, ?_, by simp, ?_⟩
      · intro j hj hj'
        by_cases he : j = i
        · subst he; simp [hi]
        · exact h3 j (by omega) (by omega)
      · intro j hj
        rw [h4 j (by omega)]; exact Buffer.get_set_other _ _ (by omega)
      · rw [h5, List.range'_succ, List.flatMap_cons, hi]
        simp [State.afterBlockRead, State.afterRead, State.readBack, State.heldDevice, returnTo]
      · intro _
        cases m with
        | zero => rw [h6 rfl]; simp [State.afterBlockRead, State.afterRead, returnTo]
        | succ m =>
          rw [h7 (Nat.succ_pos m)]
          rw [show i + 1 + (m + 1) - 1 = i + (m + 1 + 1) - 1 by omega]; rfl
    · have hm : min (n + 1) (deviceSize - (addr + i)) = 0 := by omega
      rw [readLoop_clip (deviceAddress_none (by omega))]
      simp only [hm]
      exact ⟨s, rfl, h, by intro j h1 h2; omega, by simp, by simp, by simp, by simp⟩

/-- READBLOCK's loop keeps every byte that no write is on its way to. -/
theorem keepsByte_readLoop {addr : Nat} {b : DevAddr} {head : StepIndex} (n : Nat) : ∀ {i : Nat} {s : State}
    {r : Nat × State}, Ready s → s.dev.landsAt b = false → readLoop addr head n i s = .ok r →
      s.dev.KeepsByte b r.2.dev := by
  induction n with
  | zero => intro i s r _ hb hr; cases hr; exact .refl hb
  | succ n ih =>
    intro i s r h hb hr
    by_cases ha : addr + i < deviceSize
    · have hk : s.dev.KeepsByte b (s.afterBlockRead (BitVec.ofNat 15 (addr + i)) head i).dev :=
        keepsByte_afterRead (s := returnTo head s) (BitVec.ofNat 15 (addr + i)) hb
      rw [readLoop_succ h (deviceAddress_some ha)] at hr
      exact hk.trans (ih (h.afterBlockRead (BitVec.ofNat 15 (addr + i)) head i) hk.1 hr)
    · rw [readLoop_clip (deviceAddress_none (by omega))] at hr
      cases hr; exact .refl hb

/-- A read of an idle device changes nothing of it (20_memory.md R72, R74). -/
theorem heldDevice_idle {s : State} (hp : s.dev.pend = .none) : s.heldDevice = s.dev := by
  simp [State.heldDevice, Device.waited, hp]

theorem afterRead_idle {s : State} (a : DevAddr) (hp : s.dev.pend = .none) : (s.afterRead a).dev = s.dev := by
  simp [State.afterRead, heldDevice_idle hp, Device.consumed, hp]

theorem readBack_idle {s : State} (a : DevAddr) (hp : s.dev.pend = .none) (hk : s.dev.kind ≠ .oracle) :
    s.readBack a = Memory.read s.dev.mem a := by
  rw [State.readBack, heldDevice_idle hp, Device.answer_idle _ _ hk hp]

/-- READBLOCK's loop on an idle device copies MEM and changes nothing of the device (42_block_transfer.md R150). -/
theorem readLoop_idle (addr : Nat) (head : StepIndex) (n : Nat) : ∀ {i : Nat} {s : State} {r : Nat × State}, Ready s →
    s.dev.pend = .none → s.dev.kind ≠ .oracle → readLoop addr head n i s = .ok r →
      r.2.dev = s.dev ∧ ∀ j, i ≤ j → j < r.1 → Buffer.get r.2.buf j = some (Memory.read s.dev.mem (BitVec.ofNat 15 (addr + j))) := by
  induction n with
  | zero => intro i s r _ _ _ hr; cases hr; exact ⟨rfl, by intro j h1 h2; simp at h2; omega⟩
  | succ n ih =>
    intro i s r h hp hk hr
    by_cases ha : addr + i < deviceSize
    · rw [readLoop_succ h (deviceAddress_some ha)] at hr
      have hd : (s.afterBlockRead (BitVec.ofNat 15 (addr + i)) head i).dev = s.dev :=
        afterRead_idle (s := returnTo head s) (BitVec.ofNat 15 (addr + i)) hp
      have hready := h.afterBlockRead (BitVec.ofNat 15 (addr + i)) head i
      obtain ⟨h1, h2⟩ := ih hready (by rw [hd]; exact hp) (by rw [hd]; exact hk) hr
      refine ⟨h1.trans hd, ?_⟩
      intro j hj hj'
      by_cases he : j = i
      · subst he
        obtain ⟨t, k1, -, -, k4, -⟩ := readLoop_spec addr head n (i := j + 1) hready
        rw [k1] at hr; cases hr
        rw [k4 j (.inl (Nat.lt_succ_self j))]
        refine (Buffer.get_set_same _ _ _).trans ?_
        exact congrArg some (readBack_idle (BitVec.ofNat 15 (addr + j)) hp hk)
      · rw [h2 j (by omega) hj', hd]
    · rw [readLoop_clip (deviceAddress_none (by omega))] at hr
      cases hr; exact ⟨rfl, by intro j h1 h2; simp at h2; omega⟩

/-! ## WRITEBLOCK's loop -/

/-- The index at which WRITEBLOCK's loop ends is within the clipped block, and is its end when the code is `Ok`; `reads j` are the
read-backs of the byte at index `j` (42_block_transfer.md R151, R152). -/
theorem writeLoop_spec (addr : Nat) (head : StepIndex) (n : Nat) : ∀ {i : Nat} {s : State}, Ready s →
    let m := min n (deviceSize - (addr + i))
    (∀ j, i ≤ j → j < i + m → (Buffer.get s.buf j).isSome = true) →
    let a (j : Nat) : DevAddr := BitVec.ofNat 15 (addr + j)
    let v (j : Nat) : Byte := (Buffer.get s.buf j).getD 0
    ∃ o k t, ∃ reads : Nat → List Byte, writeLoop addr head n i s = .ok (o, k, t) ∧ i ≤ k ∧ k ≤ i + m ∧ (o = .ok → k = i + m) ∧
      (o ≠ .ok → k < i + m ∧ (o = .timedOut ∨ o = .verifyMismatch) ∧ pollEnds s.cfg.pollLimit (v k) o (reads k)) ∧
      (∀ j, i ≤ j → j < k → pollEnds s.cfg.pollLimit (v j) .ok (reads j)) ∧
      t.trace = ((List.range' i (if o = .ok then m else k + 1 - i)).flatMap (fun j =>
        writeTrace s.cfg (a j) (v j) ++ (reads j).flatMap (readTrace s.cfg (a j)))).reverse ++ s.trace ∧
      (m = 0 → t = s) ∧
      (0 < m → t.port = s.port.latched s.cfg (BitVec.ofNat 15 (addr + min k (i + m - 1))) .desel) ∧
      ∀ b, (∀ j, i ≤ j → j < i + m → b ≠ BitVec.ofNat 15 (addr + j)) → s.dev.landsAt b = false →
        s.dev.KeepsByte b t.dev := by
  induction n with
  | zero =>
    intro i s h m _
    exact ⟨.ok, i, s, fun _ => [], rfl, Nat.le_refl _, by omega, by simp [m], by simp, by omega, by simp [m], by simp, by simp [m],
      fun b _ hb => .refl hb⟩
  | succ n ih =>
    intro i s h
    by_cases hr : addr + i < deviceSize
    · have hm : min (n + 1) (deviceSize - (addr + i)) = min n (deviceSize - (addr + (i + 1))) + 1 := by omega
      simp only [hm]
      intro hbuf
      generalize hM : min n (deviceSize - (addr + (i + 1))) = m at *
      obtain ⟨v, hv⟩ := Option.isSome_iff_exists.mp (hbuf i (Nat.le_refl _) (by omega))
      conv => enter [1, o, 1, k, 1, t, 1, reads, 1]; rw [writeLoop]
      rw [deviceAddress_some hr]
      simp only [hv]
      obtain ⟨rd, o, t, h1, he, ht, h2⟩ := writeByte_spec (h.returnTo head) (BitVec.ofNat 15 (addr + i)) v
      have h3 := he.outcome
      have hready := (h.returnTo head).writeByte h1
      have hf := writeByte_frame h1
      rw [h1]
      simp only [ok_bind]
      by_cases ho : o = .ok
      · simp only [ho, if_true]
        have hbuf' : ∀ j, i + 1 ≤ j → j < i + 1 + m → (Buffer.get t.buf j).isSome = true := by
          intro j h4 h5; rw [hf.buf]; exact hbuf j (by omega) (by omega)
        have hready' : Ready { t with work.idxR := BitVec.ofNat 11 (i + 1) } := hready.congr rfl rfl
        have := ih hready' (i := i + 1)
        rw [hM] at this
        obtain ⟨o', k, u, reads, g1, g2, g3, g4, g5, g9, g10, g6, g7, g8⟩ := this hbuf'
        have hfb : t.buf = s.buf := hf.buf
        have hfc : t.cfg = s.cfg := hf.cfg
        simp only [hfb, hfc] at g5 g9 g10
        refine ⟨o', k, u, fun j => if j = i then rd else reads j, g1, by omega, by omega, fun e => by rw [g4 e]; omega,
          fun e => ⟨by have := (g5 e).1; omega, (g5 e).2.1, by dsimp only; rw [if_neg (by omega)]; exact (g5 e).2.2⟩, ?_, ?_, by simp, ?_, ?_⟩
        · intro j hj hj'
          by_cases hji : j = i
          · subst hji; dsimp only; rw [if_pos rfl, hv]; exact ho ▸ he
          · dsimp only; rw [if_neg hji]; exact g9 j (by omega) hj'
        · rw [g10, ht]
          have hlen : (if o' = .ok then m + 1 else k + 1 - i) = (if o' = .ok then m else k + 1 - (i + 1)) + 1 := by
            split <;> omega
          rw [hlen, List.range'_succ, List.flatMap_cons]
          simp only [if_true, hv, Option.getD_some, List.reverse_append, List.append_assoc, returnTo]
          congr 2
          refine List.flatMap_congr fun j hj => ?_
          rw [if_neg (by have := (List.mem_range'_1.mp hj).1; omega)]
        · intro _
          cases m with
          | zero => rw [g6 rfl]; simp only [h2]; rw [show min k (i + (0 + 1) - 1) = i by omega]; rfl
          | succ m =>
            rw [g7 (Nat.succ_pos _)]; simp only [h2]
            rw [show min k (i + 1 + (m + 1) - 1) = min k (i + (m + 1 + 1) - 1) by omega]
            rw [show t.cfg = s.cfg from hf.cfg]; rfl
        · intro b hb hp
          have hk := keepsByte_writeByte (h.returnTo head) (fun e => hb i (Nat.le_refl _) (by omega) e.symm) hp h1
          exact hk.trans (g8 b (fun j h4 h5 => hb j (by omega) (by omega)) hk.1)
      · simp only [ho, if_false]
        refine ⟨o, i, t, fun _ => rd, rfl, Nat.le_refl _, by omega, fun e => absurd e ho,
          fun _ => ⟨by omega, ?_, by rw [hv]; exact he⟩, by omega, ?_, by simp, ?_, ?_⟩
        · rcases h3 with e | e | e
          · exact absurd e ho
          · exact .inl e
          · exact .inr e
        · rw [ht, if_neg ho]; simp [hv, returnTo, List.range'_succ]
        · intro _; rw [h2, show min i (i + (m + 1) - 1) = i by omega]; rfl
        · intro b hb hp
          exact keepsByte_writeByte (h.returnTo head) (fun e => hb i (Nat.le_refl _) (by omega) e.symm) hp h1
    · have hm : min (n + 1) (deviceSize - (addr + i)) = 0 := by omega
      simp only [hm]
      intro _
      rw [writeLoop_clip (deviceAddress_none (by omega))]
      exact ⟨.ok, i, s, fun _ => [], rfl, Nat.le_refl _, by omega, by simp, by simp, by omega, by simp, by simp, by simp,
        fun b _ hb => .refl hb⟩

/-- The poll on an idle device: it answers the byte it holds, every time (41_byte_engine.md R130, 20_memory.md R72). -/
theorem pollLoop_idle (a : DevAddr) (v : Byte) (head : StepIndex) (n : Nat) : ∀ {s : State}, Ready s → s.dev.pend = .none →
    s.dev.kind ≠ .oracle → ∃ (o : OutcomeCode) (t : State) (rs : List Byte), pollLoop a v head (n + 1) s = .ok (o, t) ∧
      t.dev = s.dev ∧ t.trace = (rs.flatMap (readTrace s.cfg a)).reverse ++ s.trace ∧
      (converged (Memory.read s.dev.mem a) v = true →
        (o = if Memory.read s.dev.mem a = v then .ok else .verifyMismatch) ∧ rs.length = 1) ∧
      (converged (Memory.read s.dev.mem a) v = false → o = .timedOut ∧ rs.length = n + 1) := by
  induction n with
  | zero =>
    intro s hR hp hk
    rw [pollLoop_succ hR, readBack_idle a hp hk]
    have hd : (s.afterPoll a head).dev = s.dev := afterRead_idle (s := returnTo head s) a hp
    have ht : (s.afterPoll a head).trace = ([s.readBack a].flatMap (readTrace s.cfg a)).reverse ++ s.trace := by
      simp [State.afterPoll, State.afterRead, returnTo, State.readBack, State.heldDevice]
    by_cases hc : converged (Memory.read s.dev.mem a) v = true
    · rw [if_pos hc]; exact ⟨_, _, _, rfl, hd, ht, fun _ => ⟨rfl, rfl⟩, by simp [hc]⟩
    · rw [if_neg hc]; exact ⟨_, _, _, rfl, hd, ht, fun h => absurd h hc, fun _ => ⟨rfl, rfl⟩⟩
  | succ n ih =>
    intro s hR hp hk
    rw [pollLoop_succ hR, readBack_idle a hp hk]
    have hd : (s.afterPoll a head).dev = s.dev := afterRead_idle (s := returnTo head s) a hp
    have ht : (s.afterPoll a head).trace = ([s.readBack a].flatMap (readTrace s.cfg a)).reverse ++ s.trace := by
      simp [State.afterPoll, State.afterRead, returnTo, State.readBack, State.heldDevice]
    by_cases hc : converged (Memory.read s.dev.mem a) v = true
    · rw [if_pos hc]; exact ⟨_, _, _, rfl, hd, ht, fun _ => ⟨rfl, rfl⟩, by simp [hc]⟩
    · rw [if_neg hc]
      obtain ⟨o, t, rs, h1, h2, h3, h4, h5⟩ := ih (hR.afterPoll a head) (by rw [hd]; exact hp) (by rw [hd]; exact hk)
      rw [hd] at h2 h4 h5
      refine ⟨o, t, s.readBack a :: rs, h1, h2, ?_, fun h => absurd h hc, fun h => ⟨(h5 h).1, by simp [(h5 h).2]⟩⟩
      rw [h3, ht]; simp

/-! ## ERASE's sweep -/

/-- The events of one turn, oldest first (43_erase_engine.md R160, R161, R163). -/
def eraseTurnTrace (c : Config) (a : Nat) : List Event :=
  fastWriteTrace c (BitVec.ofNat 15 a) blank ++
    (if (a + 1) % eraseBatch = 0 then [.delay c.tErasePause] else []) ++
    (if (a + 1) % progressInterval = 0 then [.progress (a + 1)] else [])

theorem erasePacing_trace (a : Nat) (s : State) : (erasePacing a s).trace =
    ((if (a + 1) % eraseBatch = 0 then [Event.delay s.cfg.tErasePause] else []) ++
      (if (a + 1) % progressInterval = 0 then [Event.progress (a + 1)] else [])).reverse ++ s.trace := by
  unfold erasePacing
  split <;> split <;> simp [delay, progress, emit]

theorem erasePacing_dev (a : Nat) (s : State) : (erasePacing a s).dev =
    if (a + 1) % eraseBatch = 0 then s.dev.waited s.cfg.tDevWc s.cfg.tErasePause else s.dev := by
  unfold erasePacing
  split <;> split <;> rfl

/-- The sweep always ends, with its exact events (43_erase_engine.md R160). -/
theorem eraseSweep_spec (head : StepIndex) (n : Nat) : ∀ {a : Nat} {s : State}, Ready s →
    ∃ t, eraseSweep head n a s = .ok t ∧ Ready t ∧ t.draws = s.draws + n ∧
      t.trace = ((List.range' a n).flatMap (eraseTurnTrace s.cfg)).reverse ++ s.trace ∧
      ∀ c b cs, c = s.cfg → t.port.latched c b cs = s.port.latched c b cs := by
  induction n with
  | zero => intro a s h; exact ⟨s, rfl, h, rfl, by simp, fun _ _ _ _ => rfl⟩
  | succ n ih =>
    intro a s h
    rw [eraseSweep_succ h]
    obtain ⟨t, h1, h2, h3, h4, h5⟩ := ih (a := a + 1) (h.afterEraseTurn head a)
    have hcfg : (s.afterEraseTurn head a).cfg = s.cfg := by simp [State.afterEraseTurn, State.afterFastWrite]
    refine ⟨t, h1, h2, ?_, ?_, ?_⟩
    · rw [h3]; simp [State.afterEraseTurn, State.afterFastWrite, returnTo]; omega
    · rw [h4, List.range'_succ, List.flatMap_cons, hcfg]
      simp [State.afterEraseTurn, erasePacing_trace, eraseTurnTrace, State.afterFastWrite, returnTo]
    · intro c b cs hc
      rw [h5 c b cs (by rw [hcfg, hc])]
      simp [State.afterEraseTurn, State.afterFastWrite, returnTo, hc]

/-- Every byte below `n` is blank once the write on its way has arrived, and that one will arrive (20_memory.md R73, R74). -/
structure Device.BlankBelow (n : Nat) (d : Device) : Prop where
  contract : d.kind.keepsContract = true
  arrives : ∀ a v, d.pend ≠ .busy a v .infinite
  blank : ∀ b : DevAddr, b.toNat < n → Memory.read d.overtaken.mem b = blank

theorem Device.waited_eq {d : Device} (wc t : Nat) (h : ∀ a v, d.pend ≠ .busy a v .infinite) :
    d.waited wc t = if wc ≤ t then d.overtaken else d := by
  unfold Device.waited Device.overtaken
  split
  · rename_i hp; simp only [hp]
  · rename_i hp; simp only [hp, ite_self]
  · rename_i a v hp; exact absurd hp (h a v)

theorem Device.overtaken_overtaken (d : Device) : d.overtaken.overtaken = d.overtaken := by
  have h := overtaken_pend d
  generalize d.overtaken = e at h ⊢
  unfold Device.overtaken
  rw [h]

theorem Device.BlankBelow.overtaken {n : Nat} {d : Device} (h : d.BlankBelow n) : d.overtaken.BlankBelow n :=
  ⟨by simpa using h.contract, by simp, by rw [overtaken_overtaken]; exact h.blank⟩

theorem Device.BlankBelow.waited {n : Nat} {d : Device} (h : d.BlankBelow n) (wc t : Nat) : (d.waited wc t).BlankBelow n := by
  rw [waited_eq wc t h.arrives]; split
  · exact h.overtaken
  · exact h

/-- Nothing is asked of the bytes below 0, whatever write is pending (20_memory.md R73). -/
theorem Device.blankBelow_zero {d : Device} (h : d.kind.keepsContract = true) : d.overtaken.BlankBelow 0 :=
  ⟨by simpa using h, by simp, by intro b hb; omega⟩

/-- Accepting a blank byte at address `n` (20_memory.md R73). -/
theorem Device.BlankBelow.accept {n : Nat} {d : Device} (h : d.overtaken.BlankBelow n) {k : Budget}
    (hk : k ≠ .infinite) : (d.overtaken.accept (BitVec.ofNat 15 n) Sys2Proof.blank k).BlankBelow (n + 1) := by
  have hc : d.overtaken.kind.keepsContract = true := by simpa using h.contract
  have hput : ∀ b : DevAddr, b.toNat < n + 1 →
      Memory.read (d.overtaken.complete (BitVec.ofNat 15 n) Sys2Proof.blank).mem b = Sys2Proof.blank := by
    intro b hb
    rw [complete_mem, DeviceKind.stored_of_keepsContract hc]
    by_cases he : b = BitVec.ofNat 15 n
    · rw [he, Memory.read_write_same]
    · rw [Memory.read_write_other _ _ he]
      refine (congrArg (fun e => Memory.read e.mem b) (overtaken_overtaken d)).symm.trans (h.blank b ?_)
      have : b.toNat ≠ n := fun e => he (BitVec.eq_of_toNat_eq (by simp [← e]))
      omega
  cases k with
  | infinite => exact absurd rfl hk
  | finite k =>
    cases k with
    | zero => exact ⟨hc, by simp [Device.accept], hput⟩
    | succ k => exact ⟨hc, by simp [Device.accept], hput⟩

/-- Which budgets a device draws that always completes. -/
theorem DeviceKind.budget_ne_infinite {k : DeviceKind} {n m : Nat} (h : k.alwaysCompletes n) (hm : n ≤ m) :
    k.budget m ≠ .infinite := by
  cases k <;> simp_all [DeviceKind.alwaysCompletes, DeviceKind.budget]

theorem DeviceKind.alwaysCompletes.mono {k : DeviceKind} {n m : Nat} (h : k.alwaysCompletes n) (hm : n ≤ m) :
    k.alwaysCompletes m := by
  cases k <;> first | trivial | exact h | exact fun j hj => h j (Nat.le_trans hm hj)

/-- The device after one turn of the sweep (43_erase_engine.md R160, R161). -/
theorem eraseTurn_dev (head : StepIndex) (a : Nat) (s : State) : (s.afterEraseTurn head a).dev =
    if (a + 1) % eraseBatch = 0 then
      (s.dev.overtaken.accept (BitVec.ofNat 15 a) blank (s.dev.kind.budget s.draws)).waited s.cfg.tDevWc s.cfg.tErasePause
    else s.dev.overtaken.accept (BitVec.ofNat 15 a) blank (s.dev.kind.budget s.draws) := by
  simp only [State.afterEraseTurn, erasePacing_dev]; rfl

/-- The sweep leaves every byte it passed blank once the write on its way has arrived, and at the end of a batch, with a pause
as long as a write cycle, it has (43_erase_engine.md R166). -/
theorem eraseSweep_blank (head : StepIndex) (n : Nat) : ∀ {a : Nat} {s t : State}, Ready s →
    s.dev.kind.alwaysCompletes s.draws → s.dev.overtaken.BlankBelow a → eraseSweep head (n + 1) a s = .ok t →
      t.dev.BlankBelow (a + (n + 1)) ∧
        ((a + (n + 1)) % eraseBatch = 0 → s.cfg.tDevWc ≤ s.cfg.tErasePause → t.dev.pend = .none) := by
  induction n with
  | zero =>
    intro a s t h hk hd ht
    rw [eraseSweep_succ h] at ht
    cases ht
    have hB := hd.accept (DeviceKind.budget_ne_infinite hk (Nat.le_refl _))
    have hdev := eraseTurn_dev head a s
    refine ⟨by rw [hdev]; split <;> [exact hB.waited _ _; exact hB], fun hm hw => ?_⟩
    rw [hdev, if_pos hm, Device.waited_eq _ _ hB.arrives, if_pos hw]
    simp
  | succ n ih =>
    intro a s t h hk hd ht
    rw [eraseSweep_succ h] at ht
    have hB := hd.accept (DeviceKind.budget_ne_infinite hk (Nat.le_refl _))
    have hdev := eraseTurn_dev head a s
    have hB' : (s.afterEraseTurn head a).dev.BlankBelow (a + 1) := by
      rw [hdev]; split
      · exact hB.waited _ _
      · exact hB
    have hdr : (s.afterEraseTurn head a).draws = s.draws + 1 := by
      simp [State.afterEraseTurn, State.afterFastWrite, returnTo]
    have hkd : (s.afterEraseTurn head a).dev.kind = s.dev.kind := by rw [hdev]; split <;> simp
    have hcf : (s.afterEraseTurn head a).cfg = s.cfg := by
      simp [State.afterEraseTurn, State.afterFastWrite, returnTo]
    have hk' : (s.afterEraseTurn head a).dev.kind.alwaysCompletes (s.afterEraseTurn head a).draws := by
      rw [hkd, hdr]; exact hk.mono (Nat.le_succ _)
    obtain ⟨g1, g2⟩ := ih (h.afterEraseTurn head a) hk' hB'.overtaken ht
    rw [show a + (n + 1 + 1) = a + 1 + (n + 1) by omega]
    exact ⟨g1, fun hm hw => g2 hm (by rw [hcf]; exact hw)⟩

end Sys2Proof.Machine
end

