-- ==== Sys2Proof/Laws/Invariant.lean ====
section
/-! SUPPORT. The canonical form of memory, the write cycle and the buffer through every loop: what the invariant of Safety.lean
needs of them. -/

namespace Sys2Proof.Machine

theorem wf_afterRead {s : State} (a : DevAddr) (h : s.dev.wf = true) : (s.afterRead a).dev.wf = true :=
  Device.wf_consumed (Device.wf_waited _ _ h)

theorem wf_afterFastWrite {s : State} (a : DevAddr) (v : Byte) (h : s.dev.wf = true) : (s.afterFastWrite a v).dev.wf = true :=
  Device.wf_accept _ _ _ (Device.wf_overtaken h)

theorem wf_beforePoll {s : State} (a : DevAddr) (v : Byte) (h : s.dev.wf = true) : (s.beforePoll a v).dev.wf = true :=
  Device.wf_waited _ _ (wf_afterFastWrite (s := s) a v h)

theorem wf_pollLoop {a : DevAddr} {v : Byte} {head : StepIndex} (n : Nat) : ∀ {s : State} {r : OutcomeCode × State}, Ready s →
    s.dev.wf = true → pollLoop a v head n s = .ok r → r.2.dev.wf = true := by
  induction n with
  | zero => intro s r _ hb hr; cases hr; exact hb
  | succ n ih =>
    intro s r h hb hr
    have hk : (s.afterPoll a head).dev.wf = true := wf_afterRead (s := returnTo head s) a hb
    rw [pollLoop_succ h] at hr
    split at hr
    · cases hr; exact hk
    · exact ih (h.afterPoll a head) hk hr

theorem wf_writeByte {s : State} (h : Ready s) {a : DevAddr} {v : Byte} {r : OutcomeCode × State} (hb : s.dev.wf = true)
    (hr : writeByte a v s = .ok r) : r.2.dev.wf = true := by
  rw [writeByte_eq h] at hr
  exact wf_pollLoop _ (h.beforePoll a v) (wf_beforePoll a v hb) hr

/-- READBLOCK's loop keeps device and buffer in form: every index it fills is below `BLOCK_SIZE`. -/
theorem wf_readLoop {addr : Nat} {head : StepIndex} (n : Nat) : ∀ {i : Nat} {s : State} {r : Nat × State}, Ready s →
    s.dev.wf = true → Buffer.wf s.cfg.blockSize s.buf = true → i + n ≤ s.cfg.blockSize → readLoop addr head n i s = .ok r →
      r.2.dev.wf = true ∧ Buffer.wf s.cfg.blockSize r.2.buf = true := by
  induction n with
  | zero => intro i s r _ hb hbuf _ hr; cases hr; exact ⟨hb, hbuf⟩
  | succ n ih =>
    intro i s r h hb hbuf hi hr
    by_cases ha : addr + i < deviceSize
    · rw [readLoop_succ h (deviceAddress_some ha)] at hr
      exact ih (s := s.afterBlockRead (BitVec.ofNat 15 (addr + i)) head i) (h.afterBlockRead (BitVec.ofNat 15 (addr + i)) head i)
        (wf_afterRead (s := returnTo head s) (BitVec.ofNat 15 (addr + i)) hb)
        (Buffer.wf_set _ (by change i < s.cfg.blockSize; omega) hbuf)
        (by change i + 1 + n ≤ s.cfg.blockSize; omega) hr
    · rw [readLoop_clip (deviceAddress_none (by omega))] at hr
      cases hr; exact ⟨hb, hbuf⟩

theorem wf_writeLoop {addr : Nat} {head : StepIndex} (n : Nat) : ∀ {i : Nat} {s : State} {r : OutcomeCode × Nat × State},
    Ready s → s.dev.wf = true → writeLoop addr head n i s = .ok r → r.2.2.dev.wf = true ∧ Ready r.2.2 := by
  induction n with
  | zero => intro i s r h hb hr; cases hr; exact ⟨hb, h⟩
  | succ n ih =>
    intro i s r h hb hr
    by_cases ha : addr + i < deviceSize
    · unfold writeLoop at hr
      rw [deviceAddress_some ha] at hr
      simp only at hr
      split at hr
      · cases hr
      · obtain ⟨-, o, t, h1, -⟩ := writeByte_spec (h.returnTo head) (BitVec.ofNat 15 (addr + i)) ‹_›
        rw [h1, ok_bind] at hr
        have hready := (h.returnTo head).writeByte h1
        have hw : t.dev.wf = true := wf_writeByte (h.returnTo head) hb h1
        split at hr
        · exact ih (s := { t with work.idxR := BitVec.ofNat 11 (i + 1) }) (hready.congr rfl rfl) hw hr
        · cases hr; exact ⟨hw, hready⟩
    · rw [writeLoop_clip (deviceAddress_none (by omega))] at hr
      cases hr; exact ⟨hb, h⟩

/-- From a ready port WRITEBLOCK's loop stops in one way only (42_block_transfer.md R151). -/
theorem writeLoop_fault {addr : Nat} {head : StepIndex} (n : Nat) : ∀ {i : Nat} {s : State} {f : Fault}, Ready s →
    writeLoop addr head n i s = .error f → f = .noValue .buffer := by
  induction n with
  | zero => intro i s f _ hr; cases hr
  | succ n ih =>
    intro i s f h hr
    by_cases ha : addr + i < deviceSize
    · unfold writeLoop at hr
      rw [deviceAddress_some ha] at hr
      simp only at hr
      split at hr
      · cases hr; rfl
      · obtain ⟨-, o, t, h1, -⟩ := writeByte_spec (h.returnTo head) (BitVec.ofNat 15 (addr + i)) ‹_›
        rw [h1, ok_bind] at hr
        split at hr
        · exact ih (s := { t with work.idxR := BitVec.ofNat 11 (i + 1) })
            (((h.returnTo head).writeByte h1).congr rfl rfl) hr
        · cases hr
    · rw [writeLoop_clip (deviceAddress_none (by omega))] at hr
      cases hr

theorem wf_erasePacing {s : State} (a : Nat) (h : s.dev.wf = true) : (erasePacing a s).dev.wf = true := by
  rw [erasePacing_dev]
  split
  · exact Device.wf_waited _ _ h
  · exact h

theorem wf_eraseSweep {head : StepIndex} (n : Nat) : ∀ {a : Nat} {s t : State}, Ready s → s.dev.wf = true →
    eraseSweep head n a s = .ok t → t.dev.wf = true := by
  induction n with
  | zero => intro a s t h hb hr; cases hr; exact hb
  | succ n ih =>
    intro a s t h hb hr
    rw [eraseSweep_succ h] at hr
    exact ih (h.afterEraseTurn head a) (wf_erasePacing _ (wf_afterFastWrite (s := returnTo head s) _ _ hb)) hr

end Sys2Proof.Machine
end

