-- ==== Sys2Proof/Laws/PerInstr.lean ====
section
/-! SUPPORT. Statements about every instruction as syntax, one lemma for each constructor. -/

namespace Sys2Proof.Laws

/-- The command word of `i` under `mask` is `pattern`. -/
def inRow (pattern mask : CmdWord) (i : Instr) : Prop := ∃ w, encode i = .command w ∧ w &&& mask = pattern

/-- The text line of `i` begins with these two characters. -/
def beginsWith (c0 c1 : Byte) (i : Instr) : Prop := ∃ rest, encode i = .line (c0 :: c1 :: rest)

/-- What `i` encodes to carries the fixed bits of its row of spec/opcode_table.json, its `match` under its `mask`
(30_encoding.md R91 to R96, R108). -/
def EncodesItsRow.Statement (i : Instr) : Prop :=
  match i with
  | .setaddr _ _ => inRow 0x10000000 0xF7FE0000 i
  | .writebyte _ _ => inRow 0x20000000 0xFE000000 i
  | .fastwrite _ _ => inRow 0x30000000 0xFE000000 i
  | .readbyte _ => inRow 0x40000000 0xFFFE0000 i
  | .readblock _ _ => inRow 0x50000000 0xF0000000 i
  | .writeblock _ _ => inRow 0x60000000 0xF0000000 i
  | .erase => inRow 0x70000000 0xFFFFFFFF i
  | .illegalOp0 _ => inRow 0x00000000 0xF0000000 i
  | .illegalOp8F _ => inRow 0x80000000 0x80000000 i
  | .parseS1 _ => beginsWith 0x53 0x31 i
  | .parseS0 _ => beginsWith 0x53 0x30 i
  | .parseS2 _ => beginsWith 0x53 0x32 i
  | .parseS3 _ => beginsWith 0x53 0x33 i
  | .parseS4 _ => beginsWith 0x53 0x34 i
  | .parseS5 _ => beginsWith 0x53 0x35 i
  | .parseS6 _ => beginsWith 0x53 0x36 i
  | .parseS7 _ => beginsWith 0x53 0x37 i
  | .parseS8 _ => beginsWith 0x53 0x38 i
  | .parseS9 _ => beginsWith 0x53 0x39 i
  | .parseOther _ => i.wf = true → ∃ text, encode i = .line text ∧ startsRecord text = false

theorem EncodesItsRow.setaddr (addr : AddrOperand) (cs : Sel) : EncodesItsRow.Statement (.setaddr addr cs) :=
  ⟨_, rfl, (formatC_masked 1 (bitOfSel cs) 0 addr 0xF 0 3 0xFF 0).trans (by simp)⟩

theorem EncodesItsRow.writebyte (addr : AddrOperand) (value : Byte) : EncodesItsRow.Statement (.writebyte addr value) :=
  ⟨_, rfl, (formatC_masked 2 0 value addr 0xF 1 3 0 0).trans (by simp)⟩

theorem EncodesItsRow.fastwrite (addr : AddrOperand) (value : Byte) : EncodesItsRow.Statement (.fastwrite addr value) :=
  ⟨_, rfl, (formatC_masked 3 0 value addr 0xF 1 3 0 0).trans (by simp)⟩

theorem EncodesItsRow.readbyte (addr : AddrOperand) : EncodesItsRow.Statement (.readbyte addr) :=
  ⟨_, rfl, (formatC_masked 4 0 0 addr 0xF 1 3 0xFF 0).trans (by simp)⟩

theorem EncodesItsRow.readblock (addr : AddrOperand) (count : Count) : EncodesItsRow.Statement (.readblock addr count) :=
  ⟨_, rfl, (formatB_masked 5 addr count 0xF 0 0).trans (by simp)⟩

theorem EncodesItsRow.writeblock (addr : AddrOperand) (count : Count) : EncodesItsRow.Statement (.writeblock addr count) :=
  ⟨_, rfl, (formatB_masked 6 addr count 0xF 0 0).trans (by simp)⟩

theorem EncodesItsRow.erase : EncodesItsRow.Statement .erase :=
  ⟨_, rfl, by decide⟩

theorem EncodesItsRow.illegalOp0 (low : BitVec 28) : EncodesItsRow.Statement (.illegalOp0 low) :=
  ⟨_, rfl, (BitVec.and_append (x₁ := 0#4) (y₁ := low) (x₂ := 0xF#4) (y₂ := 0#28)).trans (by simp)⟩

theorem EncodesItsRow.illegalOp8F (low : BitVec 31) : EncodesItsRow.Statement (.illegalOp8F low) :=
  ⟨_, rfl, (BitVec.and_append (x₁ := 1#1) (y₁ := low) (x₂ := 1#1) (y₂ := 0#31)).trans (by simp)⟩

theorem EncodesItsRow.parseS1 (rest : List Byte) : EncodesItsRow.Statement (.parseS1 rest) := ⟨rest, rfl⟩

theorem EncodesItsRow.parseS0 (rest : List Byte) : EncodesItsRow.Statement (.parseS0 rest) := ⟨rest, rfl⟩

theorem EncodesItsRow.parseS2 (rest : List Byte) : EncodesItsRow.Statement (.parseS2 rest) := ⟨rest, rfl⟩

theorem EncodesItsRow.parseS3 (rest : List Byte) : EncodesItsRow.Statement (.parseS3 rest) := ⟨rest, rfl⟩

theorem EncodesItsRow.parseS4 (rest : List Byte) : EncodesItsRow.Statement (.parseS4 rest) := ⟨rest, rfl⟩

theorem EncodesItsRow.parseS5 (rest : List Byte) : EncodesItsRow.Statement (.parseS5 rest) := ⟨rest, rfl⟩

theorem EncodesItsRow.parseS6 (rest : List Byte) : EncodesItsRow.Statement (.parseS6 rest) := ⟨rest, rfl⟩

theorem EncodesItsRow.parseS7 (rest : List Byte) : EncodesItsRow.Statement (.parseS7 rest) := ⟨rest, rfl⟩

theorem EncodesItsRow.parseS8 (rest : List Byte) : EncodesItsRow.Statement (.parseS8 rest) := ⟨rest, rfl⟩

theorem EncodesItsRow.parseS9 (rest : List Byte) : EncodesItsRow.Statement (.parseS9 rest) := ⟨rest, rfl⟩

theorem EncodesItsRow.parseOther (line : List Byte) : EncodesItsRow.Statement (.parseOther line) :=
  fun h => ⟨line, rfl, by simpa [Instr.wf] using h⟩

end Sys2Proof.Laws
end

