-- ==== Sys2Proof/Laws/Response.lean ====
section
/-! SUPPORT. No port activity reads RESP: each shared operation, from any state, does the same whatever RESP holds (10_state.md
R31, 60_exceptions.md R214). -/

namespace Sys2Proof.Machine

/-- `s` with another response word. -/
def State.withResp (r : BitVec 16) (s : State) : State := { s with resp := r }

variable (r : BitVec 16)

theorem activeLine_withResp (s : State) : activeLine (s.withResp r) = activeLine s := rfl

theorem deviceDrives_withResp (s : State) : deviceDrives (s.withResp r) = deviceDrives s := rfl

theorem settle_withResp (s : State) : settle (s.withResp r) = (settle s).map (State.withResp r) := by
  unfold settle; rw [deviceDrives_withResp]
  cases deviceDrives s with
  | error f => rfl
  | ok b => simp only; change (if b = true ∧ s.port.dir = .out then _ else _) = _; split <;> rfl

theorem writeData_withResp (b : Byte) (s : State) : writeData b (s.withResp r) = (writeData b s).map (State.withResp r) :=
  settle_withResp r (emit (.wd b) { s with port.data := b, port.dataKnown := true })

theorem setDirection_withResp (d : Dir) (s : State) :
    setDirection d (s.withResp r) = (setDirection d s).map (State.withResp r) :=
  settle_withResp r (emit (.dir d) { s with port.dir := d })

theorem commitEdge_withResp (s : State) : commitEdge (s.withResp r) = (commitEdge s).map (State.withResp r) := by
  unfold commitEdge
  change (if s.port.latchHiKnown = false then _ else if selected s = false then _
    else if s.port.dir = .out ∧ s.port.dataKnown = true ∧ s.port.latchLoKnown = true then _ else _) = _
  split_ifs <;> rfl

theorem trailingEdge_withResp (f : Fn) (s : State) :
    trailingEdge f (s.withResp r) = (trailingEdge f s).map (State.withResp r) := by
  cases f with
  | low => simp only [trailingEdge]; change (capturedLines s >>= _) = _; cases capturedLines s <;> rfl
  | high => simp only [trailingEdge]; change (capturedLines s >>= _) = _; cases capturedLines s <;> rfl
  | we => exact commitEdge_withResp r s
  | oe => rfl

theorem applyEdge_withResp (was now : Option Fn) (s : State) :
    applyEdge was now (s.withResp r) = (applyEdge was now s).map (State.withResp r) := by
  unfold applyEdge
  cases was with
  | none => rfl
  | some f =>
    simp only
    split
    · rfl
    · exact trailingEdge_withResp r f s

theorem bind_withResp {m : Except Fault State} {k : State → Except Fault State}
    (hk : ∀ t, k (t.withResp r) = (k t).map (State.withResp r)) :
    (m.map (State.withResp r) >>= k) = (m >>= k).map (State.withResp r) := by
  cases m with
  | error e => rfl
  | ok t => exact hk t

theorem writeControl_withResp (b : Byte) (s : State) :
    writeControl b (s.withResp r) = (writeControl b s).map (State.withResp r) := by
  unfold writeControl
  rw [activeLine_withResp]
  cases activeLine s with
  | error f => rfl
  | ok w =>
    simp only [ok_bind]
    rw [← bind_withResp r (fun t => settle_withResp r (emit (.wc b) t)), ← applyEdge_withResp]; rfl

theorem pulse_withResp (f : Fn) (s : State) : pulse f (s.withResp r) = (pulse f s).map (State.withResp r) := by
  unfold pulse
  rw [writeControl_withResp, bind_withResp]
  · rfl
  · intro t; exact writeControl_withResp r _ t

theorem loadLatch_withResp (f : Fn) (b : Byte) (s : State) :
    loadLatch f b (s.withResp r) = (loadLatch f b s).map (State.withResp r) := by
  unfold loadLatch
  rw [writeData_withResp, bind_withResp]
  intro t
  rw [show select f (t.withResp r) = _ from writeControl_withResp r _ t, bind_withResp]
  · rfl
  intro t; exact pulse_withResp r f t

theorem latchAddress_withResp (a : DevAddr) (cs : Sel) (s : State) :
    latchAddress a cs (s.withResp r) = (latchAddress a cs s).map (State.withResp r) := by
  unfold latchAddress
  rw [loadLatch_withResp, bind_withResp]
  intro t; exact loadLatch_withResp r _ _ t

theorem fastWrite_withResp (a : DevAddr) (v : Byte) (s : State) :
    fastWrite a v (s.withResp r) = (fastWrite a v s).map (State.withResp r) := by
  unfold fastWrite
  rw [latchAddress_withResp, bind_withResp]
  intro t; unfold writeStrobe
  rw [show select .we { t.withResp r with work.valR := v } = _ from writeControl_withResp r _ { t with work.valR := v },
    bind_withResp]
  · rfl
  intro t; rw [writeData_withResp, bind_withResp]
  intro t; exact pulse_withResp r _ t

theorem readData_withResp (s : State) :
    readData (s.withResp r) = (readData s).map (fun x => (x.1, x.2.withResp r)) := by
  unfold readData
  rw [deviceDrives_withResp]
  change (match deviceDrives s, s.port.dir with
    | .error f, _ => _
    | .ok true, .out => _
    | .ok true, .inp => _
    | .ok false, .inp => _
    | .ok false, .out => if s.port.dataKnown = true then _ else _) = _
  cases deviceDrives s with
  | error f => rfl
  | ok b =>
    cases s.port.dir with
    | out =>
      cases b with
      | true => rfl
      | false =>
        change (if s.port.dataKnown = true then _ else _) = Except.map _ (if s.port.dataKnown = true then _ else _)
        split <;> rfl
    | inp => cases b <;> rfl

theorem sampleByte_withResp (s : State) : sampleByte (s.withResp r) = (sampleByte s).map (State.withResp r) := by
  unfold sampleByte
  rw [show select .oe (s.withResp r) = _ from writeControl_withResp r _ s, bind_withResp]
  · rfl
  intro t
  rw [show (t.withResp r).cfg = t.cfg from rfl, writeControl_withResp, bind_withResp]
  intro t
  rw [show delay (t.withResp r).cfg.tOeSettle (t.withResp r) = (delay t.cfg.tOeSettle t).withResp r from rfl,
    readData_withResp]
  cases readData (delay t.cfg.tOeSettle t) <;> rfl

theorem readByte_withResp (a : DevAddr) (s : State) : readByte a (s.withResp r) = (readByte a s).map (State.withResp r) := by
  unfold readByte
  rw [latchAddress_withResp, bind_withResp]
  intro t; rw [setDirection_withResp, bind_withResp]
  intro t; rw [sampleByte_withResp, bind_withResp]
  intro t; rw [show (t.withResp r).cfg = t.cfg from rfl, writeControl_withResp, bind_withResp]
  intro t; rw [setDirection_withResp, bind_withResp]
  intro t; rw [latchAddress_withResp]

theorem pollLoop_withResp (a : DevAddr) (v : Byte) (h : StepIndex) (n : Nat) : ∀ s : State,
    pollLoop a v h n (s.withResp r) = (pollLoop a v h n s).map (fun x => (x.1, x.2.withResp r)) := by
  induction n with
  | zero => intro s; rfl
  | succ n ih =>
    intro s
    unfold pollLoop
    rw [show returnTo h (s.withResp r) = (returnTo h s).withResp r from rfl, readByte_withResp]
    cases readByte a (returnTo h s) with
    | error e => rfl
    | ok t =>
      change (if converged t.work.rbR v then _ else _) = Except.map _ (if converged t.work.rbR v then _ else _)
      split
      · rfl
      · exact ih { t with work.pollR := t.work.pollR + 1 }

theorem writeByte_withResp (a : DevAddr) (v : Byte) (s : State) :
    writeByte a v (s.withResp r) = (writeByte a v s).map (fun x => (x.1, x.2.withResp r)) := by
  unfold writeByte
  rw [fastWrite_withResp]
  cases fastWrite a v s with
  | error e => rfl
  | ok t =>
    change (latchAddress a .desel ((delay t.cfg.tWriteSettle t).withResp r) >>= _) =
      Except.map _ (latchAddress a .desel (delay t.cfg.tWriteSettle t) >>= _)
    rw [latchAddress_withResp]
    cases latchAddress a .desel (delay t.cfg.tWriteSettle t) with
    | error e => rfl
    | ok u => exact pollLoop_withResp r a v _ _ { u with work.pollR := 0 }

theorem readLoop_withResp (addr : Nat) (h : StepIndex) (n : Nat) : ∀ (i : Nat) (s : State),
    readLoop addr h n i (s.withResp r) = (readLoop addr h n i s).map (fun x => (x.1, x.2.withResp r)) := by
  induction n with
  | zero => intro i s; rfl
  | succ n ih =>
    intro i s
    unfold readLoop
    split
    · rfl
    · rename_i a _
      rw [show returnTo h (s.withResp r) = (returnTo h s).withResp r from rfl, readByte_withResp]
      cases readByte a (returnTo h s) with
      | error e => rfl
      | ok t =>
        exact ih (i + 1) { t with buf := Buffer.set t.buf i t.work.rbR, work.idxR := BitVec.ofNat 11 (i + 1) }

theorem writeLoop_withResp (addr : Nat) (h : StepIndex) (n : Nat) : ∀ (i : Nat) (s : State),
    writeLoop addr h n i (s.withResp r) =
      (writeLoop addr h n i s).map (fun x => (x.1, x.2.1, x.2.2.withResp r)) := by
  induction n with
  | zero => intro i s; rfl
  | succ n ih =>
    intro i s
    unfold writeLoop
    split
    · rfl
    · rename_i a _
      change (match Buffer.get s.buf i with
        | none => _
        | some v => _) = _
      cases Buffer.get s.buf i with
      | none => rfl
      | some v =>
        simp only
        rw [show returnTo h (s.withResp r) = (returnTo h s).withResp r from rfl, writeByte_withResp]
        cases writeByte a v (returnTo h s) with
        | error e => rfl
        | ok t =>
          change (if t.1 = .ok then _ else _) = Except.map _ (if t.1 = .ok then _ else _)
          split
          · exact ih (i + 1) { t.2 with work.idxR := BitVec.ofNat 11 (i + 1) }
          · rfl


theorem eraseSweep_withResp (h : StepIndex) (n : Nat) : ∀ (a : Nat) (s : State),
    eraseSweep h n a (s.withResp r) = (eraseSweep h n a s).map (State.withResp r) := by
  induction n with
  | zero => intro a s; rfl
  | succ n ih =>
    intro a s
    unfold eraseSweep
    rw [show returnTo h (s.withResp r) = (returnTo h s).withResp r from rfl, fastWrite_withResp]
    cases fastWrite (BitVec.ofNat 15 a) blank (returnTo h s) with
    | error e => rfl
    | ok t =>
      have : erasePacing a (t.withResp r) = (erasePacing a t).withResp r := by
        unfold erasePacing; split <;> split <;> rfl
      change eraseSweep h n (a + 1) { erasePacing a (t.withResp r) with work.eraseR := _ } = _
      rw [this]
      exact ih (a + 1) { erasePacing a t with work.eraseR := BitVec.ofNat 16 (a + 1) }

end Sys2Proof.Machine
end

