-- ==== Sys2Proof/Tests/Slice0.lean ====
section
/-! SUPPORT. The model's own tests. Expected results are those of spec/95_test_vectors.md (cited at each) or worked out by hand
from the rule cited; then a witness for the hypotheses of every statement that has some. -/

namespace Sys2Proof.Tests

open Sys2Proof.Machine

/-! ## Helpers -/

/-- The launch state with the default parameters, a device and some bytes of `MEM`. -/
def start (k : DeviceKind) (mem : List Host.Cell) : State := State.launch Config.default k mem

/-- The same with another `POLL_LIMIT`. -/
def startWithLimit (n : Nat) (k : DeviceKind) : State := State.launch { Config.default with pollLimit := n } k []

/-- `s` with bytes in its buffer from index 0 on. -/
def withBuffer (s : State) (bytes : List Byte) : State := { s with buf := loadBuffer 0 bytes s.buf }

/-- The outcome is a next state of which `p` holds. -/
def nextHas (o : Host.Outcome State Fault Refusal) (p : State → Bool) : Bool :=
  match o with
  | .next t => p t
  | .fault _ | .refused _ => false

/-- The outcome is this fault. -/
def faultIs (o : Host.Outcome State Fault Refusal) (f : Fault) : Bool :=
  match o with
  | .fault g => decide (g = f)
  | .next _ | .refused _ => false

/-- The instruction runs to a next state of which `p` holds. -/
def ran (i : Instr) (s : State) (p : State → Bool) : Bool := nextHas (exec i s) p

/-- The state after an instruction that runs. -/
def after (i : Instr) (s : State) : State :=
  match exec i s with
  | .next t => t
  | .fault _ | .refused _ => s

/-- The response and the number of events. -/
def answered (resp : BitVec 16) (events : Nat) (t : State) : Bool := decide (t.resp = resp) && decide (t.trace.length = events)

theorem nextHas_next {o : Host.Outcome State Fault Refusal} {p : State → Bool} (h : nextHas o p = true) :
    ∃ t, o = .next t ∧ p t = true := by
  cases o with
  | next t => exact ⟨t, rfl, h⟩
  | fault f => cases h
  | refused r => cases h

theorem faultIs_fault {o : Host.Outcome State Fault Refusal} {f : Fault} (h : faultIs o f = true) : o = .fault f := by
  cases o with
  | next t => cases h
  | fault g => simpa [faultIs] using h
  | refused r => cases h

/-! ## WellFormed: one ill-formed term for each check -/

/-- A line of an `S` row is no `parseOther` line (30_encoding.md R108), at both ends of the digits. -/
theorem test_wf_refuses_record_lines :
    Instr.wf (.parseOther [0x53, 0x30]) = false ∧ Instr.wf (.parseOther [0x53, 0x39, 0x41]) = false ∧
    Instr.wf (.parseOther [0x53, 0x2F]) = true ∧ Instr.wf (.parseOther [0x53, 0x3A]) = true ∧
    Instr.wf (.parseOther [0x53]) = true ∧ Instr.wf (.parseOther []) = true := by decide

/-- Counts above BLOCK_SIZE and reserved opcodes are illegal (30_encoding.md R96). -/
theorem test_legal_refuses : Instr.legal Config.default (.readblock 0 1025) = false ∧
    Instr.legal Config.default (.writeblock 0 1025) = false ∧ Instr.legal Config.default (.illegalOp0 0) = false ∧
    Instr.legal Config.default (.illegalOp8F 0) = false ∧ Instr.legal Config.default (.readblock 0x1FFFF 1024) = true := by decide

/-- Parameters outside the constraints of 00_scope.md R11 and codes that are not distinct (10_state.md R24) are refused; a
`T_DEV_WC` of 0 is not (log 28). -/
theorem test_config_wf_refuses : Config.wf { Config.default with pollLimit := 0 } = false ∧
    Config.wf { Config.default with blockSize := 2048 } = false ∧ Config.wf { Config.default with blockSize := 0 } = false ∧
    Config.wf { Config.default with tOeSettle := 0 } = false ∧ Config.wf { Config.default with fnOe := 0 } = false ∧
    Config.wf { Config.default with blockSize := 2047, pollLimit := 1, tDevWc := 0 } = true := by decide

/-- A memory out of order, with a byte equal to what an unlisted one reads as, or beyond the device is not in canonical form. -/
theorem test_memory_wf_refuses : Memory.wf [(2, 1), (1, 1)] = false ∧ Memory.wf [(1, 0xFF)] = false ∧
    Memory.wf [(32768, 0)] = false ∧ Memory.wf [(1, 0), (32767, 0)] = true := by decide

/-! ## Decoding: each constructor's word, written out field by field from 30_encoding.md R92 to R96 and R108 -/

/-- OP 0001, CS 1, Z 00, DATA 00000000, ADDR 0x7AF0. -/
theorem test_decode_setaddr :
    decodeWord (0b0001#4 ++ 0b1#1 ++ 0b00#2 ++ 0b00000000#8 ++ 0b00111101011110000#17) = .ok (.setaddr 0x7AF0 .sel) ∧
    decodeWord (0b0001#4 ++ 0b0#1 ++ 0b00#2 ++ 0b00000000#8 ++ 0b01000000000000000#17) = .ok (.setaddr 0x8000 .desel) ∧
    decodeWord (0b0001#4 ++ 0b1#1 ++ 0b01#2 ++ 0b00000000#8 ++ 0b00111101011110000#17) = .error .nonzeroZ ∧
    decodeWord (0b0001#4 ++ 0b1#1 ++ 0b00#2 ++ 0b00001010#8 ++ 0b00111101011110000#17) = .error .nonzeroData := by decide

/-- OP 0010, CS 0, Z 00, DATA 00001010, ADDR 0x7AF0. -/
theorem test_decode_writebyte :
    decodeWord (0b0010#4 ++ 0b0#1 ++ 0b00#2 ++ 0b00001010#8 ++ 0b00111101011110000#17) = .ok (.writebyte 0x7AF0 0x0A) ∧
    decodeWord (0b0010#4 ++ 0b1#1 ++ 0b00#2 ++ 0b00000000#8 ++ 0b00111101011110000#17) = .error .nonzeroCs := by decide

/-- OP 0011, DATA 11111111, ADDR 0. -/
theorem test_decode_fastwrite :
    decodeWord (0b0011#4 ++ 0b0#1 ++ 0b00#2 ++ 0b11111111#8 ++ 0b00000000000000000#17) = .ok (.fastwrite 0 0xFF) ∧
    decodeWord (0b0011#4 ++ 0b0#1 ++ 0b10#2 ++ 0b11111111#8 ++ 0b00000000000000000#17) = .error .nonzeroZ := by decide

/-- OP 0100, ADDR 0x7AF0. -/
theorem test_decode_readbyte :
    decodeWord (0b0100#4 ++ 0b0#1 ++ 0b00#2 ++ 0b00000000#8 ++ 0b00111101011110000#17) = .ok (.readbyte 0x7AF0) ∧
    decodeWord (0b0100#4 ++ 0b0#1 ++ 0b00#2 ++ 0b00000001#8 ++ 0b00111101011110000#17) = .error .nonzeroData := by decide

/-- OP 0101, COUNT 10 in 27:17, ADDR 0x7FFB. -/
theorem test_decode_readblock :
    decodeWord (0b0101#4 ++ 0b00000001010#11 ++ 0b00111111111111011#17) = .ok (.readblock 0x7FFB 10) := by decide

/-- OP 0110, COUNT 1024, ADDR 0. -/
theorem test_decode_writeblock :
    decodeWord (0b0110#4 ++ 0b10000000000#11 ++ 0b00000000000000000#17) = .ok (.writeblock 0 1024) := by decide

/-- OP 0111, every other bit 0. -/
theorem test_decode_erase : decodeWord (0b0111#4 ++ 0b0000000000000000000000000000#28) = .ok .erase ∧
    decodeWord 0x70000001 = .error .nonzeroAddr ∧ decodeWord 0x78000000 = .error .nonzeroCs := by decide

/-- OP 0000. -/
theorem test_decode_illegalOp0 : decodeWord (0b0000#4 ++ 0b0000000000000000000000000001#28) = .ok (.illegalOp0 1) := by decide

/-- OP 1xxx. -/
theorem test_decode_illegalOp8F : decodeWord (0b1#1 ++ 0b0010000000000000000000000000000#31) = .ok (.illegalOp8F 0x10000000) := by
  decide

/-- `S` is 0x53, the digits 0x30 to 0x39; upper case only; what follows does not matter. -/
theorem test_decode_lines :
    decodeLine [0x53, 0x30, 0x5A] = .parseS0 [0x5A] ∧ decodeLine [0x53, 0x31] = .parseS1 [] ∧
    decodeLine [0x53, 0x32] = .parseS2 [] ∧ decodeLine [0x53, 0x33] = .parseS3 [] ∧ decodeLine [0x53, 0x34] = .parseS4 [] ∧
    decodeLine [0x53, 0x35] = .parseS5 [] ∧ decodeLine [0x53, 0x36] = .parseS6 [] ∧ decodeLine [0x53, 0x37] = .parseS7 [] ∧
    decodeLine [0x53, 0x38] = .parseS8 [] ∧ decodeLine [0x53, 0x39] = .parseS9 [] ∧
    decodeLine [0x73, 0x31] = .parseOther [0x73, 0x31] ∧ decodeLine [0x53] = .parseOther [0x53] ∧
    decodeLine [] = .parseOther [] := by decide

/-- The opcode table's own numbering (spec/opcode_table.json `match`; log 15). -/
theorem test_decode_table_words :
    decodeTableWord 32 0x20000000 = some (.writebyte 0 0) ∧ decodeTableWord 32 0x12000000 = none ∧
    decodeTableWord 16 0x5331 = some (.parseS1 []) ∧ decodeTableWord 16 0x5330 = some (.parseS0 []) ∧
    decodeTableWord 64 0x5331303330303030 = some (.parseS1 [0x30, 0x33, 0x30, 0x30, 0x30, 0x30]) ∧
    decodeTableWord 16 0x4142 = some (.parseOther [0x41, 0x42]) := by decide

/-- What the host asks of a row: the step after reset runs exactly its word. -/
theorem test_withFetchWord :
    nextHas (step (State.reset.withFetchWord 32 0x00000000)) (answered 0x7000 0) = true ∧
    nextHas (step (State.reset.withFetchWord 32 0x10000000)) (answered 0 8) = true ∧
    nextHas (step (State.reset.withFetchWord 16 0x5331)) (fun t => decide (t.parsed = .malformed)) = true := by decide

/-! ## SETADDR (2.2, V4) -/

/-- 0x1234 with DESEL: the eight events, both latches, the response. -/
theorem test_setaddr_events : ran (.setaddr 0x1234 .desel) (start .contract []) (fun t =>
    decide (t.trace.reverse = [.wd 0x34, .wc 0x01, .wc 0x00, .wc 0x01, .wd 0x92, .wc 0x03, .wc 0x02, .wc 0x03]) &&
    decide (t.port.latchLo = 0x34) && decide (t.port.latchHi = 0x92) && decide (t.port.data = 0x92) &&
    decide (t.port.ctrl = 0x03) && decide (t.resp = 0)) = true := by decide

/-- The fourth event leaves the mixed address 0x7A34 on the pins, not selected (2.2); 0x8000 is rejected with no event. -/
theorem test_setaddr_mixed_address :
    (match loadLatch .low 0x34 (after (.setaddr 0x7AF0 .desel) (start .contract [])) with
      | .ok t => decide (addressPins t.port = 0x7A34) && decide (csPin t.port = 1)
      | .error _ => false) = true ∧
    ran (.setaddr 0x8000 .sel) (start .contract []) (answered 0x1000 0) = true := by decide

/-! ## Byte operations (2.3 to 2.5, P6) -/

/-- 2.3: the twenty-three events of a read of 0xC3. -/
theorem test_readbyte_events : ran (.readbyte 0x1234) (start .contract [(0x1234, 0xC3)]) (fun t =>
    answered 0x00C3 23 t && decide ((t.trace.reverse.drop 8).take 7 =
      [.dir .inp, .wc 0x07, .wc 0x06, .delay 10, .rd 0xC3, .wc 0x07, .dir .out]) &&
    decide (t.port.latchHi = 0x92)) = true := by decide

/-- 2.3: slow(3) after FASTWRITE 0x0005, 0x00: three reads answer 0x80, the fourth 0x00. -/
theorem test_readbyte_busy :
    let s1 := after (.fastwrite 5 0) (start (.slow 3) [])
    let s4 := after (.readbyte 5) (after (.readbyte 5) s1)
    s4.resp = 0x0080 ∧ (after (.readbyte 5) s4).resp = 0x0080 ∧ (after (.readbyte 5) s4).dev.pend = .none ∧
    (after (.readbyte 5) (after (.readbyte 5) s4)).resp = 0 := by decide

/-- 2.4: FASTWRITE 0x1234, 0x55 on `ideal`. -/
theorem test_fastwrite_events : ran (.fastwrite 0x1234 0x55) (start .ideal []) (fun t =>
    answered 0 12 t && decide (t.trace.reverse.drop 8 = [.wc 0x05, .wd 0x55, .wc 0x04, .wc 0x05]) &&
    decide (t.port.ctrl = 0x05) && decide (t.dev.mem = [(0x1234, 0x55)])) = true := by decide

/-- 2.3: a second write completes the first, and a read of the first address shows the pattern of the second. -/
theorem test_fastwrite_overtakes :
    let s := after (.fastwrite 6 1) (after (.fastwrite 5 0) (start (.slow 3) []))
    s.dev.mem = [(5, 0)] ∧ (after (.readbyte 5) s).resp = 0x0081 := by decide

/-- W2: slow(2): read-backs D5, D5, 55; ninety events. W6: faulty(0xFE): VerifyMismatch after one read-back. -/
theorem test_writebyte_polls_and_verifies :
    ran (.writebyte 0x1234 0x55) (start (.slow 2) []) (fun t => answered 0 90 t && decide (t.dev.mem = [(0x1234, 0x55)]) &&
      decide (t.trace.filter (fun e => match e with | .rd _ => true | _ => false) = [.rd 0x55, .rd 0xD5, .rd 0xD5])) = true ∧
    ran (.writebyte 0x0200 0x0F) (start (.faulty 0xFE) []) (fun t => answered 0x3000 44 t &&
      decide (t.dev.mem = [(0x0200, 0x0E)])) = true := by decide

/-- W4 with POLL_LIMIT = 2: slow(1) is Ok, slow(2) TimedOut with the byte then in place, 67 events each. -/
theorem test_writebyte_poll_bound :
    ran (.writebyte 0x0010 0x00) (startWithLimit 2 (.slow 1)) (answered 0 67) = true ∧
    ran (.writebyte 0x0010 0x00) (startWithLimit 2 (.slow 2)) (fun t => answered 0x2000 67 t &&
      decide (t.dev.mem = [(0x0010, 0)]) && decide (t.dev.pend = .none)) = true := by decide

/-! ## Blocks (2.6) -/

/-- READBLOCK 0x7FFB, 10 is clipped to five bytes; the rest of BUF is kept; 1025 is illegal. -/
theorem test_readblock_clips :
    ran (.readblock 0x7FFB 10) (withBuffer (start .contract
      [(0x7FFB, 0x11), (0x7FFC, 0x22), (0x7FFD, 0x33), (0x7FFE, 0x44), (0x7FFF, 0x55)]) [0, 0, 0, 0, 0, 0x66]) (fun t =>
      answered 0x0005 115 t && decide (bufferPrefix t.buf 7 = [0x11, 0x22, 0x33, 0x44, 0x55, 0x66])) = true ∧
    ran (.readblock 0 1025) (start .contract []) (answered 0x7000 0) = true := by decide

/-- P4 from its fourth byte on: two of three bytes written, Ok, 88 events. -/
theorem test_writeblock_clips :
    ran (.writeblock 0x7FFE 3) (withBuffer (start .ideal []) [0x44, 0x55]) (fun t =>
      answered 0x0002 88 t && decide (t.dev.mem = [(0x7FFE, 0x44), (0x7FFF, 0x55)])) = true := by decide

/-- 2.6 from its second byte on: on faulty(0xFE) the byte 0x31 fails its verify, is not counted, and the next is never tried. -/
theorem test_writeblock_stops :
    ran (.writeblock 0x0101 3) (withBuffer (start (.faulty 0xFE) []) [0x20, 0x31, 0x40]) (fun t =>
      answered 0x3001 88 t && decide (t.dev.mem = [(0x101, 0x20), (0x102, 0x30)])) = true := by decide

/-! ## ERASE (2.7), in the pieces the kernel can run -/

/-- Address 63 ends a batch: its write is followed by the pause. -/
theorem test_erase_batch_end : (match eraseSweep (.running 7 1) 1 63 (start .ideal []) with
    | .ok t => decide (t.trace.reverse.drop 11 = [.wc 0x05, .delay 20000])
    | .error _ => false) = true := by decide

/-- Address 1023 ends a batch and a progress interval: the pause first, then Progress 1024. -/
theorem test_erase_progress : (match eraseSweep (.running 7 1) 1 1023 (start .stuck [(1023, 0)]) with
    | .ok t => decide (t.trace.reverse.drop 12 = [.delay 20000, .progress 1024])
    | .error _ => false) = true := by decide

/-! ## Illegal commands (2.1) -/

theorem test_illegal_words :
    [0x00000000, 0x80000000, 0xF0001234, 0x28007AF0, 0x12007AF0, 0x14007AF0, 0x10147AF0, 0x40027AF0, 0x70000001, 0x78000000,
      0x58020000].all (fun w => nextHas (issueWord w (start .contract [])) (answered 0x7000 0)) = true := by decide

/-! ## PARSELINE (2.8): characters in ASCII -/

/-- What PARSELINE hands the host for a line. -/
def parsedOf (line : List Byte) : ParseResult := (after (decodeLine line) (start .contract [])).parsed

/-- `S105fffeA1b2`, `S1030000`, `S104123455ZZ`. -/
theorem test_parse_records :
    parsedOf [0x53, 0x31, 0x30, 0x35, 0x66, 0x66, 0x66, 0x65, 0x41, 0x31, 0x62, 0x32] = .record 0xFFFE [0xA1, 0xB2] ∧
    parsedOf [0x53, 0x31, 0x30, 0x33, 0x30, 0x30, 0x30, 0x30] = .record 0x0000 [] ∧
    parsedOf [0x53, 0x31, 0x30, 0x34, 0x31, 0x32, 0x33, 0x34, 0x35, 0x35, 0x5A, 0x5A] = .record 0x1234 [0x55] := by decide

/-- `S1020000`, `S1`, `S10`, `S103`, `S10412345`, `S10412G455`, `S1041234 A`. -/
theorem test_parse_malformed :
    parsedOf [0x53, 0x31, 0x30, 0x32, 0x30, 0x30, 0x30, 0x30] = .malformed ∧ parsedOf [0x53, 0x31] = .malformed ∧
    parsedOf [0x53, 0x31, 0x30] = .malformed ∧ parsedOf [0x53, 0x31, 0x30, 0x33] = .malformed ∧
    parsedOf [0x53, 0x31, 0x30, 0x34, 0x31, 0x32, 0x33, 0x34, 0x35] = .malformed ∧
    parsedOf [0x53, 0x31, 0x30, 0x34, 0x31, 0x32, 0x47, 0x34, 0x35, 0x35] = .malformed ∧
    parsedOf [0x53, 0x31, 0x30, 0x34, 0x31, 0x32, 0x33, 0x34, 0x20, 0x41] = .malformed := by decide

/-- `S0` alone, `S0ZZ`, `S5030001FB`, `S`, the empty line, `s1041234AA`, a leading blank. -/
theorem test_parse_skipped :
    parsedOf [0x53, 0x30] = .skipped ∧ parsedOf [0x53, 0x30, 0x5A, 0x5A] = .skipped ∧
    parsedOf [0x53, 0x35, 0x30, 0x33, 0x30, 0x30, 0x30, 0x31, 0x46, 0x42] = .skipped ∧ parsedOf [0x53] = .skipped ∧
    parsedOf [] = .skipped ∧ parsedOf [0x73, 0x31, 0x30, 0x34, 0x31, 0x32, 0x33, 0x34, 0x41, 0x41] = .skipped ∧
    parsedOf [0x20, 0x53, 0x31, 0x30, 0x34] = .skipped := by decide

/-! ## Launch premises violated (2.9) -/

theorem test_floating_capture :
    let s := start .contract []
    faultIs (exec (.setaddr 0 .sel) { s with port.dir := .inp }) .floatingCapture = true ∧
    faultIs (exec (.setaddr 0 .sel) { s with port.ctrl := 0x04, port.fselKnown := true }) .floatingCapture = true := by decide

/-! ## Host procedures -/

/-- A host procedure ends with this result, these bytes emitted. -/
def hostEnds (o : Host.Outcome HostRun Fault Refusal) (result : HostResult) (emitted : List Byte) (p : State → Bool) : Bool :=
  match o with
  | .next r => decide (r.result = result) && decide (r.emitted = emitted) && p r.state
  | .fault _ | .refused _ => false

/-- The line `S1047FFF55`: one byte 0x55 at the last address. -/
def lastByteRecord : List Byte := [0x53, 0x31, 0x30, 0x34, 0x37, 0x46, 0x46, 0x46, 0x35, 0x35]

/-- 60_exceptions.md R200: the codes and counts of the host's results. -/
theorem test_host_codes :
    (HostResult.ok 3).code = some 0 ∧ HostResult.outOfRange.code = some 1 ∧ HostResult.tooLarge.code = none ∧
    (HostResult.shortTransfer 2 9 none 5).code = some 4 ∧ (HostResult.shortTransfer 2 9 none 5).moved = 5 ∧
    (HostResult.failed 3 9 1 6).code = some 3 ∧ (HostResult.srecMalformed 2 7).code = some 6 ∧
    (HostResult.srecMalformed 2 7).moved = 7 := by decide

/-- 45_host_procedures.md R191: two READBYTEs, one unlisted byte. -/
theorem test_readRange : hostEnds (readRange 0x7FFE 0x7FFF (start .ideal [(0x7FFE, 0x12)])) (.ok 2) [0x12, 0xFF]
    (fun t => decide (t.trace.length = 46)) = true := by decide

/-- R192: an image past the end comes back short with `CODE = Ok`. -/
theorem test_writeRange_clips : hostEnds (writeRange 0x7FFF [0x12, 0x34] (start .ideal []))
    (.shortTransfer 0 0x8000 (some 0x34) 1) [] (fun t => decide (t.trace.length = 44)) = true := by decide

/-- R194: `S0`, `S10412345A00` (one byte 0x5A at 0x1234), `S9`. -/
theorem test_srecWrite : hostEnds (srecWrite [[0x53, 0x30],
    [0x53, 0x31, 0x30, 0x34, 0x31, 0x32, 0x33, 0x34, 0x35, 0x41, 0x30, 0x30], [0x53, 0x39]] (start .ideal []))
    (.ok 1) [] (fun t => decide (t.dev.mem = [(0x1234, 0x5A)]) && decide (t.trace.length = 44)) = true := by decide

/-! ## Witnesses: for every statement with hypotheses, a state and operands that meet them all, each clause at a boundary -/

/-- A port that has latched an address and a byte: strobe set, DIR = out, every element with a value. -/
def latchedPort : State := after (.setaddr 0x7FFF .sel) (start .ideal [])

/-- The same with the function line `f` active. -/
def lineActive (f : Fn) : State := { latchedPort with port.ctrl := ctl Config.default f 0#1 }

/-- 20_memory.md R67: with the strobe clear, selecting another function is a trailing edge of the first (LOW to HIGH), and of LOW
to OE on a selected device with DIR = out ends in contention after it (R70 (d)). -/
theorem test_edge_rule_function_changed :
    (match writeControl 0xFA { lineActive .low with port.data := 0x5A } with
      | .ok t => decide (t.port.latchLo = 0x5A) && decide (t.port.ctrl = 0xFA)
      | .error _ => false) = true ∧
    (match writeControl 0x06 (lineActive .low) with
      | .ok _ => false
      | .error f => decide (f = .busContention)) = true := by decide

theorem witness_DecodeOfEncodeIsTheInstruction :
    Instr.wf (.parseOther [0x53, 0x3A]) = true ∧ Instr.wf (.readblock 0x1FFFF 2047) = true := by decide

theorem witness_EncodeOfDecodeIsTheWord : decodeWord 0x5FFFFFFF = .ok (.readblock 0x1FFFF 2047) := by decide

theorem witness_IllegalWordsAnswerIllegalCommand :
    wordIsIllegal Config.default 0x58020000 = true ∧ wordIsIllegal Config.default 0x58000000 = false ∧
    wordIsIllegal Config.default 0x70000001 = true ∧ wordIsIllegal Config.default 0x70000000 = false ∧
    wordIsIllegal Config.default 0x80000000 = true ∧ wordIsIllegal Config.default 0x0FFFFFFF = true := by decide

theorem witness_StepRunsTheDecodedInstruction :
    ({ start .ideal [] with inbox := [.command 0x70000000] } : State).inbox = .command 0x70000000 :: [] ∧
    decodeWord 0x70000000 = .ok .erase ∧
    ({ start .ideal [] with inbox := [.line [0x53, 0x31]] } : State).inbox = .line [0x53, 0x31] :: [] ∧
    decodeLine [0x53, 0x31] = .parseS1 [] := by decide

/-- No move; a rejected word; a fill at the last index and at the first that does not exist. -/
theorem witness_StepWithoutAnInstruction :
    (start .ideal []).inbox = [] ∧ decodeWord 0x12007AF0 = .error .nonzeroZ ∧
    1023 < (start .ideal []).cfg.blockSize ∧ (start .ideal []).cfg.blockSize ≤ 1024 ∧
    nextHas (step { start .ideal [] with inbox := [.fill 1023 7] }) (fun t => decide (Buffer.get t.buf 1023 = some 7)) = true ∧
    faultIs (step { start .ideal [] with inbox := [.fill 1024 7] }) .noBufferElement = true := by decide

theorem witness_InvariantHoldsAtLaunch : Config.default.wf = true ∧ Memory.wf [(0, 0), (32767, 0xFE)] = true := by decide

theorem witness_EveryStepKeepsTheInvariant :
    ∃ t, step { start .ideal [(32767, 0)] with inbox := [.command 0x10007FFF] } = .next t ∧
      State.inv { start .ideal [(32767, 0)] with inbox := [.command 0x10007FFF] } = true := by
  obtain ⟨t, ht, -⟩ := nextHas_next (o := step { start .ideal [(32767, 0)] with inbox := [.command 0x10007FFF] })
    (p := fun _ => true) (by decide)
  exact ⟨t, ht, by decide⟩

/-- WRITEBLOCK across the end of the device with the one byte it uses in the buffer; nothing in it where it uses none. -/
theorem witness_EveryInstructionCompletes :
    (withBuffer (start .ideal []) [1]).inv = true ∧
    (withBuffer (start .ideal []) [1]).filled (clipped (0x7FFF#17).toNat (2#11).toNat) = true ∧
    (start .ideal []).inv = true ∧ (start .ideal []).filled (clipped (0x8000#17).toNat (3#11).toNat) = true := by decide

theorem witness_NoPortFaultFromTheInvariant :
    State.inv { start .ideal [] with inbox := [.command 0x60020000] } = true ∧
    faultIs (step { start .ideal [] with inbox := [.command 0x60020000] }) (.noValue .buffer) = true ∧
    faultIs (step { start .ideal [] with inbox := [.fill 1024 0] }) .noBufferElement = true := by decide

theorem witness_ParametersAreConstant :
    ∃ t, step { start (.slow 3) [] with inbox := [.command 0x30000005] } = .next t ∧ t.dev.kind = .slow 3 := by
  obtain ⟨t, ht, hk⟩ := nextHas_next (o := step { start (.slow 3) [] with inbox := [.command 0x30000005] })
    (p := fun t => decide (t.dev.kind = .slow 3)) (by decide)
  exact ⟨t, ht, by simpa using hk⟩

theorem witness_NoInstructionReadsResp :
    (∃ t, exec (.readbyte 0x7FFF) (start .ideal []) = .next t ∧ t.resp = 0x00FF) ∧
    (∃ t, exec (.parseS1 []) (start .ideal []) = .next t ∧ t.resp = 0) ∧
    exec (.writeblock 0 1) (start .ideal []) = .fault (.noValue .buffer) := by
  refine ⟨?_, ?_, faultIs_fault (by decide)⟩
  · obtain ⟨t, ht, hr⟩ := nextHas_next (o := exec (.readbyte 0x7FFF) (start .ideal []))
      (p := fun t => decide (t.resp = 0x00FF)) (by decide)
    exact ⟨t, ht, by simpa using hr⟩
  · obtain ⟨t, ht, hr⟩ := nextHas_next (o := exec (.parseS1 []) (start .ideal [])) (p := fun t => decide (t.resp = 0)) (by decide)
    exact ⟨t, ht, by simpa using hr⟩

theorem witness_ResponsesByOperation :
    isParse (.parseOther []) = true ∧ isParse (.writebyte 0 0) = false ∧
    ran (.parseOther []) (start .ideal []) (fun t => decide (t.resp = 0)) = true ∧
    ran (.writebyte 0x7FFF 0) (startWithLimit 1 .stuck) (fun t => decide (t.resp = 0x2000)) = true := by decide

theorem witness_ControlWritesAreTheEightBytes :
    ∃ t, exec (.setaddr 0 .sel) (start .ideal []) = .next t ∧ t.trace.length = 8 := by
  obtain ⟨t, ht, hr⟩ := nextHas_next (o := exec (.setaddr 0 .sel) (start .ideal []))
    (p := fun t => decide (t.trace.length = 8)) (by decide)
  exact ⟨t, ht, by simpa using hr⟩

theorem witness_FunctionLineActivity :
    Config.wf { Config.default with fnLow := 3, fnOe := 0 } = true ∧ (0x07 : Byte).getLsbD 0 = true := by decide

theorem witness_WriteDataAndSetDirection :
    strobeSet (start .ideal []).port.ctrl = true ∧
    (match writeData 7 (start .ideal []) with | .ok t => decide (t.port.data = 7) | .error _ => false) = true ∧
    (match setDirection .inp (start .ideal []) with | .ok t => decide (t.port.dir = .inp) | .error _ => false) = true := by
  decide

/-- Both latches: the strobe set again, the other function selected with the strobe clear and RSV bits set, OE activated; floating
(DIR = in, and DATA without a value). -/
theorem witness_LatchCaptureAtTheTrailingEdge :
    let ok (f : Fn) := lineActive f
    let floating (f : Fn) : State := { lineActive f with port.dir := .inp }
    let noData (f : Fn) : State := { lineActive f with port.dataKnown := false }
    ([Fn.low, Fn.high].all fun f =>
      (ok f).port.fselKnown && decide (lineUnder (ok f).cfg (ok f).port.ctrl = some f) &&
        ([0x01, 0xFC, 0x06].all fun c => decide (lineUnder (ok f).cfg c ≠ some f)) &&
        decide ((ok f).port.dir = .out) && (ok f).port.dataKnown && decide ((floating f).port.dir = .inp) &&
        decide ((noData f).port.dataKnown = false)) = true := by decide

/-- Selected, not selected, high latch without a value, selected with DIR = in; the strobe set again, and OE activated. -/
theorem witness_WriteCommitAtTheTrailingEdge :
    let s := lineActive .we
    let other := { s with port.latchHi := 0x80 }
    s.port.fselKnown = true ∧ lineUnder s.cfg s.port.ctrl = some .we ∧ lineUnder s.cfg 0x05 ≠ some .we ∧
    lineUnder s.cfg 0x06 ≠ some .we ∧ s.port.latchHiKnown = true ∧
    csPin s.port = s.cfg.csSelLevel ∧ s.port.latchLoKnown = true ∧ s.port.dataKnown = true ∧ s.port.dir = .out ∧
    csPin other.port ≠ other.cfg.csSelLevel ∧
    ({ s with port.latchHiKnown := false } : State).port.latchHiKnown = false ∧
    ({ s with port.dir := .inp } : State).port.dir = .inp := by decide

/-- Strobe set; the same line kept active with RSV bits set; OE going inactive; FSEL without a value. -/
theorem witness_ControlWriteWithoutACapture :
    let low := lineActive .low
    let oe := { lineActive .oe with port.dir := .inp }
    strobeSet latchedPort.port.ctrl = true ∧ low.port.fselKnown = true ∧
    lineUnder low.cfg low.port.ctrl = lineUnder low.cfg 0xF8 ∧ oe.port.fselKnown = true ∧
    lineUnder oe.cfg oe.port.ctrl = some .oe ∧ strobeSet low.port.ctrl = false ∧
    ({ low with port.fselKnown := false } : State).port.fselKnown = false := by decide

/-- The four cases of 20_memory.md R70. -/
theorem witness_DataLineResolution :
    let a := latchedPort
    let b := { lineActive .oe with port.dir := .inp }
    let c := { latchedPort with port.dir := .inp }
    let d := lineActive .oe
    ([a, b, c, d].all fun s => s.cfg.wf && s.port.dataKnown && s.port.fselKnown && s.port.latchLoKnown &&
      s.port.latchHiKnown) = true ∧
    (a.port.dir = .out ∧ lineUnder a.cfg a.port.ctrl ≠ some .oe) ∧
    (b.port.dir = .inp ∧ lineUnder b.cfg b.port.ctrl = some .oe ∧ csPin b.port = b.cfg.csSelLevel) ∧
    (c.port.dir = .inp ∧ lineUnder c.cfg c.port.ctrl ≠ some .oe) ∧
    (d.port.dir = .out ∧ lineUnder d.cfg d.port.ctrl = some .oe ∧ csPin d.port = d.cfg.csSelLevel) := by decide

theorem witness_DirectionBeforeOutputEnable :
    let s := latchedPort
    let t := { lineActive .oe with port.dir := .inp }
    s.cfg.wf = true ∧ s.port.latchLoKnown = true ∧ s.port.latchHiKnown = true ∧ csPin s.port = s.cfg.csSelLevel ∧
    strobeSet s.port.ctrl = true ∧ s.port.dir = .out ∧ t.port.fselKnown = true ∧ t.port.ctrl = ctl t.cfg .oe 0#1 ∧
    csPin t.port = t.cfg.csSelLevel := by decide

theorem witness_DeviceReadContract :
    ({ mem := [], pend := .none, kind := .contract } : Device).kind ≠ .oracle ∧
    ({ mem := [], pend := .busy 0x7FFF 0x80 .infinite, kind := .stuck } : Device).pend = .busy 0x7FFF 0x80 .infinite := by decide

/-- A budget of 0 and a budget that is not. -/
theorem witness_DeviceWriteContract :
    DeviceKind.keepsContract .ideal = true ∧ DeviceKind.budget 0 .ideal = .finite 0 ∧
    DeviceKind.keepsContract .stuck = true ∧ DeviceKind.budget 0 .stuck ≠ .finite 0 ∧
    DeviceKind.budget 0 (.slow 1) ≠ .finite 0 := by decide

/-- A budget about to run out, one that is not, a delay of exactly T_DEV_WC and one just below. -/
theorem witness_WriteCycleCompletion :
    ({ mem := [], pend := .busy 0 1 (.finite 1), kind := .contract } : Device).pend = .busy 0 1 (.finite 1) ∧
    ({ mem := [], pend := .busy 0 1 (.finite 2), kind := .contract } : Device).pend = .busy 0 1 (.finite (0 + 2)) ∧
    10000 ≤ 10000 ∧ 9999 < 10000 ∧ DeviceKind.keepsContract .contract = true := by decide

/-- Both sides of DEVICE_SIZE, with a quiescent port and parameters within their constraints. -/
theorem witness_SetaddrLatchesOrRejects :
    deviceSize ≤ (0x8000#17).toNat ∧ (0x7FFF#17).toNat < deviceSize ∧ (start .contract []).cfg.wf = true ∧
    (start .contract []).quiescent = true := by decide

theorem witness_SetaddrDrivesThePins :
    ∃ t, exec (.setaddr 0x7FFF .sel) (start .contract []) = .next t ∧ (0x7FFF#17).toNat < deviceSize ∧
      (start .contract []).cfg.wf = true ∧ (start .contract []).quiescent = true := by
  obtain ⟨t, ht, -⟩ := nextHas_next (o := exec (.setaddr 0x7FFF .sel) (start .contract [])) (p := fun _ => true) (by decide)
  exact ⟨t, ht, by decide⟩

theorem witness_ByteOperationsRejectOutOfRange : deviceSize ≤ (0x8000#17).toNat ∧ deviceSize ≤ (0x1FFFF#17).toNat := by decide

theorem witness_FastwriteCommitsUnverified : deviceSize ≤ (0x8000#17).toNat ∧
    (0x7FFF#17).toNat < deviceSize ∧ (start .ideal []).cfg.wf = true ∧ (start .ideal []).quiescent = true := by decide

theorem witness_ReadbyteSamplesOnce : deviceSize ≤ (0x8000#17).toNat ∧
    (0x0000#17).toNat < deviceSize ∧ (start .oracle []).cfg.wf = true ∧ (start .oracle []).quiescent = true := by decide

theorem witness_WritebytePollsThenVerifies :
    (0x7FFF#17).toNat < deviceSize ∧ (startWithLimit 1 .contract).cfg.wf = true ∧
    (startWithLimit 1 .contract).quiescent = true := by decide

/-- n one below POLL_LIMIT and n equal to it. -/
theorem witness_SlowDeviceMeetsThePollBound :
    ([99, 100].all fun n => let s := start (.slow n) []
      s.cfg.wf && s.quiescent && decide (s.dev.kind = .slow n) && decide (s.cfg.tWriteSettle < s.cfg.tDevWc) &&
        decide (s.cfg.tOeSettle < s.cfg.tDevWc)) = true ∧
    99 < (start .ideal []).cfg.pollLimit ∧ (start .ideal []).cfg.pollLimit ≤ 100 ∧ (0x7FFF#17).toNat < deviceSize := by decide

/-- With no write pending, and with one pending at the byte itself that will never land. -/
theorem witness_StuckDeviceTimesOutExactly :
    (0x0010#17).toNat < deviceSize ∧ (start .stuck []).cfg.wf = true ∧ (start .stuck []).quiescent = true ∧
    (start .stuck []).dev.kind ≠ .oracle ∧
    (start .stuck []).dev.kind.budget (start .stuck []).draws = .infinite ∧ (start .stuck []).dev.landsAt 0x0010 = false ∧
    ({ start .stuck [] with dev.pend := .busy 0x0010 1 .infinite } : State).dev.landsAt 0x0010 = false ∧
    ({ start .stuck [] with dev.pend := .busy 0x0010 1 (.finite 1) } : State).dev.landsAt 0x0010 = true := by decide

theorem witness_ContractExcludesVerifyMismatch :
    (0x7FFF#17).toNat < deviceSize ∧ (start .contract []).cfg.wf = true ∧ (start .contract []).quiescent = true ∧
    (start .contract []).dev.kind.keepsContract = true := by decide

/-- The three outcomes of a faulty cell: none, one below bit 7, bit 7 (W6). -/
theorem witness_FaultyDeviceIsCaught :
    (0x0200#17).toNat < deviceSize ∧ (start (.faulty 0xFE) []).cfg.wf = true ∧ (start (.faulty 0xFE) []).quiescent = true ∧
    (start (.faulty 0xFE) []).dev.kind = .faulty 0xFE ∧
    (0x0E#8 &&& 0xFE = 0x0E#8) ∧ (0x0F#8 &&& 0xFE ≠ 0x0F#8 ∧ ((0x0F#8 &&& 0xFE) ^^^ 0x0F).getLsbD 7 = false) ∧
    ((0x8F#8 &&& 0x7F) ^^^ 0x8F#8).getLsbD 7 = true := by decide

theorem witness_WriteThenReadRoundTrip :
    ∃ t, exec (.writebyte 0x7FFF 0x80) (start .ideal []) = .next t ∧ t.resp = respWord .ok 0 ∧ (0x7FFF#17).toNat < deviceSize ∧
      (start .ideal []).cfg.wf = true ∧ (start .ideal []).quiescent = true ∧
      (start .ideal []).dev.kind.keepsContract = true := by
  obtain ⟨t, ht, hr⟩ := nextHas_next (o := exec (.writebyte 0x7FFF 0x80) (start .ideal []))
    (p := fun t => decide (t.resp = respWord .ok 0)) (by decide)
  exact ⟨t, ht, by simpa using hr, by decide⟩

theorem witness_IdleReadsAreIdempotent :
    (0x7FFF#17).toNat < deviceSize ∧ (start .contract [(32767, 1)]).cfg.wf = true ∧
    (start .contract [(32767, 1)]).quiescent = true ∧ (start .contract [(32767, 1)]).dev.pend = .none ∧
    (start .contract [(32767, 1)]).dev.kind ≠ .oracle := by decide

theorem witness_ByteOperationFrame :
    (∃ t, exec (.fastwrite 0x0100 0x42) (start .ideal []) = .next t ∧ t.resp = 0) ∧
    (start .ideal []).cfg.wf = true ∧ (start .ideal []).quiescent = true ∧
    deviceAddress (0x0100#17).toNat ≠ some 0x0101 ∧ (start .ideal []).dev.landsAt 0x0101 = false := by
  obtain ⟨t, ht, hr⟩ := nextHas_next (o := exec (.fastwrite 0x0100 0x42) (start .ideal []))
    (p := fun t => decide (t.resp = 0)) (by decide)
  exact ⟨⟨t, ht, by simpa using hr⟩, by decide⟩

theorem witness_WorkingRegisterFrame :
    (start .ideal []).cfg.wf = true ∧ (start .ideal []).quiescent = true ∧ isParse (.parseS1 []) = true ∧
    ran (.setaddr 0 .sel) (start .ideal []) (fun t => decide (t.work.opR = 1)) = true ∧
    ran (.setaddr 0x8000 .sel) (start .ideal []) (fun t => decide (t.work.opR = 0)) = true ∧
    ran (.fastwrite 0 1) (start .ideal []) (fun t => decide (t.work.valR = 1)) = true ∧
    ran (.readbyte 0) (start .ideal []) (fun t => decide (t.work.rbR = 0xFF)) = true ∧
    ran (.writebyte 0 1) (start .ideal []) (fun t => decide (t.work.pollR = 1)) = true ∧
    ran (.readblock 0 1) (start .ideal []) (fun t => decide (t.work.idxR = 1)) = true ∧
    ran (.readblock 0 1025) (start .ideal []) (fun t => decide (t.work.cntR = 0)) = true ∧
    ran (.writeblock 0 1) (withBuffer (start .ideal []) [1]) (fun t => decide (t.work.idxR = 1)) = true := by decide

theorem witness_BlockCountMustFitTheBuffer : (start .ideal []).cfg.blockSize < (1025#11).toNat := by decide

theorem witness_ReadblockClipsAndFillsTheBuffer :
    (1024#11).toNat ≤ (start .contract []).cfg.blockSize ∧ (start .contract []).cfg.wf = true ∧
    (start .contract []).quiescent = true ∧ clipped (0x8000#17).toNat (4#11).toNat = 0 ∧
    0 < clipped (0x7FFF#17).toNat (4#11).toNat := by decide

theorem witness_ReadblockCopiesAnIdleDevice :
    (1#11).toNat ≤ (start .contract [(32767, 5)]).cfg.blockSize ∧ (start .contract [(32767, 5)]).cfg.wf = true ∧
    (start .contract [(32767, 5)]).quiescent = true ∧ (start .contract [(32767, 5)]).dev.pend = .none ∧
    (start .contract [(32767, 5)]).dev.kind ≠ .oracle := by decide

/-- One byte before the end of the device, and none beyond it. -/
theorem witness_WriteblockStopsAtTheFirstFailure :
    (2#11).toNat ≤ (start .contract []).cfg.blockSize ∧ (start .contract []).cfg.wf = true ∧ (start .contract []).quiescent = true ∧
    (withBuffer (start .contract []) [9]).filled (clipped (0x7FFF#17).toNat (2#11).toNat) = true ∧
    (start .contract []).filled (clipped (0x8000#17).toNat (2#11).toNat) = true := by decide

/-- Filled, and one byte short. -/
theorem witness_WriteblockOnAnIdealDevice :
    (2#11).toNat ≤ (start .ideal []).cfg.blockSize ∧ (start .ideal []).cfg.wf = true ∧ (start .ideal []).quiescent = true ∧
    (start .ideal []).dev.kind = .ideal ∧ (withBuffer (start .ideal []) [1, 2]).filled (clipped (0#17).toNat (2#11).toNat) = true ∧
    (withBuffer (start .ideal []) [1]).filled (clipped (0#17).toNat (2#11).toNat) = false := by decide

theorem witness_EraseSweepsTheDevice : (start .oracle []).cfg.wf = true ∧ (start .oracle []).quiescent = true := by decide

/-- The default pause against the default write cycle, and a pause exactly as long as the write cycle. -/
theorem witness_EraseLeavesEveryByteBlank :
    let s := start (.slow 5) [(0, 0)]
    let equal := { Config.default with tErasePause := Config.default.tDevWc }
    s.cfg.wf = true ∧ s.quiescent = true ∧ s.cfg.tDevWc ≤ s.cfg.tErasePause ∧ equal.wf = true ∧
    equal.tDevWc = equal.tErasePause ∧ s.dev.kind.keepsContract = true ∧ s.dev.kind.alwaysCompletes 0 :=
  ⟨by decide, by decide, by decide, by decide, by decide, by decide, trivial⟩

/-- With no write pending, and with one pending at the byte that ERASE abandons. -/
theorem witness_EraseDoesNotVerify :
    (start .stuck [(5, 0)]).cfg.wf = true ∧ (start .stuck [(5, 0)]).quiescent = true ∧ (start .stuck [(5, 0)]).dev.kind = .stuck ∧
    (start .stuck [(5, 0)]).dev.landsAt 5 = false ∧
    ({ start .stuck [(5, 0)] with dev.pend := .busy 5 1 .infinite } : State).dev.landsAt 5 = false := by decide

theorem witness_OtherRecordsAreSkipped : Instr.wf (.parseOther [0x53]) = true := by decide

/-- Two upper-case hex digits of a byte (30_encoding.md R104, R105). -/
def hexDigits (b : Byte) : List Byte :=
  let digit (d : Nat) : Byte := if d < 10 then BitVec.ofNat 8 (0x30 + d) else BitVec.ofNat 8 (0x41 + d - 10)
  [digit (b.toNat / 16), digit (b.toNat % 16)]

/-- Counts 3 (no payload) and 4 (one byte). -/
theorem witness_WrittenRecordIsReadBack :
    (∀ b, ∃ h l dh dl, hexDigits b = [h, l] ∧ nibble h = some dh ∧ nibble l = some dl ∧ b = dh ++ dl) ∧
    3 ≤ (3 : Byte).toNat ∧ ([] : List Byte).length = (3 : Byte).toNat - 3 ∧ 3 ≤ (4 : Byte).toNat ∧
    [(0x55 : Byte)].length = (4 : Byte).toNat - 3 := by
  refine ⟨?_, by decide⟩
  have key : ∀ b : Byte, nibble ((hexDigits b).getD 0 0) = some (b.extractLsb' 4 4) ∧
      nibble ((hexDigits b).getD 1 0) = some (b.extractLsb' 0 4) := by decide
  intro b
  exact ⟨_, _, _, _, rfl, (key b).1, (key b).2, (BitVec.extractLsb'_append_extractLsb' (x := b) (w := 4) (len := 4)).symm⟩

/-- The three refusals, each at its boundary. -/
theorem witness_HostChecksComeFirst :
    ¬(1 ≤ 0 ∧ 0 < deviceSize) ∧ ¬(0 ≤ 32768 ∧ 32768 < deviceSize) ∧
    deviceSize < (List.replicate (deviceSize + 1) (0 : Byte)).length ∧
    ([] : List Byte).length ≤ deviceSize ∧ deviceSize ≤ 32768 :=
  ⟨by decide, by decide, by rw [List.length_replicate]; exact Nat.lt_succ_self _, by decide, by decide⟩

theorem witness_ReadRangeIsVerbatim :
    32767 ≤ 32767 ∧ 32767 < deviceSize ∧ (start .contract [(32767, 1)]).cfg.wf = true ∧
    (start .contract [(32767, 1)]).quiescent = true ∧ (start .contract [(32767, 1)]).dev.pend = .none ∧
    (start .contract [(32767, 1)]).dev.kind ≠ .oracle := by decide

/-- An image that fits exactly, and one that runs one byte past the end of the device. -/
theorem witness_WriteRangeStoresTheImage :
    0x7FFF < deviceSize ∧ [(1 : Byte), 2].length ≤ deviceSize ∧ (start .ideal []).cfg.wf = true ∧
    (start .ideal []).quiescent = true ∧ (start .ideal []).dev.kind = .ideal ∧ 0x7FFF + [(1 : Byte)].length ≤ deviceSize ∧
    deviceSize < 0x7FFF + [(1 : Byte), 2].length := by decide

/-- `S1047FFF55` then `S1`, and skipped lines before it. -/
theorem witness_SrecFileStopsAtAMalformedLine :
    parseLine [0x53, 0x30] = .skipped ∧ parseLine [] = .skipped ∧ parseLine [0x53, 0x31] = .malformed ∧
    hostEnds (srecLines 7 [lastByteRecord] 5 (start .ideal [])) (.ok 6) [] (fun _ => true) = true ∧
    hostEnds (srecLines 7 [lastByteRecord, [0x53, 0x31], lastByteRecord] 5 (start .ideal [])) (.srecMalformed 8 6) []
      (fun t => decide (t.dev.mem = [(0x7FFF, 0x55)])) = true := by decide

/-- A record that fails at its first byte (a stuck device under a bound of one read-back), and one of two bytes from 0x7FFF on. -/
theorem witness_SrecFileStopsAtTheFirstFailingByte :
    let s := startWithLimit 1 .stuck
    parseLine lastByteRecord = .record 0x7FFF [0x55] ∧ [(0x55 : Byte)][0]? = some 0x55 ∧
    writePayload 0x7FFF [] 3 s = .next (.written 3 s) ∧
    ran (.writebyte 0x7FFF 0x55) s (fun t => decide (respCode t.resp ≠ 0)) = true ∧
    (start .ideal []).cfg.wf = true ∧ (start .ideal []).quiescent = true ∧ (start .ideal []).dev.kind = .ideal ∧
    parseLine [0x53, 0x31, 0x30, 0x35, 0x37, 0x46, 0x46, 0x46, 0x35, 0x35, 0x36, 0x36] = .record 0x7FFF [0x55, 0x66] ∧
    0 < [(0x55 : Byte), 0x66].length ∧ deviceSize < (0x7FFF#16).toNat + [(0x55 : Byte), 0x66].length :=
  ⟨by decide, by decide, rfl, by decide, by decide, by decide, by decide, by decide, by decide, by decide⟩

/-- A record of one byte at the last address. -/
theorem witness_SrecRecordIsWrittenByteByByte :
    (start .ideal []).cfg.wf = true ∧ (start .ideal []).quiescent = true ∧ (start .ideal []).dev.kind = .ideal ∧
    parseLine lastByteRecord = .record 0x7FFF [0x55] ∧
    (0x7FFF#16).toNat + [(0x55 : Byte)].length ≤ deviceSize := by decide

end Sys2Proof.Tests
end

section
/-! PROOFS. What every instruction leaves alone, from any state: the frame of Laws/Frame.lean carried from the shared operations
to `exec`. -/

namespace Sys2Proof.Machine

/-- What any instruction leaves alone: a block operation may fill the buffer, an operation answers in RESP and PARSELINE hands
over its result, so those four fields of `Frame` are not here. -/
structure ExecFrame (s t : State) : Prop where
  cfg : t.cfg = s.cfg
  kind : t.dev.kind = s.dev.kind
  status : t.port.status = s.port.status
  inbox : t.inbox = s.inbox
  trace : ∃ new, t.trace = new ++ s.trace ∧ ∀ c, Event.wc c ∈ new → ∃ f b, c = ctl s.cfg f b

variable {s t : State}

theorem Frame.execFrame (h : Frame s t) : ExecFrame s t := ⟨h.cfg, h.kind, h.status, h.inbox, h.trace⟩

theorem ExecFrame.conclude (h : ExecFrame s t) (code : OutcomeCode) (value : BitVec 11) :
    ExecFrame s (conclude code value t) := ⟨h.cfg, h.kind, h.status, h.inbox, h.trace⟩

theorem answer_execFrame (code : OutcomeCode) (value : BitVec 11) (s : State) : ExecFrame s (answer code value s) :=
  ⟨rfl, rfl, rfl, rfl, [], rfl, by simp⟩

theorem begin_frame (op : BitVec 4) (load : Work → Work) (s : State) : Frame s (begin op load s) := work_frame s _

theorem rejectRange_execFrame (h : rejectRange s = .next t) : ExecFrame s t := by
  cases h; exact answer_execFrame _ _ s

theorem rejectCommand_execFrame (h : rejectCommand s = .next t) : ExecFrame s t := by
  cases h; exact answer_execFrame _ _ s

theorem runParser_execFrame {line : List Byte} (h : runParser line s = .next t) : ExecFrame s t := by
  cases h; exact ⟨rfl, rfl, rfl, rfl, [], rfl, by simp⟩

/-- An operation that ends with a response keeps what the activity before the response keeps. -/
theorem finish_conclude_execFrame {α : Type} {x : Except Fault α} {code : α → OutcomeCode} {value : α → BitVec 11}
    {next : α → State} (hx : ∀ a, x = .ok a → ExecFrame s (next a))
    (h : finish (x >>= fun a => .ok (conclude (code a) (value a) (next a))) = .next t) : ExecFrame s t := by
  obtain ⟨a, ha, h⟩ := bind_eq_ok (finish_eq_next h)
  cases h
  exact (hx a ha).conclude _ _

theorem execSetaddr_execFrame {addr : AddrOperand} {cs : Sel} (h : execSetaddr addr cs s = .next t) : ExecFrame s t := by
  unfold execSetaddr at h
  split at h
  · exact rejectRange_execFrame h
  · exact finish_conclude_execFrame (fun u hu => ((begin_frame _ _ s).trans (latchAddress_frame hu)).execFrame) h

theorem execWritebyte_execFrame {addr : AddrOperand} {value : Byte} (h : execWritebyte addr value s = .next t) :
    ExecFrame s t := by
  unfold execWritebyte at h
  split at h
  · exact rejectRange_execFrame h
  · exact finish_conclude_execFrame (fun r hr => ((begin_frame _ _ s).trans (writeByte_frame hr)).execFrame) h

theorem execFastwrite_execFrame {addr : AddrOperand} {value : Byte} (h : execFastwrite addr value s = .next t) :
    ExecFrame s t := by
  unfold execFastwrite at h
  split at h
  · exact rejectRange_execFrame h
  · exact finish_conclude_execFrame (fun u hu => ((begin_frame _ _ s).trans (fastWrite_frame hu)).execFrame) h

theorem execReadbyte_execFrame {addr : AddrOperand} (h : execReadbyte addr s = .next t) : ExecFrame s t := by
  unfold execReadbyte at h
  split at h
  · exact rejectRange_execFrame h
  · exact finish_conclude_execFrame (fun u hu => ((begin_frame _ _ s).trans (readByte_frame hu)).execFrame) h

/-- READBLOCK fills the buffer; its loop's frame speaks of the state with the old buffer, and `ExecFrame` of no buffer. -/
theorem execReadblock_execFrame {addr : AddrOperand} {count : Count} (h : execReadblock addr count s = .next t) :
    ExecFrame s t := by
  unfold execReadblock at h
  split at h
  · exact rejectCommand_execFrame h
  · refine finish_conclude_execFrame (fun r hr => ?_) h
    obtain ⟨hcfg, hkind, hstatus, hinbox, htrace⟩ := ((begin_frame _ _ s).trans (readLoop_frame hr)).execFrame
    exact ⟨hcfg, hkind, hstatus, hinbox, htrace⟩

theorem execWriteblock_execFrame {addr : AddrOperand} {count : Count} (h : execWriteblock addr count s = .next t) :
    ExecFrame s t := by
  unfold execWriteblock at h
  split at h
  · exact rejectCommand_execFrame h
  · exact finish_conclude_execFrame (fun r hr => ((begin_frame _ _ s).trans (writeLoop_frame hr)).execFrame) h

theorem execErase_execFrame (h : execErase s = .next t) : ExecFrame s t := by
  obtain ⟨u, hu, h⟩ := bind_eq_ok (finish_eq_next h)
  obtain ⟨v, hv, h⟩ := bind_eq_ok h
  cases h
  exact ((begin_frame _ _ s).trans ((eraseSweep_frame hu).trans (latchAddress_frame hv))).execFrame.conclude _ _

/-- Every instruction that ends in a next state, from any state. -/
theorem exec_execFrame {i : Instr} (h : exec i s = .next t) : ExecFrame s t := by
  cases i with
  | setaddr addr cs => exact execSetaddr_execFrame h
  | writebyte addr value => exact execWritebyte_execFrame h
  | fastwrite addr value => exact execFastwrite_execFrame h
  | readbyte addr => exact execReadbyte_execFrame h
  | readblock addr count => exact execReadblock_execFrame h
  | writeblock addr count => exact execWriteblock_execFrame h
  | erase => exact execErase_execFrame h
  | illegalOp0 | illegalOp8F => exact rejectCommand_execFrame h
  | parseS1 | parseS0 | parseS2 | parseS3 | parseS4 | parseS5 | parseS6 | parseS7 | parseS8 | parseS9 | parseOther =>
    exact runParser_execFrame h

end Sys2Proof.Machine
end

section
/-! PROOFS. The control byte and the function line it activates (10_state.md R24, R25, R30). -/

namespace Sys2Proof.Machine

/-- `CTL(f, s)` in the arithmetic of 10_state.md R25: the code shifted left by one, or the strobe. -/
theorem ctl_eq_shift_or (c : Config) (f : Fn) (b : BitVec 1) :
    ctl c f b = ((c.code f).setWidth 8 <<< 1) ||| b.setWidth 8 := by
  unfold ctl
  generalize c.code f = k
  revert k b
  decide

/-- A select code stands for no function but one that has it, even where codes are not distinct. -/
theorem eq_code_of_fnOfCode {c : Config} {k : BitVec 2} {f : Fn} (h : fnOfCode c k = some f) : k = c.code f := by
  unfold fnOfCode at h
  split_ifs at h with hk hk hk hk <;> cases h <;> exact hk

theorem fnOfCode_eq_some_iff {c : Config} (hc : c.wf = true) {k : BitVec 2} {f : Fn} :
    fnOfCode c k = some f ↔ k = c.code f :=
  ⟨eq_code_of_fnOfCode, fun h => h ▸ fnOfCode_code hc f⟩

theorem lineUnder_of_strobeSet (c : Config) {ctrl : Byte} (h : strobeSet ctrl = true) : lineUnder c ctrl = none :=
  if_pos h

theorem lineUnder_of_strobeClear (c : Config) {ctrl : Byte} (h : strobeSet ctrl = false) :
    lineUnder c ctrl = fnOfCode c (fsel ctrl) :=
  if_neg (by simp [h])

theorem lineUnder_eq_some_iff {c : Config} (hc : c.wf = true) {ctrl : Byte} {f : Fn} :
    lineUnder c ctrl = some f ↔ fsel ctrl = c.code f ∧ strobeSet ctrl = false := by
  cases hs : strobeSet ctrl with
  | true => simp [lineUnder_of_strobeSet c hs]
  | false => simp [lineUnder_of_strobeClear c hs, fnOfCode_eq_some_iff hc]

/-- Settles O17: every instruction's frame says what it adds to the trace. -/
theorem controlWritesAreTheEightBytes : Obligations.ControlWritesAreTheEightBytes :=
  ⟨ctl_eq_shift_or, by decide, fun _ _ _ h => (exec_execFrame h).trace⟩

/-- Settles O18: with distinct codes FSEL stands for exactly one function, and the strobe decides whether its line is
active. -/
theorem functionLineActivity : Obligations.FunctionLineActivity :=
  fun c _ hc => ⟨fun _ => lineUnder_eq_some_iff hc, lineUnder_of_strobeSet c⟩

end Sys2Proof.Machine
end

section
/-! PROOFS. A sample of the data lines (20_memory.md R59, R70): who drives them, then what `readData` returns. -/

namespace Sys2Proof.Machine

/-- With `FSEL` valued the active line is the one under the control byte (10_state.md R30, R41). -/
theorem activeLine_of_fselKnown {s : State} (hk : s.port.fselKnown = true) :
    activeLine s = .ok (lineUnder s.cfg s.port.ctrl) := by
  cases hs : strobeSet s.port.ctrl with
  | true => rw [activeLine_set hs, lineUnder_of_strobeSet s.cfg hs]
  | false => simp [activeLine, hs, hk]

/-- Where the elements it depends on have values, the device drives exactly with `OE` active and itself selected. -/
theorem deviceDrives_eq {s : State} (hk : s.port.fselKnown = true) (hl : s.port.latchLoKnown = true)
    (hh : s.port.latchHiKnown = true) :
    deviceDrives s = .ok (decide (lineUnder s.cfg s.port.ctrl = some .oe ∧ csPin s.port = s.cfg.csSelLevel)) := by
  unfold deviceDrives
  rw [activeLine_of_fselKnown hk]
  rcases lineUnder s.cfg s.port.ctrl with _ | f
  · simp
  · cases f with
    | low | high | we => simp
    | oe => by_cases hs : csPin s.port = s.cfg.csSelLevel <;> simp [hl, hh, hs, selected]

/-- A sample while the port alone drives (20_memory.md R70 (a)). -/
theorem readData_portDrives {s : State} (h : deviceDrives s = .ok false) (hd : s.port.dir = .out)
    (hk : s.port.dataKnown = true) : readData s = .ok (s.port.data, emit (.rd s.port.data) s) := by
  unfold readData
  rw [h, hd]
  exact if_pos hk

/-- A sample of floating lines (20_memory.md R70 (c)). -/
theorem readData_floating {s : State} (h : deviceDrives s = .ok false) (hd : s.port.dir = .inp) :
    readData s = .ok (Config.freeByte s.draws, emit (.rd (Config.freeByte s.draws)) (countDraw s)) := by
  unfold readData
  rw [h, hd]

/-- A sample while port and device drive together (20_memory.md R70 (d)). -/
theorem readData_contention {s : State} (h : deviceDrives s = .ok true) (hd : s.port.dir = .out) :
    readData s = .error .busContention := by
  unfold readData
  rw [h, hd]

/-- Settles O22: whether the device drives is `OE` and selection together, and each of the four cases is a sample's rule. -/
theorem dataLineResolution : Obligations.DataLineResolution := by
  intro s _ hdata hfsel hlo hhi oe sel
  have hdrive : deviceDrives s = .ok (decide (oe ∧ sel)) := deviceDrives_eq hfsel hlo hhi
  have driven (ho : oe) (hs : sel) : deviceDrives s = .ok true := by rw [hdrive, decide_eq_true ⟨ho, hs⟩]
  have undriven (hn : ¬(oe ∧ sel)) : deviceDrives s = .ok false := by rw [hdrive, decide_eq_false hn]
  exact ⟨fun hd hn => readData_portDrives (undriven hn) hd hdata,
    fun hd ho hs => readData_ok (driven ho hs) hd,
    fun hd hn => readData_floating (undriven hn) hd,
    fun hd ho hs => readData_contention (driven ho hs) hd⟩

end Sys2Proof.Machine
end

section
/-! PROOFS. The function of an S1 line (44_srecord_parser.md R171): one lemma per case, and from them which lines are
malformed (30_encoding.md R109). -/

namespace Sys2Proof.Machine

variable {text : List Byte} {k n : Nat}

theorem pairsFrom_succ_eq_none_iff :
    pairsFrom text k (n + 1) = none ↔ pairAt text k = none ∨ pairsFrom text (k + 2) n = none := by
  cases hb : pairAt text k <;> cases hbs : pairsFrom text (k + 2) n <;> simp [pairsFrom, hb, hbs]

theorem pairsFrom_succ_eq_some_iff {l : List Byte} :
    pairsFrom text k (n + 1) = some l ↔
      ∃ b bs, pairAt text k = some b ∧ pairsFrom text (k + 2) n = some bs ∧ l = b :: bs := by
  cases hb : pairAt text k <;> cases hbs : pairsFrom text (k + 2) n <;> simp [pairsFrom, hb, hbs, eq_comm]

/-- A run of pairs fails exactly when one of its pairs is missing or is no hex pair. -/
theorem pairsFrom_eq_none_iff : pairsFrom text k n = none ↔ ∃ j, j < n ∧ pairAt text (k + 2 * j) = none := by
  induction n generalizing k with
  | zero => simp [pairsFrom]
  | succ n ih =>
    have hshift (j : Nat) : k + 2 + 2 * j = k + 2 * (j + 1) := by omega
    rw [pairsFrom_succ_eq_none_iff, ih, Nat.exists_lt_succ_left]
    simp only [hshift, Nat.mul_zero, Nat.add_zero]

section S1Line
variable {count : Byte} (hS : text[0]? = some 0x53) (h1 : text[1]? = some 0x31)
include hS h1

theorem parseLine_s1_of_countMissing (hcount : pairAt text 2 = none) : parseLine text = .malformed := by
  simp [parseLine, hS, h1, hcount]

theorem parseLine_s1_of_countBelowThree (hcount : pairAt text 2 = some count) (hlt : count.toNat < 3) :
    parseLine text = .malformed := by
  simp [parseLine, hS, h1, hcount, hlt]

/-- The address and the payload are one run of `count - 1` pairs from position 4 (44_srecord_parser.md R171). -/
theorem parseLine_s1_of_pairMissing (hcount : pairAt text 2 = some count) (hge : 3 ≤ count.toNat)
    (hpairs : pairsFrom text 4 (count.toNat - 1) = none) : parseLine text = .malformed := by
  rw [show count.toNat - 1 = count.toNat - 3 + 1 + 1 by omega, pairsFrom_succ_eq_none_iff,
    pairsFrom_succ_eq_none_iff] at hpairs
  rcases hpairs with hhi | hlo | hpayload
  · simp [parseLine, hS, h1, hcount, hhi]
  · simp [parseLine, hS, h1, hcount, hlo]
  · simp [parseLine, hS, h1, hcount, hpayload]

theorem parseLine_s1_of_pairs {pairs : List Byte} (hcount : pairAt text 2 = some count) (hge : 3 ≤ count.toNat)
    (hpairs : pairsFrom text 4 (count.toNat - 1) = some pairs) :
    ∃ hi lo payload, pairs = hi :: lo :: payload ∧ parseLine text = .record (hi ++ lo) payload := by
  rw [show count.toNat - 1 = count.toNat - 3 + 1 + 1 by omega] at hpairs
  obtain ⟨hi, _, hhi, htail, rfl⟩ := pairsFrom_succ_eq_some_iff.mp hpairs
  obtain ⟨lo, payload, hlo, hpayload, rfl⟩ := pairsFrom_succ_eq_some_iff.mp htail
  exact ⟨hi, lo, payload, rfl, by simp [parseLine, hS, h1, hcount, Nat.not_lt.mpr hge, hhi, hlo, hpayload]⟩

theorem parseLine_s1_eq_malformed_iff :
    parseLine text = .malformed ↔ pairAt text 2 = none ∨ ∃ count, pairAt text 2 = some count ∧
      (count.toNat < 3 ∨ pairsFrom text 4 (count.toNat - 1) = none) := by
  cases hcount : pairAt text 2 with
  | none => simp [parseLine_s1_of_countMissing hS h1 hcount]
  | some count =>
    by_cases hlt : count.toNat < 3
    · simp [parseLine_s1_of_countBelowThree hS h1 hcount hlt, hlt]
    have hge : 3 ≤ count.toNat := Nat.not_lt.mp hlt
    cases hpairs : pairsFrom text 4 (count.toNat - 1) with
    | none => simp [parseLine_s1_of_pairMissing hS h1 hcount hge hpairs, hpairs]
    | some pairs =>
      obtain ⟨hi, lo, payload, -, hrecord⟩ := parseLine_s1_of_pairs hS h1 hcount hge hpairs
      simp [hrecord, hlt, hpairs]

theorem parseLine_s1_ne_skipped : parseLine text ≠ .skipped := by
  unfold parseLine
  rw [if_neg (by simp [hS, h1])]
  split
  · simp
  · split
    · simp
    · split <;> simp

end S1Line

/-- Settles O52: a line that begins with `S1` fails at its count or at one of the pairs that follow it. -/
theorem malformedLines : Obligations.MalformedLines := by
  intro rest text
  refine ⟨?_, parseLine_s1_ne_skipped rfl rfl⟩
  rw [parseLine_s1_eq_malformed_iff rfl rfl]
  simp only [pairsFrom_eq_none_iff]

end Sys2Proof.Machine
end

section
/-! PROOFS. SETADDR (40_address_latch.md R121): its address operand as a device address and as the two latch bytes, then the
operation as a whole, out of range and in range. -/

namespace Sys2Proof.Machine

/-- An operand in range is the device address in its low 15 bits (20_memory.md R56). -/
theorem deviceAddress_operand {addr : AddrOperand} (h : addr.toNat < deviceSize) :
    deviceAddress addr.toNat = some (addr.setWidth 15) :=
  (deviceAddress_some h).trans (congrArg some (BitVec.ofNat_toNat 15 addr))

theorem loByte_setWidth (addr : AddrOperand) : loByte (addr.setWidth 15) = addr.extractLsb' 0 8 :=
  BitVec.extractLsb'_setWidth_of_le (by decide)

theorem csLevel_eq_ite (c : Config) (cs : Sel) :
    csLevel c cs = if cs = .sel then c.csSelLevel else ~~~ c.csSelLevel := by
  cases cs <;> rfl

theorem hiByte_setWidth (c : Config) (addr : AddrOperand) (cs : Sel) :
    hiByte c (addr.setWidth 15) cs =
      (if cs = .sel then c.csSelLevel else ~~~ c.csSelLevel) ++ addr.extractLsb' 8 7 := by
  unfold hiByte
  rw [csLevel_eq_ite, BitVec.extractLsb'_setWidth_of_le (by decide)]

theorem rejectRange_eq (s : State) : rejectRange s = .next { s with resp := 0x1000 } := rfl

theorem execSetaddr_outOfRange {addr : AddrOperand} (cs : Sel) (s : State) (h : deviceSize ≤ addr.toNat) :
    execSetaddr addr cs s = .next { s with resp := 0x1000 } := by
  unfold execSetaddr
  rw [deviceAddress_none h]
  exact rejectRange_eq s

/-- The working registers after a SETADDR that completed (10_state.md R32, R34). -/
def Work.afterSetaddr (addr : AddrOperand) (cs : Sel) (w : Work) : Work :=
  { w with opR := 1, addrR := addr, csR := cs, stepR := .idle }

/-- SETADDR in range from a quiescent port: the whole next state (40_address_latch.md R121). -/
theorem execSetaddr_inRange {addr : AddrOperand} (cs : Sel) {s : State} (h : addr.toNat < deviceSize)
    (hc : s.cfg.wf = true) (hq : s.quiescent = true) :
    execSetaddr addr cs s = .next { s with
      port := s.port.latched s.cfg (addr.setWidth 15) cs
      trace := (latchTrace s.cfg (addr.setWidth 15) cs).reverse ++ s.trace
      resp := 0
      work := s.work.afterSetaddr addr cs } := by
  unfold execSetaddr
  simp only [deviceAddress_operand h]
  rw [latchAddress_ok, ok_bind, finish_ok]
  · rfl
  · exact hc
  · exact hq

/-- Settles O27: the two latch bytes are the operand's low 15 bits and the flag, and the operation is one equation on each
side of DEVICE_SIZE. -/
theorem setaddrLatchesOrRejects : Obligations.SetaddrLatchesOrRejects := by
  refine fun addr cs s => ⟨execSetaddr_outOfRange cs s, fun h hc hq => ?_⟩
  rw [← loByte_setWidth, ← hiByte_setWidth]
  exact ⟨s.work.afterSetaddr addr cs, rfl, execSetaddr_inRange cs h hc hq⟩

end Sys2Proof.Machine
end

section
/-! PROOFS. The Byte Engine (41_byte_engine.md): FASTWRITE and READBYTE as one equation on each side of DEVICE_SIZE, and
WRITEBYTE in range as its write and its poll. -/

namespace Sys2Proof.Machine

/-- A byte operation past its range check: its opcode and its address operand are in the working registers (10_state.md
R32). -/
abbrev State.begun (op : BitVec 4) (addr : AddrOperand) (s : State) : State := begin op (fun w => { w with addrR := addr }) s

theorem Ready.begun {s : State} (h : Ready s) (op : BitVec 4) (addr : AddrOperand) : Ready (s.begun op addr) :=
  h.congr rfl rfl

theorem execFastwrite_outOfRange {addr : AddrOperand} (v : Byte) (s : State) (h : deviceSize ≤ addr.toNat) :
    execFastwrite addr v s = .next { s with resp := 0x1000 } := by
  unfold execFastwrite
  rw [deviceAddress_none h]
  exact rejectRange_eq s

theorem execReadbyte_outOfRange {addr : AddrOperand} (s : State) (h : deviceSize ≤ addr.toNat) :
    execReadbyte addr s = .next { s with resp := 0x1000 } := by
  unfold execReadbyte
  rw [deviceAddress_none h]
  exact rejectRange_eq s

/-- FASTWRITE ends where its strobe does (41_byte_engine.md R133). -/
theorem execFastwrite_inRange {addr : AddrOperand} (v : Byte) {s : State} (h : addr.toNat < deviceSize) (hR : Ready s) :
    execFastwrite addr v s = .next (conclude .ok 0 ((s.begun 3 addr).afterFastWrite (addr.setWidth 15) v)) := by
  unfold execFastwrite
  simp only [deviceAddress_operand h]
  rw [fastWrite_eq (hR.begun 3 addr), ok_bind, finish_ok]

/-- The state after a READBYTE that completed (41_byte_engine.md R134). -/
def State.afterReadbyte (addr : AddrOperand) (s : State) : State :=
  conclude .ok ((s.readBack (addr.setWidth 15)).setWidth 11) ((s.begun 4 addr).afterRead (addr.setWidth 15))

/-- READBYTE answers the byte of its one sample (41_byte_engine.md R134). -/
theorem execReadbyte_inRange {addr : AddrOperand} {s : State} (h : addr.toNat < deviceSize) (hR : Ready s) :
    execReadbyte addr s = .next (s.afterReadbyte addr) := by
  unfold execReadbyte
  simp only [deviceAddress_operand h]
  rw [readByte_eq (hR.begun 4 addr), ok_bind, finish_ok]
  rfl

/-- WRITEBYTE ends where its poll does, with the poll's outcome (41_byte_engine.md R136). -/
theorem execWritebyte_inRange {addr : AddrOperand} {v : Byte} {s t : State} {o : OutcomeCode} (h : addr.toNat < deviceSize)
    (hw : writeByte (addr.setWidth 15) v (s.begun 2 addr) = .ok (o, t)) :
    execWritebyte addr v s = .next (conclude o 0 t) := by
  unfold execWritebyte
  simp only [deviceAddress_operand h]
  rw [hw, ok_bind, finish_ok]

/-- Port activity and a response keep what `sameElsewhere` lists. -/
theorem Frame.sameElsewhere_conclude {s t : State} (h : Frame s t) (code : OutcomeCode) (value : BitVec 11) :
    s.sameElsewhere (conclude code value t) :=
  ⟨h.cfg, h.kind, h.status, h.buf, h.parser, h.parsed, h.inbox⟩

/-- Settles O30: in range and out of range the operation is one equation. -/
theorem fastwriteCommitsUnverified : Obligations.FastwriteCommitsUnverified :=
  fun addr v s => ⟨execFastwrite_outOfRange v s, fun h hc hq =>
    ⟨(conclude .ok 0 ((s.begun 3 addr).afterFastWrite (addr.setWidth 15) v)).work, rfl,
      execFastwrite_inRange v h ⟨hc, hq⟩⟩⟩

/-- Settles O31: in range and out of range the operation is one equation. -/
theorem readbyteSamplesOnce : Obligations.ReadbyteSamplesOnce :=
  fun addr s => ⟨execReadbyte_outOfRange s, fun h hc hq =>
    ⟨(s.afterReadbyte addr).work, rfl, execReadbyte_inRange h ⟨hc, hq⟩⟩⟩

/-- Settles O32: the poll's read-backs and its outcome are those of `writeByte_spec`, and port activity keeps the rest. -/
theorem writebytePollsThenVerifies : Obligations.WritebytePollsThenVerifies := by
  intro addr v s h hc hq a
  have hR : Ready (s.begun 2 addr) := Ready.begun ⟨hc, hq⟩ 2 addr
  obtain ⟨reads, o, t, hw, ⟨rs, r, rfl, hlimit, hdiffer, hverify, htimedOut⟩, htrace, hport⟩ := writeByte_spec hR a v
  rw [List.length_append] at hlimit htimedOut
  have hframe : Frame s t := (begin_frame 2 _ s).trans (writeByte_frame hw)
  exact ⟨rs, r, o, conclude o 0 t, execWritebyte_inRange h hw, hlimit, hdiffer, hverify, htimedOut, rfl, htrace, hport,
    hframe.sameElsewhere_conclude o 0, rfl⟩

end Sys2Proof.Machine
end

section
/-! PROOFS. WRITEBYTE under the device contract and the READBYTE after it (41_byte_engine.md R142). -/

namespace Sys2Proof.Machine

/-- Under the contract WRITEBYTE ends in `Ok`, with the write arrived, or in `TimedOut` (41_byte_engine.md R136, 20_memory.md
R73). -/
theorem writeByte_contract {s : State} (h : Ready s) (a : DevAddr) (v : Byte) (hk : s.dev.kind.keepsContract = true) :
    ∃ o t, writeByte a v s = .ok (o, t) ∧ t.dev.Carries a v ∧ (o = .timedOut ∨ (o = .ok ∧ t.dev.pend = .none)) := by
  rw [writeByte_eq h]
  exact pollLoop_contract a v _ _ (h.beforePoll a v) (carries_beforePoll a v hk)

theorem Device.Carries.read_of_idle {d : Device} {a : DevAddr} {v : Byte} (h : d.Carries a v) (hp : d.pend = .none) :
    Memory.read d.mem a = v := by
  rcases h.write with ⟨-, hm⟩ | ⟨k, hb⟩
  · exact hm
  · rw [hp] at hb; cases hb

theorem respWord_timedOut_ne_ok : respWord .timedOut 0 ≠ respWord .ok 0 := by decide

/-- Settles O37: `Ok` leaves the device idle with the byte stored, and an idle device answers what it holds. -/
theorem writeThenReadRoundTrip : Obligations.WriteThenReadRoundTrip := by
  intro addr v s t h hc hq hk hexec hresp
  have hR : Ready (s.begun 2 addr) := Ready.begun ⟨hc, hq⟩ 2 addr
  obtain ⟨o, u, hw, hcarries, hend⟩ := writeByte_contract hR (addr.setWidth 15) v hk
  have ht : t = conclude o 0 u :=
    (Host.Outcome.next.inj ((execWritebyte_inRange h hw).symm.trans hexec)).symm
  subst ht
  rcases hend with rfl | ⟨rfl, hidle⟩
  · exact absurd hresp respWord_timedOut_ne_ok
  · have hRu : Ready (conclude .ok 0 u) := (hR.writeByte hw).congr rfl rfl
    have hread : (conclude .ok 0 u).readBack (addr.setWidth 15) = v :=
      (readBack_idle _ hidle (DeviceKind.ne_oracle hcarries.contract)).trans (hcarries.read_of_idle hidle)
    refine ⟨_, execReadbyte_inRange h hRu, ?_⟩
    rw [State.afterReadbyte, conclude_resp, hread]

end Sys2Proof.Machine
end

section
/-! PROOFS. READBYTE on an idle device (41_byte_engine.md R143). -/

namespace Sys2Proof.Machine

theorem afterReadbyte_dev_idle {s : State} (addr : AddrOperand) (hp : s.dev.pend = .none) :
    (s.afterReadbyte addr).dev = s.dev := afterRead_idle (s := s.begun 4 addr) (addr.setWidth 15) hp

theorem afterReadbyte_resp_idle {s : State} (addr : AddrOperand) (hp : s.dev.pend = .none) (hk : s.dev.kind ≠ .oracle) :
    (s.afterReadbyte addr).resp = respWord .ok ((Memory.read s.dev.mem (addr.setWidth 15)).setWidth 11) := by
  rw [State.afterReadbyte, conclude_resp, readBack_idle _ hp hk]

theorem afterReadbyte_trace_idle {s : State} (addr : AddrOperand) (hp : s.dev.pend = .none) (hk : s.dev.kind ≠ .oracle) :
    (s.afterReadbyte addr).trace =
      (readTrace s.cfg (addr.setWidth 15) (Memory.read s.dev.mem (addr.setWidth 15))).reverse ++ s.trace := by
  rw [← readBack_idle _ hp hk]; rfl

theorem Ready.afterReadbyte {s : State} (h : Ready s) (addr : AddrOperand) : Ready (s.afterReadbyte addr) :=
  h.latched rfl rfl

/-- Settles O38: the first READBYTE leaves the device as it was and the port ready, so the second does the same again. -/
theorem idleReadsAreIdempotent : Obligations.IdleReadsAreIdempotent := by
  intro addr s h hc hq hp hk
  have hR : Ready s := ⟨hc, hq⟩
  have hdev := afterReadbyte_dev_idle addr hp
  have hp' : (s.afterReadbyte addr).dev.pend = .none := by rw [hdev, hp]
  have hk' : (s.afterReadbyte addr).dev.kind ≠ .oracle := by rwa [hdev]
  refine ⟨_, _, execReadbyte_inRange h hR, execReadbyte_inRange h (hR.afterReadbyte addr),
    afterReadbyte_resp_idle addr hp hk, ?_, hdev, (afterReadbyte_dev_idle addr hp').trans hdev,
    afterReadbyte_trace_idle addr hp hk, ?_⟩
  · rw [afterReadbyte_resp_idle addr hp' hk', afterReadbyte_resp_idle addr hp hk, hdev]
  · rw [afterReadbyte_trace_idle addr hp' hk', hdev]
    rfl

end Sys2Proof.Machine
end

section
/-! PROOFS. WRITEBYTE on a device that never negates bit 7 (41_byte_engine.md R141): the length and the samples of its trace, the
write that stays pending, and the poll that runs to its bound. -/

namespace Sys2Proof.Machine

/-! ## Samples and lengths of a trace -/

@[simp] theorem samples_append (t u : List Event) : samples (t ++ u) = samples t + samples u := by
  simp [samples]

@[simp] theorem samples_reverse (t : List Event) : samples t.reverse = samples t := by
  simp [samples]

@[simp] theorem samples_writeTrace (c : Config) (a : DevAddr) (v : Byte) : samples (writeTrace c a v) = 0 := rfl

@[simp] theorem samples_readTrace (c : Config) (a : DevAddr) (r : Byte) : samples (readTrace c a r) = 1 := rfl

@[simp] theorem length_writeTrace (c : Config) (a : DevAddr) (v : Byte) : (writeTrace c a v).length = 21 := rfl

@[simp] theorem length_readTrace (c : Config) (a : DevAddr) (r : Byte) : (readTrace c a r).length = 23 := rfl

/-- Every READBYTE is one sample. -/
@[simp] theorem samples_flatMap_readTrace (c : Config) (a : DevAddr) (reads : List Byte) :
    samples (reads.flatMap (readTrace c a)) = reads.length := by
  induction reads with
  | nil => rfl
  | cons r reads ih => rw [List.flatMap_cons, samples_append, ih, samples_readTrace, List.length_cons, Nat.add_comm]

/-- Every READBYTE is twenty-three events. -/
@[simp] theorem length_flatMap_readTrace (c : Config) (a : DevAddr) (reads : List Byte) :
    (reads.flatMap (readTrace c a)).length = 23 * reads.length := by
  simp [List.length_flatMap, Nat.mul_comm]

/-! ## The write that stays pending -/

/-- A read-back of a busy device differs from the pending byte in bit 7 (20_memory.md R72). -/
theorem Device.converged_busy {d : Device} {b : DevAddr} {v : Byte} {k : Budget} (draw : Nat) (a : DevAddr)
    (hk : d.kind ≠ .oracle) (hp : d.pend = .busy b v k) : converged (d.answer draw a) v = false := by
  rw [converged_eq, BitVec.getLsbD_xor, answer_busy_bit7 draw a hk hp]
  simp

/-- No delay completes a write with an infinite budget (20_memory.md R74). -/
theorem Device.waited_infinite {d : Device} {b : DevAddr} {v : Byte} (hp : d.pend = .busy b v .infinite) (wc t : Nat) :
    d.waited wc t = d := by
  simp [Device.waited, hp]

/-- No read completes a write with an infinite budget (20_memory.md R74). -/
theorem Device.consumed_infinite {d : Device} {b : DevAddr} {v : Byte} (hp : d.pend = .busy b v .infinite) :
    d.consumed = d := by
  simp [Device.consumed, hp]

theorem afterPoll_dev_infinite {s : State} {b : DevAddr} {v : Byte} (a : DevAddr) (head : StepIndex)
    (hp : s.dev.pend = .busy b v .infinite) : (s.afterPoll a head).dev = s.dev := by
  change (s.dev.waited s.cfg.tDevWc s.cfg.tOeSettle).consumed = s.dev
  rw [Device.waited_infinite hp, Device.consumed_infinite hp]

theorem converged_readBack_infinite {s : State} {b : DevAddr} {v : Byte} (a : DevAddr) (hk : s.dev.kind ≠ .oracle)
    (hp : s.dev.pend = .busy b v .infinite) : converged (s.readBack a) v = false := by
  rw [State.readBack, State.heldDevice, Device.waited_infinite hp, Device.converged_busy s.draws a hk hp]

/-- The poll of a write with an infinite budget makes every read-back it may and leaves the device as it was
(41_byte_engine.md R141). -/
theorem pollLoop_infinite (a : DevAddr) {b : DevAddr} {v : Byte} (head : StepIndex) (n : Nat) : ∀ {s : State}, Ready s →
    s.dev.kind ≠ .oracle → s.dev.pend = .busy b v .infinite →
    ∃ (t : State) (reads : List Byte), pollLoop a v head n s = .ok (.timedOut, t) ∧ reads.length = n ∧ t.dev = s.dev ∧
      t.trace = (reads.flatMap (readTrace s.cfg a)).reverse ++ s.trace := by
  induction n with
  | zero => intro s _ _ _; exact ⟨s, [], rfl, rfl, rfl, rfl⟩
  | succ n ih =>
    intro s hR hk hp
    have hdev := afterPoll_dev_infinite a head hp
    obtain ⟨t, reads, hpoll, hlen, htdev, htrace⟩ := ih (hR.afterPoll a head) (by rwa [hdev]) (by rwa [hdev])
    refine ⟨t, s.readBack a :: reads, ?_, by rw [List.length_cons, hlen], htdev.trans hdev, ?_⟩
    · rw [pollLoop_succ hR, converged_readBack_infinite a hk hp]
      exact hpoll
    · rw [htrace]; simp

/-- A write with an infinite budget is pending when its poll begins (20_memory.md R73, R74). -/
theorem beforePoll_dev_infinite {s : State} (a : DevAddr) (v : Byte) (hb : s.dev.kind.budget s.draws = .infinite) :
    (s.beforePoll a v).dev = { s.dev.overtaken with pend := .busy a v .infinite } := by
  have haccept : s.dev.overtaken.accept a v (s.dev.kind.budget s.draws) =
      { s.dev.overtaken with pend := .busy a v .infinite } := by rw [hb]; rfl
  exact (congrArg (Device.waited _ _) haccept).trans (Device.waited_infinite rfl _ _)

/-- WRITEBYTE with an infinite budget (41_byte_engine.md R141). -/
theorem writeByte_infinite {s : State} (hR : Ready s) (a : DevAddr) (v : Byte) (hk : s.dev.kind ≠ .oracle)
    (hb : s.dev.kind.budget s.draws = .infinite) :
    ∃ (t : State) (reads : List Byte), writeByte a v s = .ok (.timedOut, t) ∧ reads.length = s.cfg.pollLimit ∧
      t.dev = { s.dev.overtaken with pend := .busy a v .infinite } ∧
      t.trace = (writeTrace s.cfg a v ++ reads.flatMap (readTrace s.cfg a)).reverse ++ s.trace := by
  have hdev := beforePoll_dev_infinite a v hb
  rw [writeByte_eq hR]
  obtain ⟨t, reads, hpoll, hlen, htdev, htrace⟩ := pollLoop_infinite a (s.work.stepR.advance 21) s.cfg.pollLimit
    (hR.beforePoll a v) (b := a) (v := v) (by rw [hdev]; simpa using hk) (by rw [hdev])
  refine ⟨t, reads, hpoll, hlen, htdev.trans hdev, ?_⟩
  rw [htrace]; simp [State.beforePoll]

/-- Settles O34: a pending write with an infinite budget answers every read-back with bit 7 inverted and never reaches
MEM. -/
theorem stuckDeviceTimesOutExactly : Obligations.StuckDeviceTimesOutExactly := by
  intro addr v s h hc hq hk hb
  obtain ⟨t, reads, hw, hlen, hdev, htrace⟩ := writeByte_infinite (Ready.begun ⟨hc, hq⟩ 2 addr) (addr.setWidth 15) v hk hb
  refine ⟨conclude .timedOut 0 t, _, execWritebyte_inRange h hw, htrace, rfl, ?_, ?_, ?_, fun b hland => ?_⟩
  · rw [samples_reverse, samples_append, samples_writeTrace, samples_flatMap_readTrace, hlen, Nat.zero_add]; rfl
  · rw [List.length_reverse, List.length_append, length_writeTrace, length_flatMap_readTrace, hlen]; rfl
  · rw [conclude_dev, hdev]
  · rw [conclude_dev, hdev]
    exact (Device.keepsByte_overtaken hland).2

end Sys2Proof.Machine
end

section
/-! PROOFS. ERASE (43_erase_engine.md) from a quiescent port: its sweep, which always ends, then the final deselect at the park
address. -/

namespace Sys2Proof.Machine

/-- ERASE past its step 1: its opcode and an empty sweep are in the working registers (10_state.md R32, R33). -/
abbrev State.eraseBegun (s : State) : State := begin 7 (fun w => { w with eraseR := 0 }) s

theorem Ready.eraseBegun {s : State} (h : Ready s) : Ready s.eraseBegun := h.congr rfl rfl

/-- The state after the final deselect of ERASE, from the end of its sweep (43_erase_engine.md R164). -/
def State.parked (t : State) : State :=
  { t with
    port := t.port.latched t.cfg t.cfg.eraseParkAddr .desel
    trace := (latchTrace t.cfg t.cfg.eraseParkAddr .desel).reverse ++ t.trace
    work.stepR := t.work.stepR.advance 8 }

theorem latchAddress_park {t : State} (h : Ready t) : latchAddress t.cfg.eraseParkAddr .desel t = .ok t.parked :=
  latchAddress_ok _ _ h.cfg h.quiescent

/-- Where the sweep ends decides where ERASE ends (43_erase_engine.md R164, R165). -/
theorem execErase_of_sweep {s t : State} (hsweep : eraseSweep (.running 7 1) deviceSize 0 s.eraseBegun = .ok t)
    (hR : Ready t) : execErase s = .next (conclude .ok 0 t.parked) := by
  unfold execErase
  rw [hsweep, ok_bind, latchAddress_park hR, ok_bind, finish_ok]

theorem eraseTrace_eq (c : Config) :
    eraseTrace c = (List.range' 0 deviceSize).flatMap (eraseTurnTrace c) ++ latchTrace c c.eraseParkAddr .desel := by
  rw [← List.range_eq_range']
  rfl

/-- Settles O45: the sweep's events, draws and port are those of `eraseSweep_spec`, and the final deselect adds its own. -/
theorem eraseSweepsTheDevice : Obligations.EraseSweepsTheDevice := by
  intro s hc hq
  obtain ⟨t, hsweep, hR, hdraws, htrace, hport⟩ :=
    eraseSweep_spec (.running 7 1) deviceSize (a := 0) (Ready.eraseBegun ⟨hc, hq⟩)
  have hframe : Frame s t := (begin_frame 7 _ s).trans (eraseSweep_frame hsweep)
  refine ⟨conclude .ok 0 t.parked, execErase_of_sweep hsweep hR, rfl, ?_, ?_, hdraws,
    (hframe.trans (latchAddress_frame (latchAddress_park hR))).sameElsewhere_conclude .ok 0, rfl⟩
  · rw [conclude_trace, State.parked, htrace, hframe.cfg, eraseTrace_eq, List.reverse_append, List.append_assoc,
      begin_cfg, begin_trace]
  · rw [conclude_port, State.parked, hframe.cfg]
    exact hport s.cfg s.cfg.eraseParkAddr .desel rfl

/-- Once no write is on its way, every byte that the sweep passed reads as blank (43_erase_engine.md R166). -/
theorem Device.BlankBelow.read_of_idle {d : Device} (h : d.BlankBelow deviceSize) (hp : d.pend = .none) (a : DevAddr) :
    Memory.read d.mem a = Sys2Proof.blank := by
  have hd : d.overtaken = d := by simp [Device.overtaken, hp]
  exact hd ▸ h.blank a a.isLt

/-- Settles O46: the last pause ends the last batch, so the sweep leaves the device idle and blank, and an idle device answers
what it holds. -/
theorem eraseLeavesEveryByteBlank : Obligations.EraseLeavesEveryByteBlank := by
  intro s hc hq hpause hk hbudget
  have hbegun : Ready s.eraseBegun := Ready.eraseBegun ⟨hc, hq⟩
  obtain ⟨t, hsweep, hR, -⟩ := eraseSweep_spec (.running 7 1) deviceSize (a := 0) hbegun
  obtain ⟨(hblank : t.dev.BlankBelow deviceSize), hbatch⟩ :=
    eraseSweep_blank (.running 7 1) (deviceSize - 1) hbegun hbudget (Device.blankBelow_zero hk) hsweep
  have hidle : t.dev.pend = .none := hbatch (by decide) hpause
  have hread (a : DevAddr) : Memory.read t.dev.mem a = 0xFF := hblank.read_of_idle hidle a
  have hparked : Ready (conclude .ok 0 t.parked) := hR.latched rfl rfl
  refine ⟨conclude .ok 0 t.parked, execErase_of_sweep hsweep hR, hidle, hread, fun addr haddr => ?_⟩
  refine ⟨_, execReadbyte_inRange haddr hparked, ?_⟩
  have hresp := afterReadbyte_resp_idle (s := conclude .ok 0 t.parked) addr hidle (DeviceKind.ne_oracle hblank.contract)
  exact hresp.trans (congrArg (fun v : Byte => respWord .ok (v.setWidth 11)) (hread (addr.setWidth 15)))

end Sys2Proof.Machine
end

section
/-! PROOFS. Encoder and decoder (30_encoding.md R91 to R97, R103, R108): decoding what was encoded, row by row; encoding what
was decoded; and which words are illegal. -/

namespace Sys2Proof

/-! ## Decoding what the encoder gives -/

theorem decodeWord_setaddr (addr : AddrOperand) (cs : Sel) :
    decodeWord (formatC 1 (bitOfSel cs) 0 addr) = .ok (.setaddr addr cs) := by
  rw [decodeWord_below (by rw [fieldOp_formatC]; decide)]
  simp [decodeSetaddr]

theorem decodeWord_writebyte (addr : AddrOperand) (value : Byte) :
    decodeWord (formatC 2 0 value addr) = .ok (.writebyte addr value) := by
  rw [decodeWord_below (by rw [fieldOp_formatC]; decide)]
  simp [decodeAddrData]

theorem decodeWord_fastwrite (addr : AddrOperand) (value : Byte) :
    decodeWord (formatC 3 0 value addr) = .ok (.fastwrite addr value) := by
  rw [decodeWord_below (by rw [fieldOp_formatC]; decide)]
  simp [decodeAddrData]

theorem decodeWord_readbyte (addr : AddrOperand) : decodeWord (formatC 4 0 0 addr) = .ok (.readbyte addr) := by
  rw [decodeWord_below (by rw [fieldOp_formatC]; decide)]
  simp [decodeReadbyte]

theorem decodeWord_readblock (addr : AddrOperand) (count : Count) :
    decodeWord (formatB 5 count addr) = .ok (.readblock addr count) := by
  rw [decodeWord_below (by rw [fieldOp_formatB]; decide)]
  simp

theorem decodeWord_writeblock (addr : AddrOperand) (count : Count) :
    decodeWord (formatB 6 count addr) = .ok (.writeblock addr count) := by
  rw [decodeWord_below (by rw [fieldOp_formatB]; decide)]
  simp

theorem decodeWord_erase : decodeWord (formatC 7 0 0 0) = .ok .erase := by decide

theorem decodeWord_illegalOp0 (low : BitVec 28) : decodeWord (0#4 ++ low) = .ok (.illegalOp0 low) := by
  have hop : fieldOp (0#4 ++ low) = 0 := BitVec.extractLsb'_append_eq_left
  have hlow : (0#4 ++ low).extractLsb' 0 28 = low := BitVec.extractLsb'_append_eq_right
  rw [decodeWord_below (by rw [hop]; decide), if_pos hop, hlow]

theorem decodeWord_illegalOp8F (low : BitVec 31) : decodeWord (1#1 ++ low) = .ok (.illegalOp8F low) := by
  have htop : (1#1 ++ low).extractLsb' 31 1 = 1 := BitVec.extractLsb'_append_eq_left
  have hlow : (1#1 ++ low).extractLsb' 0 31 = low := BitVec.extractLsb'_append_eq_right
  unfold decodeWord
  rw [if_pos htop, hlow]

/-- Settles O2: one lemma for each row of command words; the lines carry the two characters of their row, and a `parseOther`
line those of no row. -/
theorem decodeOfEncodeIsTheInstruction : Obligations.DecodeOfEncodeIsTheInstruction := by
  intro i hwf
  have hword {w : CmdWord} (h : decodeWord w = .ok i) : decodeMove (.command w) = some (.ok i) := congrArg some h
  cases i with
  | setaddr addr cs => exact hword (decodeWord_setaddr addr cs)
  | writebyte addr value => exact hword (decodeWord_writebyte addr value)
  | fastwrite addr value => exact hword (decodeWord_fastwrite addr value)
  | readbyte addr => exact hword (decodeWord_readbyte addr)
  | readblock addr count => exact hword (decodeWord_readblock addr count)
  | writeblock addr count => exact hword (decodeWord_writeblock addr count)
  | erase => exact hword decodeWord_erase
  | illegalOp0 low => exact hword (decodeWord_illegalOp0 low)
  | illegalOp8F low => exact hword (decodeWord_illegalOp8F low)
  | parseS1 | parseS0 | parseS2 | parseS3 | parseS4 | parseS5 | parseS6 | parseS7 | parseS8 | parseS9 => rfl
  | parseOther line =>
    have hother : startsRecord line = false := by simpa [Instr.wf] using hwf
    exact congrArg (fun j => some (Except.ok j)) (decodeLine_other hother)

/-! ## Encoding what the decoder gives -/

/-- `i` is well formed and stands for exactly the word `w`. -/
def Encodes (w : CmdWord) (i : Instr) : Prop := i.wf = true ∧ encode i = .command w

variable {w : CmdWord} {i : Instr}

theorem decodeSetaddr_encodes (hop : fieldOp w = 1) (h : decodeSetaddr w = .ok i) : Encodes w i := by
  unfold decodeSetaddr at h
  split_ifs at h with hz hd
  cases h
  have hfields := formatC_fields (not_not.mp hz)
  rw [hop, not_not.mp hd] at hfields
  exact ⟨rfl, congrArg HostMove.command (by rw [bitOfSel_selOfBit]; exact hfields)⟩

theorem decodeAddrData_encodes {make : AddrOperand → Byte → Instr} (h : decodeAddrData make w = .ok i)
    (hmake : ∀ addr value, formatC (fieldOp w) 0 value addr = w → Encodes w (make addr value)) : Encodes w i := by
  unfold decodeAddrData at h
  split_ifs at h with hcs hz
  cases h
  have hfields := formatC_fields (not_not.mp hz)
  rw [not_not.mp hcs] at hfields
  exact hmake _ _ hfields

theorem decodeReadbyte_encodes (hop : fieldOp w = 4) (h : decodeReadbyte w = .ok i) : Encodes w i := by
  unfold decodeReadbyte at h
  split_ifs at h with hcs hz hd
  cases h
  have hfields := formatC_fields (not_not.mp hz)
  rw [hop, not_not.mp hcs, not_not.mp hd] at hfields
  exact ⟨rfl, congrArg HostMove.command hfields⟩

theorem decodeErase_encodes (hop : fieldOp w = 7) (h : decodeErase w = .ok i) : Encodes w i := by
  unfold decodeErase at h
  split_ifs at h with hcs hz hd ha
  cases h
  have hfields := formatC_fields (not_not.mp hz)
  rw [hop, not_not.mp hcs, not_not.mp hd, not_not.mp ha] at hfields
  exact ⟨rfl, congrArg HostMove.command hfields⟩

/-- A word of opcode 0 is its opcode before its low 28 bits. -/
theorem zeroOp_append_low (hop : fieldOp w = 0) : 0#4 ++ w.extractLsb' 0 28 = w := by
  have h0 : 0#4 = w.extractLsb' 28 4 := hop.symm
  rw [h0]
  exact BitVec.extractLsb'_append_extractLsb'

/-- A word of opcode 0x8 to 0xF is its top bit before its low 31 bits. -/
theorem topBit_append_low (htop : w.extractLsb' 31 1 = 1) : 1#1 ++ w.extractLsb' 0 31 = w := by
  have h1 : 1#1 = w.extractLsb' 31 1 := htop.symm
  rw [h1]
  exact BitVec.extractLsb'_append_extractLsb'

theorem decodeWord_of_topBit (htop : w.extractLsb' 31 1 = 1) : decodeWord w = .ok (.illegalOp8F (w.extractLsb' 0 31)) :=
  if_pos htop

/-- Which row decodes a word of opcode `op` below 8 (30_encoding.md R94). -/
def decodeRow (w : CmdWord) (op : BitVec 4) : Except Reject Instr :=
  if op = 0 then .ok (.illegalOp0 (w.extractLsb' 0 28))
  else if op = 1 then decodeSetaddr w
  else if op = 2 then decodeAddrData .writebyte w
  else if op = 3 then decodeAddrData .fastwrite w
  else if op = 4 then decodeReadbyte w
  else if op = 5 then .ok (.readblock (fieldAddr w) (fieldCount w))
  else if op = 6 then .ok (.writeblock (fieldAddr w) (fieldCount w))
  else decodeErase w

theorem decodeWord_of_op {op : BitVec 4} (hop : fieldOp w = op) (htop : op.extractLsb' 3 1 = 0) :
    decodeWord w = decodeRow w op := by
  subst hop
  exact decodeWord_below htop

theorem decodeWord_encodes (h : decodeWord w = .ok i) : Encodes w i := by
  rcases fieldOp_cases w with hop | hop | hop | hop | hop | hop | hop | hop | htop
  · rw [decodeWord_of_op hop (by decide)] at h
    cases h
    exact ⟨rfl, congrArg HostMove.command (zeroOp_append_low hop)⟩
  · rw [decodeWord_of_op hop (by decide)] at h
    exact decodeSetaddr_encodes hop h
  · rw [decodeWord_of_op hop (by decide)] at h
    exact decodeAddrData_encodes h fun _ _ hw => ⟨rfl, congrArg HostMove.command (hop ▸ hw)⟩
  · rw [decodeWord_of_op hop (by decide)] at h
    exact decodeAddrData_encodes h fun _ _ hw => ⟨rfl, congrArg HostMove.command (hop ▸ hw)⟩
  · rw [decodeWord_of_op hop (by decide)] at h
    exact decodeReadbyte_encodes hop h
  · rw [decodeWord_of_op hop (by decide)] at h
    cases h
    exact ⟨rfl, congrArg HostMove.command (hop ▸ formatB_fields w)⟩
  · rw [decodeWord_of_op hop (by decide)] at h
    cases h
    exact ⟨rfl, congrArg HostMove.command (hop ▸ formatB_fields w)⟩
  · rw [decodeWord_of_op hop (by decide)] at h
    exact decodeErase_encodes hop h
  · rw [decodeWord_of_topBit htop] at h
    cases h
    exact ⟨rfl, congrArg HostMove.command (topBit_append_low htop)⟩

theorem decodeLine_encodes (text : List Byte) : (decodeLine text).wf = true ∧ encode (decodeLine text) = .line text := by
  rcases line_cases text with ⟨d, rest, hd, rfl⟩ | hother
  · simp only [List.mem_cons, List.not_mem_nil, or_false] at hd
    rcases hd with rfl | rfl | rfl | rfl | rfl | rfl | rfl | rfl | rfl | rfl <;> exact ⟨rfl, rfl⟩
  · rw [decodeLine_other hother]
    exact ⟨by simp [Instr.wf, hother], rfl⟩

/-- Settles O3: a word is its fields put together, those that its row does not use being zero, and a line keeps its first two
characters in its row. -/
theorem encodeOfDecodeIsTheWord : Obligations.EncodeOfDecodeIsTheWord :=
  ⟨fun _ _ h => decodeWord_encodes h, decodeLine_encodes⟩

/-- Settles O1: the words and lines of 95_test_vectors.md, decoded. -/
theorem specWordsDecodeToTheirInstructions : Obligations.SpecWordsDecodeToTheirInstructions := by
  unfold Obligations.SpecWordsDecodeToTheirInstructions
  decide

end Sys2Proof
end

section
/-! PROOFS. Illegal command words (30_encoding.md R96): the rule's list, field by field, is what the decoder rejects and what it
reads as an instruction that is not legal. -/

namespace Sys2Proof.Machine

/-- What a word decodes to is a legal instruction. -/
def legalDecoding (c : Config) : Except Reject Instr → Bool
  | .ok i => i.legal c
  | .error _ => false

/-- The list of 30_encoding.md R96 under one opcode, on the fields of the word. -/
def rowIsIllegal (c : Config) (w : CmdWord) (op : BitVec 4) : Bool :=
  let formatC := op.toNat == 1 || op.toNat == 2 || op.toNat == 3 || op.toNat == 4 || op.toNat == 7
  op.toNat == 0 || decide (8 ≤ op.toNat) ||
    (formatC && fieldZ w != 0) ||
    (formatC && op.toNat != 1 && fieldCs w != 0) ||
    ((op.toNat == 1 || op.toNat == 4 || op.toNat == 7) && fieldData w != 0) ||
    (op.toNat == 7 && fieldAddr w != 0) ||
    ((op.toNat == 5 || op.toNat == 6) && decide (c.blockSize < (fieldCount w).toNat))

variable {c : Config} {w : CmdWord} {op : BitVec 4}

theorem wordIsIllegal_of_op (hop : fieldOp w = op) : wordIsIllegal c w = rowIsIllegal c w op := by
  subst hop; rfl

/-- With the top bit set the opcode is 8 or more. -/
theorem wordIsIllegal_of_topBit (htop : w.extractLsb' 31 1 = 1) : wordIsIllegal c w = true := by
  have hop : 8 ≤ (fieldOp w).toNat := by
    rw [top_of_fieldOp] at htop
    generalize fieldOp w = o at htop
    revert o
    decide
  rw [wordIsIllegal_of_op rfl]
  simp [rowIsIllegal, hop]

theorem legalDecoding_decodeSetaddr : legalDecoding c (decodeSetaddr w) = (fieldZ w == 0 && fieldData w == 0) := by
  unfold decodeSetaddr
  split_ifs with hz hd <;> simp_all [legalDecoding, Instr.legal]

theorem legalDecoding_decodeAddrData {make : AddrOperand → Byte → Instr}
    (hmake : ∀ addr value, (make addr value).legal c = true) :
    legalDecoding c (decodeAddrData make w) = (fieldCs w == 0 && fieldZ w == 0) := by
  unfold decodeAddrData
  split_ifs with hcs hz <;> simp_all [legalDecoding]

theorem legalDecoding_decodeReadbyte :
    legalDecoding c (decodeReadbyte w) = (fieldCs w == 0 && fieldZ w == 0 && fieldData w == 0) := by
  unfold decodeReadbyte
  split_ifs with hcs hz hd <;> simp_all [legalDecoding, Instr.legal]

theorem legalDecoding_decodeErase :
    legalDecoding c (decodeErase w) = (fieldCs w == 0 && fieldZ w == 0 && fieldData w == 0 && fieldAddr w == 0) := by
  unfold decodeErase
  split_ifs with hcs hz hd ha <;> simp_all [legalDecoding, Instr.legal]

theorem not_decide_le (n m : Nat) : (!decide (n ≤ m)) = decide (m < n) := by simp [← decide_not]

/-- The rule's list and the decoder agree (30_encoding.md R96). -/
theorem wordIsIllegal_eq_not_legalDecoding (c : Config) (w : CmdWord) :
    wordIsIllegal c w = !legalDecoding c (decodeWord w) := by
  rcases fieldOp_cases w with hop | hop | hop | hop | hop | hop | hop | hop | htop
  · rw [wordIsIllegal_of_op hop, decodeWord_of_op hop (by decide)]
    rfl
  · rw [wordIsIllegal_of_op hop, decodeWord_of_op hop (by decide)]
    refine .trans ?_ (congrArg Bool.not legalDecoding_decodeSetaddr).symm
    simp [rowIsIllegal, bne]
  · rw [wordIsIllegal_of_op hop, decodeWord_of_op hop (by decide)]
    refine .trans ?_ (congrArg Bool.not (legalDecoding_decodeAddrData fun _ _ => rfl)).symm
    simp [rowIsIllegal, bne, Bool.or_comm]
  · rw [wordIsIllegal_of_op hop, decodeWord_of_op hop (by decide)]
    refine .trans ?_ (congrArg Bool.not (legalDecoding_decodeAddrData fun _ _ => rfl)).symm
    simp [rowIsIllegal, bne, Bool.or_comm]
  · rw [wordIsIllegal_of_op hop, decodeWord_of_op hop (by decide)]
    refine .trans ?_ (congrArg Bool.not legalDecoding_decodeReadbyte).symm
    simp [rowIsIllegal, bne, Bool.or_comm]
  · rw [wordIsIllegal_of_op hop, decodeWord_of_op hop (by decide)]
    exact (not_decide_le _ _).symm
  · rw [wordIsIllegal_of_op hop, decodeWord_of_op hop (by decide)]
    exact (not_decide_le _ _).symm
  · rw [wordIsIllegal_of_op hop, decodeWord_of_op hop (by decide)]
    refine .trans ?_ (congrArg Bool.not legalDecoding_decodeErase).symm
    simp [rowIsIllegal, bne, Bool.or_comm]
  · rw [wordIsIllegal_of_topBit htop, decodeWord_of_topBit htop]
    rfl

theorem rejectCommand_eq (s : State) : rejectCommand s = .next { s with resp := 0x7000 } := rfl

theorem execReadblock_overCount (addr : AddrOperand) {count : Count} {s : State} (h : s.cfg.blockSize < count.toNat) :
    execReadblock addr count s = .next { s with resp := 0x7000 } := if_pos h

theorem execWriteblock_overCount (addr : AddrOperand) {count : Count} {s : State} (h : s.cfg.blockSize < count.toNat) :
    execWriteblock addr count s = .next { s with resp := 0x7000 } := if_pos h

/-- An instruction that is not legal is rejected at its step 0 (30_encoding.md R96, 42_block_transfer.md R153). -/
theorem exec_of_not_legal {i : Instr} {s : State} (h : i.legal s.cfg = false) :
    exec i s = .next { s with resp := 0x7000 } := by
  cases i with
  | readblock addr count => exact execReadblock_overCount addr (by simpa [Instr.legal] using h)
  | writeblock addr count => exact execWriteblock_overCount addr (by simpa [Instr.legal] using h)
  | illegalOp0 | illegalOp8F => rfl
  | setaddr | writebyte | fastwrite | readbyte | erase | parseS1 | parseS0 | parseS2 | parseS3 | parseS4 | parseS5 | parseS6
  | parseS7 | parseS8 | parseS9 | parseOther => cases h

/-- Settles O4: what the rule lists is what does not decode to a legal instruction, and neither kind of it does anything but
answer. -/
theorem illegalWordsAnswerIllegalCommand : Obligations.IllegalWordsAnswerIllegalCommand := by
  intro w s
  rw [wordIsIllegal_eq_not_legalDecoding]
  unfold issueWord
  cases hw : decodeWord w with
  | error e => exact ⟨fun _ => rejectCommand_eq s, fun h => by cases h⟩
  | ok i => exact ⟨fun h => exec_of_not_legal (by simpa [legalDecoding] using h),
      fun h => ⟨i, rfl, by simpa [legalDecoding] using h⟩⟩

/-- Settles O5: the two rows have one meaning, the rejection. -/
theorem reservedOpcodesChangeOnlyResp : Obligations.ReservedOpcodesChangeOnlyResp :=
  fun s => ⟨fun _ => rejectCommand_eq s, fun _ => rejectCommand_eq s⟩

/-- Settles O40: step 0 of both operations. -/
theorem blockCountMustFitTheBuffer : Obligations.BlockCountMustFitTheBuffer :=
  fun addr _ _ h => ⟨execReadblock_overCount addr h, execWriteblock_overCount addr h⟩

/-- Bit 11 stands between code and value (30_encoding.md R98). -/
theorem respWord_bit11 (o : OutcomeCode) (v : BitVec 11) : (respWord o v).getLsbD 11 = false := by
  unfold respWord
  rw [BitVec.getLsbD_append, BitVec.getLsbD_append]
  rfl

/-- Settles O6: the three fields, each by its own lemma. -/
theorem responseWordFields : Obligations.ResponseWordFields :=
  fun o v => ⟨respCode_respWord o v, respValue_respWord o v, respWord_bit11 o v⟩

end Sys2Proof.Machine
end

section
/-! PROOFS. The step: what it can do, said once (00_scope.md R3, R4), and the steps that run no instruction. -/

namespace Sys2Proof.Machine

/-- What a step can do: wait, run an instruction, reject a word that matches no row, fill a buffer element, or fault on one that
does not exist. -/
inductive StepCase (s : State) : Host.Outcome State Fault Refusal → Prop
  | waits (h : s.inbox = []) : StepCase s (.next s)
  | runs (i : Instr) (rest : List HostMove) : StepCase s (exec i { s with inbox := rest })
  | rejects (rest : List HostMove) : StepCase s (.next { s with inbox := rest, resp := 0x7000 })
  | fills (rest : List HostMove) (n : Nat) (v : Byte) (h : n < s.cfg.blockSize) :
      StepCase s (.next { s with inbox := rest, buf := Buffer.set s.buf n v })
  | faults : StepCase s (.fault .noBufferElement)

theorem issueWord_of_decodes {w : CmdWord} {i : Instr} (h : decodeWord w = .ok i) (s : State) :
    issueWord w s = exec i s := by
  unfold issueWord; rw [h]

theorem issueWord_of_rejects {w : CmdWord} {e : Reject} (h : decodeWord w = .error e) (s : State) :
    issueWord w s = .next { s with resp := 0x7000 } := by
  unfold issueWord; rw [h]; rfl

theorem fillBuffer_below {n : Nat} {s : State} (v : Byte) (h : n < s.cfg.blockSize) :
    fillBuffer n v s = .next { s with buf := Buffer.set s.buf n v } := if_pos h

theorem fillBuffer_beyond {n : Nat} {s : State} (v : Byte) (h : s.cfg.blockSize ≤ n) :
    fillBuffer n v s = .fault .noBufferElement := if_neg (Nat.not_lt.mpr h)

theorem step_of_empty {s : State} (h : s.inbox = []) : step s = .next s := by
  unfold step; rw [h]

theorem step_of_move {s : State} {m : HostMove} {rest : List HostMove} (h : s.inbox = m :: rest) :
    step s = issue m { s with inbox := rest } := by
  unfold step; rw [h]

theorem step_case (s : State) : StepCase s (step s) := by
  rcases hi : s.inbox with _ | ⟨m, rest⟩
  · rw [step_of_empty hi]; exact .waits hi
  rw [step_of_move hi]
  cases m with
  | command w =>
    change StepCase s (issueWord w _)
    cases hw : decodeWord w with
    | ok i => rw [issueWord_of_decodes hw]; exact .runs i rest
    | error e => rw [issueWord_of_rejects hw]; exact .rejects rest
  | line text => exact .runs (decodeLine text) rest
  | fill n v =>
    change StepCase s (fillBuffer n v _)
    by_cases hn : n < s.cfg.blockSize
    · rw [fillBuffer_below (s := { s with inbox := rest }) v hn]; exact .fills rest n v hn
    · rw [fillBuffer_beyond (s := { s with inbox := rest }) v (Nat.not_lt.mp hn)]; exact .faults

/-- Settles O7: a step issues the next move, and a move that decodes is its instruction. -/
theorem stepRunsTheDecodedInstruction : Obligations.StepRunsTheDecodedInstruction := by
  refine fun s rest i => ⟨fun w hi hw => ?_, fun text hi ht => ?_⟩
  · rw [step_of_move hi]; exact issueWord_of_decodes hw _
  · rw [step_of_move hi, ← ht]; rfl

/-- Settles O8: the three moves that carry no instruction. -/
theorem stepWithoutAnInstruction : Obligations.StepWithoutAnInstruction := by
  refine fun s rest => ⟨step_of_empty, fun w e hi hw => ?_, fun n v hi => ?_⟩
  · rw [step_of_move hi]; exact issueWord_of_rejects hw _
  · have hstep : step s = fillBuffer n v { s with inbox := rest } := step_of_move hi
    refine ⟨fun hn => ?_, fun hn => hstep.trans (fillBuffer_beyond (s := { s with inbox := rest }) v hn)⟩
    exact ⟨_, hstep.trans (fillBuffer_below (s := { s with inbox := rest }) v hn), rfl, Buffer.get_set_same _ _ _,
      fun m hm => Buffer.get_set_other _ _ hm⟩

/-- Settles O14: an instruction keeps both by its frame, and no other step writes either. -/
theorem parametersAreConstant : Obligations.ParametersAreConstant := by
  intro s t h
  have hcase := step_case s
  rw [h] at hcase
  generalize ho : Host.Outcome.next t = o at hcase
  cases hcase with
  | runs i rest =>
    have hframe := exec_execFrame ho.symm
    exact ⟨hframe.cfg, hframe.kind⟩
  | waits | rejects | fills => cases ho; exact ⟨rfl, rfl⟩
  | faults => cases ho

theorem strobeSet_launch : strobeSet Port.launch.ctrl = true := by decide

theorem quiescent_launch (c : Config) (k : DeviceKind) (m : List Host.Cell) : (State.launch c k m).quiescent = true :=
  quiescent_iff.mpr ⟨strobeSet_launch, rfl⟩

/-- Settles O9: the values of `State.launch`. -/
theorem launchStateIsAsSpecified : Obligations.LaunchStateIsAsSpecified :=
  fun c k m => ⟨rfl, strobeSet_launch, rfl, rfl, rfl, rfl, fun _ => rfl, rfl, rfl, rfl, rfl, rfl,
    by rw [State.launchPremises, quiescent_launch]; rfl⟩

end Sys2Proof.Machine
end

section
/-! PROOFS. The invariant (Safety.lean): every instruction from a state that meets it completes and keeps it, a WRITEBLOCK where
its bytes are in the buffer; so no step reaches a port fault. -/

namespace Sys2Proof.Machine

/-- The invariant, clause by clause. -/
structure Inv (s : State) : Prop where
  ready : Ready s
  dev : s.dev.wf = true
  buf : Buffer.wf s.cfg.blockSize s.buf = true
  stepR : s.work.stepR = .idle
  parser : s.parser = Parser.idle

theorem inv_iff {s : State} : s.inv = true ↔ Inv s := by
  simp only [State.inv, Bool.and_eq_true, decide_eq_true_eq]
  exact ⟨fun ⟨⟨⟨⟨⟨hc, hq⟩, hd⟩, hb⟩, hs⟩, hp⟩ => ⟨⟨hc, hq⟩, hd, hb, hs, hp⟩,
    fun ⟨⟨hc, hq⟩, hd, hb, hs, hp⟩ => ⟨⟨⟨⟨⟨hc, hq⟩, hd⟩, hb⟩, hs⟩, hp⟩⟩

variable {s : State}

theorem Inv.answer (h : Inv s) (code : OutcomeCode) (value : BitVec 11) : Inv (answer code value s) :=
  ⟨h.ready.congr rfl rfl, h.dev, h.buf, h.stepR, h.parser⟩

theorem Inv.withInbox (h : Inv s) (rest : List HostMove) : Inv { s with inbox := rest } :=
  ⟨h.ready.congr rfl rfl, h.dev, h.buf, h.stepR, h.parser⟩

/-- An operation that ends in a ready port, its device and buffer in form, keeps the invariant. -/
theorem Inv.conclude {u : State} (h : Inv s) (hcfg : u.cfg = s.cfg) (hparser : u.parser = s.parser) (hR : Ready u)
    (hdev : u.dev.wf = true) (hbuf : Buffer.wf s.cfg.blockSize u.buf = true) (code : OutcomeCode) (value : BitVec 11) :
    Inv (conclude code value u) :=
  ⟨hR.congr rfl rfl, hdev, by rw [conclude_cfg, hcfg]; exact hbuf, rfl, hparser.trans h.parser⟩

/-- The same for an operation that leaves the buffer alone. -/
theorem Inv.conclude_frame {u : State} (h : Inv s) (hframe : Frame s u) (hR : Ready u) (hdev : u.dev.wf = true)
    (code : OutcomeCode) (value : BitVec 11) : Inv (Machine.conclude code value u) :=
  h.conclude hframe.cfg hframe.parser hR hdev (by rw [hframe.buf]; exact h.buf) code value

/-- The outcome is a next state that meets the invariant. -/
def Completes (o : Host.Outcome State Fault Refusal) : Prop := ∃ t, o = .next t ∧ Inv t

theorem Inv.rejectRange (h : Inv s) : Completes (rejectRange s) := ⟨_, rfl, h.answer _ _⟩

theorem Inv.rejectCommand (h : Inv s) : Completes (rejectCommand s) := ⟨_, rfl, h.answer _ _⟩

theorem Inv.runParser (h : Inv s) (line : List Byte) : Completes (runParser line s) :=
  ⟨_, rfl, h.ready.congr rfl rfl, h.dev, h.buf, h.stepR, rfl⟩

/-- A byte operation completes when it does so on every address in range. -/
theorem Inv.byteOperation (h : Inv s) {addr : AddrOperand} {o : Host.Outcome State Fault Refusal}
    (hout : deviceSize ≤ addr.toNat → o = .next { s with resp := 0x1000 }) (hin : addr.toNat < deviceSize → Completes o) :
    Completes o := by
  rcases Nat.lt_or_ge addr.toNat deviceSize with hlt | hge
  · exact hin hlt
  · rw [hout hge]; exact h.rejectRange

theorem execWritebyte_outOfRange {addr : AddrOperand} (v : Byte) (s : State) (h : deviceSize ≤ addr.toNat) :
    execWritebyte addr v s = .next { s with resp := 0x1000 } := by
  unfold execWritebyte
  rw [deviceAddress_none h]
  exact rejectRange_eq s

theorem execSetaddr_completes (h : Inv s) (addr : AddrOperand) (cs : Sel) : Completes (execSetaddr addr cs s) :=
  h.byteOperation (execSetaddr_outOfRange cs s) fun haddr =>
    ⟨_, execSetaddr_inRange cs haddr h.ready.cfg h.ready.quiescent, h.ready.latched rfl rfl, h.dev, h.buf, rfl, h.parser⟩

theorem execFastwrite_completes (h : Inv s) (addr : AddrOperand) (v : Byte) : Completes (execFastwrite addr v s) :=
  h.byteOperation (execFastwrite_outOfRange v s) fun haddr =>
    ⟨_, execFastwrite_inRange v haddr h.ready, h.conclude (u := (s.begun 3 addr).afterFastWrite (addr.setWidth 15) v) rfl rfl
      ((h.ready.begun 3 addr).afterFastWrite _ v)      (wf_afterFastWrite (s := s.begun 3 addr) _ v h.dev) h.buf _ _⟩

theorem execReadbyte_completes (h : Inv s) (addr : AddrOperand) : Completes (execReadbyte addr s) :=
  h.byteOperation (execReadbyte_outOfRange s) fun haddr =>
    ⟨_, execReadbyte_inRange haddr h.ready, h.conclude (u := (s.begun 4 addr).afterRead (addr.setWidth 15)) rfl rfl
      ((h.ready.begun 4 addr).afterRead _)      (wf_afterRead (s := s.begun 4 addr) _ h.dev) h.buf _ _⟩

theorem execWritebyte_completes (h : Inv s) (addr : AddrOperand) (v : Byte) : Completes (execWritebyte addr v s) := by
  refine h.byteOperation (execWritebyte_outOfRange v s) fun haddr => ?_
  have hR := h.ready.begun 2 addr
  obtain ⟨-, o, t, hw, -⟩ := writeByte_spec hR (addr.setWidth 15) v
  exact ⟨_, execWritebyte_inRange haddr hw, h.conclude_frame ((begin_frame 2 _ s).trans (writeByte_frame hw)) (hR.writeByte hw)
    (wf_writeByte hR h.dev hw) o 0⟩

theorem execErase_completes (h : Inv s) : Completes (execErase s) := by
  have hR := h.ready.eraseBegun
  obtain ⟨t, hsweep, hRt, -⟩ := eraseSweep_spec (.running 7 1) deviceSize (a := 0) hR
  have hframe : Frame s t.parked :=
    (begin_frame 7 _ s).trans ((eraseSweep_frame hsweep).trans (latchAddress_frame (latchAddress_park hRt)))
  have hdev : t.dev.wf = true := wf_eraseSweep _ hR h.dev hsweep
  exact ⟨_, execErase_of_sweep hsweep hRt, h.conclude_frame hframe (hRt.latched rfl rfl) hdev _ _⟩

/-! ## The block operations -/

/-- A block operation past its step 0: its opcode and operands are in the working registers (10_state.md R32). -/
abbrev State.blockBegun (op : BitVec 4) (addr : AddrOperand) (count : Count) (s : State) : State :=
  begin op (blockOperands addr count) s

theorem Ready.blockBegun (h : Ready s) (op : BitVec 4) (addr : AddrOperand) (count : Count) :
    Ready (s.blockBegun op addr count) := h.congr rfl rfl

/-- READBLOCK past its step 0 (42_block_transfer.md R150). -/
theorem execReadblock_eq {addr : AddrOperand} {count : Count} (hcount : count.toNat ≤ s.cfg.blockSize) :
    execReadblock addr count s =
      finish (readLoop addr.toNat (.running 5 1) count.toNat 0 (s.blockBegun 5 addr count) >>= fun r =>
        .ok (conclude .ok (BitVec.ofNat 11 r.1) r.2)) := if_neg (Nat.not_lt.mpr hcount)

theorem execReadblock_of_loop {addr : AddrOperand} {count : Count} {n : Nat} {t : State}
    (hcount : count.toNat ≤ s.cfg.blockSize)
    (hloop : readLoop addr.toNat (.running 5 1) count.toNat 0 (s.blockBegun 5 addr count) = .ok (n, t)) :
    execReadblock addr count s = .next (conclude .ok (BitVec.ofNat 11 n) t) := by
  rw [execReadblock_eq hcount, hloop, ok_bind, finish_ok]

/-- WRITEBLOCK past its step 0 (42_block_transfer.md R151). -/
theorem execWriteblock_eq {addr : AddrOperand} {count : Count} (hcount : count.toNat ≤ s.cfg.blockSize) :
    execWriteblock addr count s =
      finish (writeLoop addr.toNat (.running 6 1) count.toNat 0 (s.blockBegun 6 addr count) >>= fun r =>
        .ok (conclude r.1 (BitVec.ofNat 11 r.2.1) r.2.2)) := if_neg (Nat.not_lt.mpr hcount)

theorem execWriteblock_of_loop {addr : AddrOperand} {count : Count} {o : OutcomeCode} {n : Nat} {t : State}
    (hcount : count.toNat ≤ s.cfg.blockSize)
    (hloop : writeLoop addr.toNat (.running 6 1) count.toNat 0 (s.blockBegun 6 addr count) = .ok (o, n, t)) :
    execWriteblock addr count s = .next (conclude o (BitVec.ofNat 11 n) t) := by
  rw [execWriteblock_eq hcount, hloop, ok_bind, finish_ok]

theorem execReadblock_completes (h : Inv s) (addr : AddrOperand) (count : Count) : Completes (execReadblock addr count s) := by
  rcases Nat.lt_or_ge s.cfg.blockSize count.toNat with hover | hcount
  · rw [execReadblock_overCount addr hover]; exact h.rejectCommand
  have hR := h.ready.blockBegun 5 addr count
  obtain ⟨t, hloop, hRt, -⟩ := readLoop_spec addr.toNat (.running 5 1) count.toNat (i := 0) hR
  obtain ⟨hdev, hbuf⟩ := wf_readLoop _ hR h.dev h.buf (by rw [Nat.zero_add]; exact hcount) hloop
  have hframe := (begin_frame 5 _ s).trans (readLoop_frame hloop)
  have hcfg : t.cfg = s.cfg := hframe.cfg
  exact ⟨_, execReadblock_of_loop hcount hloop, h.conclude hcfg hframe.parser hRt hdev hbuf _ _⟩

theorem filled_iff {n : Nat} : s.filled n = true ↔ ∀ j, j < n → (Buffer.get s.buf j).isSome = true := by
  simp [State.filled]

theorem execWriteblock_keepsInv {t : State} (h : Inv s) {addr : AddrOperand} {count : Count}
    (ht : execWriteblock addr count s = .next t) : Inv t := by
  rcases Nat.lt_or_ge s.cfg.blockSize count.toNat with hover | hcount
  · rw [execWriteblock_overCount addr hover] at ht
    cases ht; exact h.answer .illegalCommand 0
  rw [execWriteblock_eq hcount] at ht
  obtain ⟨r, hloop, hr⟩ := bind_eq_ok (finish_eq_next ht)
  cases hr
  obtain ⟨hdev, hRt⟩ := wf_writeLoop _ (h.ready.blockBegun 6 addr count) h.dev hloop
  exact h.conclude_frame ((begin_frame 6 _ s).trans (writeLoop_frame hloop)) hRt hdev _ _

/-- With the bytes it will use in the buffer WRITEBLOCK completes (70_reset_and_hazards.md R233 (4)). -/
theorem execWriteblock_completes (h : Inv s) {addr : AddrOperand} {count : Count}
    (hfilled : s.filled (clipped addr.toNat count.toNat) = true) : Completes (execWriteblock addr count s) := by
  rcases Nat.lt_or_ge s.cfg.blockSize count.toNat with hover | hcount
  · rw [execWriteblock_overCount addr hover]; exact h.rejectCommand
  obtain ⟨o, k, t, -, hloop, -⟩ := writeLoop_spec addr.toNat (.running 6 1) count.toNat (i := 0)
    (h.ready.blockBegun 6 addr count) fun j _ hj => filled_iff.mp hfilled j (by simpa [clipped] using hj)
  have hnext := execWriteblock_of_loop hcount hloop
  exact ⟨_, hnext, execWriteblock_keepsInv h hnext⟩

theorem execWriteblock_fault {f : Fault} (hR : Ready s) {addr : AddrOperand} {count : Count}
    (hf : execWriteblock addr count s = .fault f) : f = .noValue .buffer := by
  rcases Nat.lt_or_ge s.cfg.blockSize count.toNat with hover | hcount
  · rw [execWriteblock_overCount addr hover] at hf; cases hf
  rw [execWriteblock_eq hcount] at hf
  cases hloop : writeLoop addr.toNat (.running 6 1) count.toNat 0 (s.blockBegun 6 addr count) with
  | ok r => rw [hloop] at hf; cases hf
  | error e =>
    rw [hloop] at hf; cases hf
    exact writeLoop_fault _ (hR.blockBegun 6 addr count) hloop

/-! ## Every instruction -/

/-- Every instruction but WRITEBLOCK completes, and WRITEBLOCK with its bytes in the buffer. -/
theorem exec_completes (h : Inv s) (i : Instr)
    (hfilled : ∀ addr count, i = .writeblock addr count → s.filled (clipped addr.toNat count.toNat) = true) :
    Completes (exec i s) := by
  cases i with
  | setaddr addr cs => exact execSetaddr_completes h addr cs
  | writebyte addr v => exact execWritebyte_completes h addr v
  | fastwrite addr v => exact execFastwrite_completes h addr v
  | readbyte addr => exact execReadbyte_completes h addr
  | readblock addr count => exact execReadblock_completes h addr count
  | writeblock addr count => exact execWriteblock_completes h (hfilled addr count rfl)
  | erase => exact execErase_completes h
  | illegalOp0 | illegalOp8F => exact h.rejectCommand
  | parseS1 | parseS0 | parseS2 | parseS3 | parseS4 | parseS5 | parseS6 | parseS7 | parseS8 | parseS9 | parseOther =>
    exact h.runParser _

/-- Settles O12: each instruction by its own lemma. -/
theorem everyInstructionCompletes : Obligations.EveryInstructionCompletes := by
  intro i s h hfilled
  obtain ⟨t, ht, hinv⟩ := exec_completes (inv_iff.mp h) i hfilled
  exact ⟨t, ht, inv_iff.mpr hinv⟩

/-- An instruction is a WRITEBLOCK, or it completes. -/
theorem writeblock_or_completes (h : Inv s) (i : Instr) :
    (∃ addr count, i = .writeblock addr count) ∨ Completes (exec i s) := by
  by_cases hw : ∃ addr count, i = .writeblock addr count
  · exact .inl hw
  · exact .inr (exec_completes h i fun addr count hi => absurd ⟨addr, count, hi⟩ hw)

theorem exec_keepsInv {t : State} (h : Inv s) {i : Instr} (ht : exec i s = .next t) : Inv t := by
  rcases writeblock_or_completes h i with ⟨addr, count, rfl⟩ | ⟨u, hu, hinv⟩
  · exact execWriteblock_keepsInv h ht
  · cases hu.symm.trans ht; exact hinv

theorem exec_fault {f : Fault} (h : Inv s) {i : Instr} (hf : exec i s = .fault f) : f = .noValue .buffer := by
  rcases writeblock_or_completes h i with ⟨addr, count, rfl⟩ | ⟨u, hu, -⟩
  · exact execWriteblock_fault h.ready hf
  · cases hu.symm.trans hf

theorem finish_ne_refused (x : Except Fault State) (r : Refusal) : finish x ≠ .refused r := by
  cases x <;> simp [finish]

/-- No instruction is refused, from any state. -/
theorem exec_ne_refused (i : Instr) (s : State) (r : Refusal) : exec i s ≠ .refused r := by
  have hrange : rejectRange s ≠ .refused r := nofun
  have hcommand : rejectCommand s ≠ .refused r := nofun
  cases i with
  | setaddr | writebyte | fastwrite | readbyte =>
    simp only [exec, execSetaddr, execWritebyte, execFastwrite, execReadbyte]
    split
    · exact hrange
    · exact finish_ne_refused _ r
  | readblock | writeblock =>
    simp only [exec, execReadblock, execWriteblock]
    split
    · exact hcommand
    · exact finish_ne_refused _ r
  | erase => exact finish_ne_refused _ r
  | illegalOp0 | illegalOp8F => exact hcommand
  | parseS1 | parseS0 | parseS2 | parseS3 | parseS4 | parseS5 | parseS6 | parseS7 | parseS8 | parseS9 | parseOther => nofun

/-- Settles O11: an instruction keeps the invariant, and the other steps touch `inbox`, `resp` or one buffer element that
exists. -/
theorem everyStepKeepsTheInvariant : Obligations.EveryStepKeepsTheInvariant := by
  intro s t hs h
  have hinv := inv_iff.mp hs
  refine inv_iff.mpr ?_
  have hcase := step_case s
  rw [h] at hcase
  generalize ho : Host.Outcome.next t = o at hcase
  cases hcase with
  | waits => cases ho; exact hinv
  | runs i rest => exact exec_keepsInv (hinv.withInbox rest) ho.symm
  | rejects rest => cases ho; exact (hinv.withInbox rest).answer .illegalCommand 0
  | fills rest n v hn =>
    cases ho
    exact ⟨hinv.ready.congr rfl rfl, hinv.dev, Buffer.wf_set v hn hinv.buf, hinv.stepR, hinv.parser⟩
  | faults => cases ho

/-- Settles O13: an instruction faults only in WRITEBLOCK's loop, a step otherwise only on a fill, and nothing in the model is
refused. -/
theorem noPortFaultFromTheInvariant : Obligations.NoPortFaultFromTheInvariant := by
  refine ⟨fun s f hs h => ?_, fun s r h => ?_⟩
  all_goals
    have hcase := step_case s
    rw [h] at hcase
  · generalize ho : Host.Outcome.fault f = o at hcase
    cases hcase with
    | runs i rest => exact .inl (exec_fault ((inv_iff.mp hs).withInbox rest) ho.symm)
    | faults => cases ho; exact .inr rfl
    | waits | rejects | fills => cases ho
  · generalize ho : Host.Outcome.refused r = o at hcase
    cases hcase with
    | runs i rest => exact exec_ne_refused i _ r ho.symm
    | waits | rejects | fills | faults => cases ho

theorem inv_launch {c : Config} {m : List Host.Cell} (k : DeviceKind) (hc : c.wf = true) (hm : Memory.wf m = true) :
    Inv (State.launch c k m) :=
  ⟨⟨hc, quiescent_launch c k m⟩, by simp [State.launch, Device.wf, hm, Pend.wf], rfl, rfl, rfl⟩

/-- Settles O10: the launch state is quiescent and idle whatever its parameters and memory, which the hypotheses put in
form. -/
theorem invariantHoldsAtLaunch : Obligations.InvariantHoldsAtLaunch :=
  ⟨inv_iff.mpr (inv_launch .contract (by decide) rfl), fun _ k _ hc hm => inv_iff.mpr (inv_launch k hc hm)⟩

end Sys2Proof.Machine
end

section
/-! PROOFS. RESP (10_state.md R31): no instruction reads it, and which responses each instruction writes (30_encoding.md
R99). -/

namespace Sys2Proof.Machine

/-! ## No instruction reads RESP -/

variable (r : BitVec 16)

/-- What an operation ends in does not depend on what its last step forgets. -/
theorem map_bind_ok {α : Type} (x : Except Fault α) (f : α → α) (k : α → State) (hk : ∀ a, k (f a) = k a) :
    (x.map f >>= fun a => .ok (k a)) = x >>= fun a => .ok (k a) := by
  cases x with
  | error e => rfl
  | ok a => exact congrArg Except.ok (hk a)

theorem execSetaddr_withResp (addr : AddrOperand) (cs : Sel) (s : State) :
    execSetaddr addr cs (s.withResp r) = execSetaddr addr cs s := by
  unfold execSetaddr
  split
  · rfl
  · rename_i a _
    refine congrArg finish ?_
    change (latchAddress a cs ((begin 1 (fun w => { w with addrR := addr, csR := cs }) s).withResp r) >>= fun t =>
      .ok (conclude .ok 0 t)) = _
    rw [latchAddress_withResp, map_bind_ok]
    intro t; rfl

theorem execWritebyte_withResp (addr : AddrOperand) (v : Byte) (s : State) :
    execWritebyte addr v (s.withResp r) = execWritebyte addr v s := by
  unfold execWritebyte
  split
  · rfl
  · rename_i a _
    refine congrArg finish ?_
    change (writeByte a v ((s.begun 2 addr).withResp r) >>= fun t => .ok (conclude t.1 0 t.2)) = _
    rw [writeByte_withResp, map_bind_ok]
    intro t; rfl

theorem execFastwrite_withResp (addr : AddrOperand) (v : Byte) (s : State) :
    execFastwrite addr v (s.withResp r) = execFastwrite addr v s := by
  unfold execFastwrite
  split
  · rfl
  · rename_i a _
    refine congrArg finish ?_
    change (fastWrite a v ((s.begun 3 addr).withResp r) >>= fun t => .ok (conclude .ok 0 t)) = _
    rw [fastWrite_withResp, map_bind_ok]
    intro t; rfl

theorem execReadbyte_withResp (addr : AddrOperand) (s : State) :
    execReadbyte addr (s.withResp r) = execReadbyte addr s := by
  unfold execReadbyte
  split
  · rfl
  · rename_i a _
    refine congrArg finish ?_
    change (readByte a ((s.begun 4 addr).withResp r) >>= fun t => .ok (conclude .ok (t.work.rbR.setWidth 11) t)) = _
    rw [readByte_withResp, map_bind_ok]
    intro t; rfl

theorem execReadblock_withResp (addr : AddrOperand) (count : Count) (s : State) :
    execReadblock addr count (s.withResp r) = execReadblock addr count s := by
  rcases Nat.lt_or_ge s.cfg.blockSize count.toNat with hover | hcount
  · rw [execReadblock_overCount addr hover]; exact execReadblock_overCount (s := s.withResp r) addr hover
  rw [execReadblock_eq hcount, execReadblock_eq (s := s.withResp r) hcount]
  refine congrArg finish ?_
  change (readLoop _ _ _ 0 ((s.blockBegun 5 addr count).withResp r) >>= fun t =>
    .ok (conclude .ok (BitVec.ofNat 11 t.1) t.2)) = _
  rw [readLoop_withResp, map_bind_ok]
  intro t; rfl

theorem execWriteblock_withResp (addr : AddrOperand) (count : Count) (s : State) :
    execWriteblock addr count (s.withResp r) = execWriteblock addr count s := by
  rcases Nat.lt_or_ge s.cfg.blockSize count.toNat with hover | hcount
  · rw [execWriteblock_overCount addr hover]; exact execWriteblock_overCount (s := s.withResp r) addr hover
  rw [execWriteblock_eq hcount, execWriteblock_eq (s := s.withResp r) hcount]
  refine congrArg finish ?_
  change (writeLoop _ _ _ 0 ((s.blockBegun 6 addr count).withResp r) >>= fun t =>
    .ok (conclude t.1 (BitVec.ofNat 11 t.2.1) t.2.2)) = _
  rw [writeLoop_withResp, map_bind_ok]
  intro t; rfl

/-- The final deselect of ERASE and its response. -/
theorem execErase_withResp (s : State) : execErase (s.withResp r) = execErase s := by
  unfold execErase
  refine congrArg finish ?_
  change (eraseSweep _ _ 0 (s.eraseBegun.withResp r) >>= _) = _
  rw [eraseSweep_withResp]
  cases eraseSweep (.running 7 1) deviceSize 0 s.eraseBegun with
  | error e => rfl
  | ok t =>
    change (latchAddress t.cfg.eraseParkAddr .desel (t.withResp r) >>= fun u => .ok (conclude .ok 0 u)) = _
    rw [latchAddress_withResp, map_bind_ok]
    · rfl
    · intro u; rfl

/-- An instruction that answers ends in the same way whatever RESP held. -/
theorem exec_withResp {i : Instr} (hi : isParse i = false) (s : State) : exec i (s.withResp r) = exec i s := by
  cases i with
  | setaddr addr cs => exact execSetaddr_withResp r addr cs s
  | writebyte addr v => exact execWritebyte_withResp r addr v s
  | fastwrite addr v => exact execFastwrite_withResp r addr v s
  | readbyte addr => exact execReadbyte_withResp r addr s
  | readblock addr count => exact execReadblock_withResp r addr count s
  | writeblock addr count => exact execWriteblock_withResp r addr count s
  | erase => exact execErase_withResp r s
  | illegalOp0 | illegalOp8F => rfl
  | parseS1 | parseS0 | parseS2 | parseS3 | parseS4 | parseS5 | parseS6 | parseS7 | parseS8 | parseS9 | parseOther => cases hi

/-- Every row of PARSELINE runs the parser on some line. -/
theorem exec_of_isParse {i : Instr} (hi : isParse i = true) : ∃ line, ∀ s, exec i s = runParser line s := by
  cases i with
  | parseS1 | parseS0 | parseS2 | parseS3 | parseS4 | parseS5 | parseS6 | parseS7 | parseS8 | parseS9 | parseOther =>
    exact ⟨_, fun _ => rfl⟩
  | setaddr | writebyte | fastwrite | readbyte | readblock | writeblock | erase | illegalOp0 | illegalOp8F => cases hi

/-- Settles O15: PARSELINE carries RESP along, and every other instruction ends in the very same way. -/
theorem noInstructionReadsResp : Obligations.NoInstructionReadsResp := by
  intro i s r
  cases hi : isParse i with
  | true =>
    obtain ⟨line, hline⟩ := exec_of_isParse hi
    simp only [hline]
    exact ⟨fun t ht => ⟨r, by cases ht; rfl, nofun⟩, nofun⟩
  | false =>
    have hexec : exec i { s with resp := r } = exec i s := exec_withResp r hi s
    rw [hexec]
    exact ⟨fun t ht => ⟨t.resp, ht, fun _ => rfl⟩, fun f hf => hf⟩

/-! ## Which responses each instruction writes -/

/-- The outcomes of a byte's write (41_byte_engine.md R136). -/
def OutcomeCode.EndsWrite (o : OutcomeCode) : Prop := o = .ok ∨ o = .timedOut ∨ o = .verifyMismatch

theorem pollLoop_outcome {a : DevAddr} {v : Byte} {head : StepIndex} {n : Nat} {s : State} {x : OutcomeCode × State}
    (h : pollLoop a v head n s = .ok x) : x.1.EndsWrite := by
  induction n generalizing s with
  | zero => cases h; exact .inr (.inl rfl)
  | succ n ih =>
    obtain ⟨u, -, h⟩ := bind_eq_ok h
    simp only at h
    split at h
    · cases h
      change (if _ then OutcomeCode.ok else .verifyMismatch).EndsWrite
      split
      · exact .inl rfl
      · exact .inr (.inr rfl)
    · exact ih h

theorem writeByte_outcome {a : DevAddr} {v : Byte} {s : State} {x : OutcomeCode × State} (h : writeByte a v s = .ok x) :
    x.1.EndsWrite := by
  obtain ⟨u, -, h⟩ := bind_eq_ok h
  obtain ⟨w, -, h⟩ := bind_eq_ok h
  exact pollLoop_outcome h

theorem writeLoop_outcome {addr : Nat} {head : StepIndex} {n i : Nat} {s : State} {x : OutcomeCode × Nat × State}
    (h : writeLoop addr head n i s = .ok x) : x.1.EndsWrite := by
  induction n generalizing s i with
  | zero => cases h; exact .inl rfl
  | succ n ih =>
    unfold writeLoop at h
    split at h
    · cases h; exact .inl rfl
    · split at h
      · cases h
      · obtain ⟨q, hq, h⟩ := bind_eq_ok h
        split at h
        · exact ih h
        · cases h; exact writeByte_outcome hq

/-- `t` holds a response that 30_encoding.md R99 allows `i`. -/
def Answers (i : Instr) (t : State) : Prop :=
  ∃ o v, t.resp = respWord o v ∧ responseAllowed i o ∧
    ((∀ addr, i ≠ .readbyte addr) → (∀ addr n, i ≠ .readblock addr n) → (∀ addr n, i ≠ .writeblock addr n) → v = 0)

variable {i : Instr} {s t : State}

/-- A response without a value. -/
theorem Answers.of_zero {o : OutcomeCode} (ho : responseAllowed i o) (ht : t.resp = respWord o 0) : Answers i t :=
  ⟨o, 0, ht, ho, fun _ _ _ => rfl⟩

theorem rejectRange_answers (ho : responseAllowed i .outOfRange) (h : rejectRange s = .next t) : Answers i t := by
  cases h; exact .of_zero ho rfl

theorem rejectCommand_answers (ho : responseAllowed i .illegalCommand) (h : rejectCommand s = .next t) : Answers i t := by
  cases h; exact .of_zero ho rfl

/-- The code of `Ok` is its own (60_exceptions.md R200). -/
theorem outcomeBits_eq_zero_iff {o : OutcomeCode} : outcomeBits o = 0 ↔ o = .ok := by
  cases o <;> decide

theorem outcome_ok_of_respWord_eq {o : OutcomeCode} {v w : BitVec 11} (h : respWord o v = respWord .ok w) : o = .ok := by
  have hcode := congrArg respCode h
  rw [respCode_respWord, respCode_respWord] at hcode
  exact outcomeBits_eq_zero_iff.mp hcode

/-- An operation that ends with a response has written it. -/
theorem finish_conclude_resp {α : Type} {x : Except Fault α} {code : α → OutcomeCode} {value : α → BitVec 11}
    {next : α → State} (h : finish (x >>= fun a => .ok (conclude (code a) (value a) (next a))) = .next t) :
    ∃ a, x = .ok a ∧ t.resp = respWord (code a) (value a) := by
  obtain ⟨a, ha, h⟩ := bind_eq_ok (finish_eq_next h)
  cases h
  exact ⟨a, ha, rfl⟩

theorem execSetaddr_answers {addr : AddrOperand} {cs : Sel} (h : execSetaddr addr cs s = .next t) :
    Answers (.setaddr addr cs) t := by
  unfold execSetaddr at h
  split at h
  · exact rejectRange_answers (.inr rfl) h
  · obtain ⟨_, -, ht⟩ := finish_conclude_resp h
    exact .of_zero (.inl rfl) ht

theorem execWritebyte_answers {addr : AddrOperand} {v : Byte} (h : execWritebyte addr v s = .next t) :
    Answers (.writebyte addr v) t := by
  unfold execWritebyte at h
  split at h
  · exact rejectRange_answers (.inr (.inr (.inr rfl))) h
  · obtain ⟨x, hx, ht⟩ := finish_conclude_resp h
    exact .of_zero ((writeByte_outcome hx).imp_right (Or.imp_right .inl)) ht

theorem execFastwrite_answers {addr : AddrOperand} {v : Byte} (h : execFastwrite addr v s = .next t) :
    Answers (.fastwrite addr v) t := by
  unfold execFastwrite at h
  split at h
  · exact rejectRange_answers (.inr rfl) h
  · obtain ⟨_, -, ht⟩ := finish_conclude_resp h
    exact .of_zero (.inl rfl) ht

theorem execReadbyte_answers {addr : AddrOperand} (h : execReadbyte addr s = .next t) : Answers (.readbyte addr) t := by
  unfold execReadbyte at h
  split at h
  · exact rejectRange_answers (.inr rfl) h
  · obtain ⟨_, -, ht⟩ := finish_conclude_resp h
    exact ⟨_, _, ht, .inl rfl, fun hn => absurd rfl (hn addr)⟩

theorem execReadblock_answers {addr : AddrOperand} {count : Count} (h : execReadblock addr count s = .next t) :
    Answers (.readblock addr count) t := by
  unfold execReadblock at h
  split at h
  · exact rejectCommand_answers (.inr rfl) h
  · obtain ⟨_, -, ht⟩ := finish_conclude_resp h
    exact ⟨_, _, ht, .inl rfl, fun _ hn => absurd rfl (hn addr count)⟩

theorem execWriteblock_answers {addr : AddrOperand} {count : Count} (h : execWriteblock addr count s = .next t) :
    Answers (.writeblock addr count) t := by
  unfold execWriteblock at h
  split at h
  · exact rejectCommand_answers (.inr (.inr (.inr rfl))) h
  · obtain ⟨x, hx, ht⟩ := finish_conclude_resp h
    exact ⟨_, _, ht, (writeLoop_outcome hx).imp_right (Or.imp_right .inl), fun _ _ hn => absurd rfl (hn addr count)⟩

theorem execErase_answers (h : execErase s = .next t) : Answers .erase t := by
  obtain ⟨_, -, h⟩ := bind_eq_ok (finish_eq_next h)
  obtain ⟨_, -, h⟩ := bind_eq_ok h
  cases h
  exact .of_zero rfl rfl

theorem exec_answers (hi : isParse i = false) (h : exec i s = .next t) : Answers i t := by
  cases i with
  | setaddr addr cs => exact execSetaddr_answers h
  | writebyte addr v => exact execWritebyte_answers h
  | fastwrite addr v => exact execFastwrite_answers h
  | readbyte addr => exact execReadbyte_answers h
  | readblock addr count => exact execReadblock_answers h
  | writeblock addr count => exact execWriteblock_answers h
  | erase => exact execErase_answers h
  | illegalOp0 | illegalOp8F => exact rejectCommand_answers rfl h
  | parseS1 | parseS0 | parseS2 | parseS3 | parseS4 | parseS5 | parseS6 | parseS7 | parseS8 | parseS9 | parseOther => cases hi

/-- Settles O16: PARSELINE's parser leaves RESP, and each other instruction answers by its own lemma. -/
theorem responsesByOperation : Obligations.ResponsesByOperation := by
  refine fun i s t h => ⟨fun hi => ?_, fun hi => exec_answers hi h⟩
  obtain ⟨line, hline⟩ := exec_of_isParse hi
  rw [hline] at h
  cases h; rfl

end Sys2Proof.Machine
end

section
/-! PROOFS. The port calls (20_memory.md R58, R60, R63, R67 to R71): what a control write does under every line that it ends or
leaves alone, and when it ends in contention. -/

namespace Sys2Proof.Machine

variable {s : State} {c : Byte}

/-- Settles O19: neither call touches anything before the look for contention, which changes nothing and which an inactive port
passes. -/
theorem writeDataAndSetDirection : Obligations.WriteDataAndSetDirection :=
  fun _ _ => ⟨fun _ h => settle_eq_ok h, fun _ h => settle_eq_ok h,
    fun hs => ⟨fun b => ⟨_, writeData_ok b hs⟩, fun d => ⟨_, setDirection_ok d hs⟩⟩⟩

/-- The control byte stored, with its eight bits (20_memory.md R60). -/
def State.controlled (c : Byte) (s : State) : State := { s with port := { s.port with ctrl := c } }

theorem controlled_fselKnown (hk : s.port.fselKnown = true) (c : Byte) :
    { s with port.ctrl := c, port.fselKnown := true } = s.controlled c := by
  unfold State.controlled
  dsimp only
  rw [hk]

/-! ## A control write under which no line goes inactive, or only OE does -/

/-- No latch and no write is captured between these two lines (20_memory.md R67). -/
theorem applyEdge_without_capture {was now : Option Fn} (h : was = none ∨ was = now ∨ was = some .oe) (s : State) :
    applyEdge was now s = .ok s := by
  unfold applyEdge
  cases was with
  | none => rfl
  | some f =>
    rcases h with h | h | h
    · cases h
    · exact if_pos h.symm
    · cases h
      change (if now = some .oe then _ else Except.ok s) = _
      split <;> rfl

theorem activeLine_unknown (hs : strobeSet s.port.ctrl = false) (hk : s.port.fselKnown = false) :
    activeLine s = .error (.noValue .function) := by
  simp [activeLine, hs, hk]

/-- A control write that captures nothing stores the byte and is then looked at for contention. -/
theorem writeControl_of_activeLine {was : Option Fn} (hwas : activeLine s = .ok was)
    (h : was = none ∨ was = lineUnder s.cfg c ∨ was = some .oe) :
    writeControl c s = settle (emit (.wc c) { s with port.ctrl := c, port.fselKnown := true }) := by
  unfold writeControl
  rw [hwas, ok_bind, applyEdge_without_capture h, ok_bind]

/-- Settles O57: with no capture a control write is its byte in CTRL and the look for contention; the line that was active is
known when the strobe is set or FSEL has a value. -/
theorem controlWriteWithoutACapture : Obligations.ControlWriteWithoutACapture := by
  refine fun s c => ⟨fun h => ?_, fun hs hk => ?_⟩
  · have hwrite : writeControl c s = settle (emit (.wc c) { s with port.ctrl := c, port.fselKnown := true }) := by
      rcases h with hs | ⟨hk, hline⟩
      · exact writeControl_of_activeLine (activeLine_set hs) (.inl rfl)
      · exact writeControl_of_activeLine (activeLine_of_fselKnown hk) hline
    rw [hwrite]
    exact settle_checked rfl
  · unfold writeControl
    rw [activeLine_unknown hs hk, error_bind]

/-! ## A control write that ends a line -/

/-- A control write under which `f` is no longer active is the trailing edge of `f` and the look for contention (20_memory.md
R67). -/
theorem writeControl_of_lineEnds {f : Fn} (hk : s.port.fselKnown = true) (hwas : lineUnder s.cfg s.port.ctrl = some f)
    (hnow : lineUnder s.cfg c ≠ some f) :
    writeControl c s = trailingEdge f (s.controlled c) >>= fun t => settle (emit (.wc c) t) := by
  rw [writeControl_eq c hk, hwas, controlled_fselKnown hk]
  exact congrArg (· >>= fun t => settle (emit (.wc c) t)) (if_neg hnow)

theorem capturedLines_driven (hd : s.port.dir = .out) (hk : s.port.dataKnown = true) :
    capturedLines s = .ok s.port.data := if_pos ⟨hd, hk⟩

theorem capturedLines_floating (h : s.port.dir = .inp ∨ s.port.dataKnown = false) :
    capturedLines s = .error .floatingCapture := by
  refine if_neg fun ⟨hd, hk⟩ => ?_
  rcases h with h | h
  · rw [hd] at h; cases h
  · rw [hk] at h; cases h

theorem trailingEdge_low_floating (h : s.port.dir = .inp ∨ s.port.dataKnown = false) :
    trailingEdge .low s = .error .floatingCapture := by
  unfold trailingEdge
  rw [capturedLines_floating h]; rfl

theorem trailingEdge_high_floating (h : s.port.dir = .inp ∨ s.port.dataKnown = false) :
    trailingEdge .high s = .error .floatingCapture := by
  unfold trailingEdge
  rw [capturedLines_floating h]; rfl

/-- Settles O20: the trailing edge captures the driven lines or faults, and the look for contention follows. -/
theorem latchCaptureAtTheTrailingEdge : Obligations.LatchCaptureAtTheTrailingEdge := by
  refine fun s c hk => ⟨fun hwas hnow => ⟨fun hd hdata => ?_, fun hfloat => ?_⟩,
    fun hwas hnow => ⟨fun hd hdata => ?_, fun hfloat => ?_⟩⟩
  all_goals rw [writeControl_of_lineEnds hk hwas hnow]
  · unfold trailingEdge
    rw [capturedLines_driven (s := s.controlled c) hd hdata]
    exact settle_checked hk
  · rw [trailingEdge_low_floating (s := s.controlled c) hfloat, error_bind]
  · unfold trailingEdge
    rw [capturedLines_driven (s := s.controlled c) hd hdata]
    exact settle_checked hk
  · rw [trailingEdge_high_floating (s := s.controlled c) hfloat, error_bind]

theorem selected_iff : selected s = true ↔ csPin s.port = s.cfg.csSelLevel := by simp [selected]

theorem commitEdge_selected (hh : s.port.latchHiKnown = true) (hs : selected s = true) (hl : s.port.latchLoKnown = true)
    (hk : s.port.dataKnown = true) (hd : s.port.dir = .out) :
    commitEdge s = .ok (devWrite (addressPins s.port) s.port.data s) := by
  unfold commitEdge
  rw [if_neg (by simp [hh]), if_neg (by simp [hs]), if_pos ⟨hd, hk, hl⟩]

theorem commitEdge_notSelected (hh : s.port.latchHiKnown = true) (hs : selected s = false) : commitEdge s = .ok s := by
  unfold commitEdge
  rw [if_neg (by simp [hh]), if_pos hs]

theorem commitEdge_unlatched (hh : s.port.latchHiKnown = false) : commitEdge s = .error .floatingCapture := if_pos hh

theorem commitEdge_floating (hh : s.port.latchHiKnown = true) (hs : selected s = true)
    (h : s.port.dir = .inp ∨ s.port.latchLoKnown = false ∨ s.port.dataKnown = false) :
    commitEdge s = .error .floatingCapture := by
  unfold commitEdge
  rw [if_neg (by simp [hh]), if_neg (by simp [hs]), if_neg]
  rintro ⟨hd, hk, hl⟩
  rcases h with h | h | h
  · rw [hd] at h; cases h
  · rw [hl] at h; cases h
  · rw [hk] at h; cases h

/-- A device that is not selected never drives the lines (20_memory.md R70). -/
theorem settle_notSelected (hk : s.port.fselKnown = true) (hh : s.port.latchHiKnown = true)
    (hs : csPin s.port ≠ s.cfg.csSelLevel) : settle s = .ok s := by
  obtain ⟨hinactive, -, hother, -⟩ := settle_checked hk
  by_cases hoe : lineUnder s.cfg s.port.ctrl = some .oe
  · exact hother hoe hh hs
  · exact hinactive hoe

/-- Settles O21: the trailing edge of WE commits, does nothing or faults by what the pins and the data lines hold, which the
control byte does not touch. -/
theorem writeCommitAtTheTrailingEdge : Obligations.WriteCommitAtTheTrailingEdge := by
  intro s c hk hwas hnow after
  have hwrite : writeControl c s = commitEdge (s.controlled c) >>= fun t => settle (emit (.wc c) t) :=
    writeControl_of_lineEnds hk hwas hnow
  have hselected (h : csPin s.port = s.cfg.csSelLevel) : selected (s.controlled c) = true := selected_iff.mpr h
  refine ⟨fun hh hs hl hdata hd => ?_, fun hh hs => ?_, fun hh => ?_, fun hh hs hfloat => ?_⟩
  all_goals rw [hwrite]
  · rw [commitEdge_selected (s := s.controlled c) hh (hselected hs) hl hdata hd, ok_bind]
    exact settle_checked hk
  · have hother : selected (s.controlled c) = false := beq_false_of_ne hs
    rw [commitEdge_notSelected (s := s.controlled c) hh hother, ok_bind]
    exact settle_notSelected hk hh hs
  · rw [commitEdge_unlatched (s := s.controlled c) hh, error_bind]
  · rw [commitEdge_floating (s := s.controlled c) hh (hselected hs) hfloat, error_bind]

/-! ## Contention -/

theorem settle_contention (h : deviceDrives s = .ok true) (hd : s.port.dir = .out) : settle s = .error .busContention := by
  unfold settle
  rw [h]
  exact if_pos ⟨rfl, hd⟩

/-- Settles O23: in either order the device drives with `DIR = out` when the call's own change is made. -/
theorem directionBeforeOutputEnable : Obligations.DirectionBeforeOutputEnable := by
  intro s hc hl hh hs
  have hsel : selected s = true := selected_iff.mpr hs
  refine ⟨fun hset hd => ?_, fun hk hctrl => ?_⟩
  · rw [writeControl_of_activeLine (activeLine_set hset) (.inl rfl)]
    exact settle_contention (deviceDrives_selected hc rfl rfl hl hh hsel) hd
  · exact settle_contention (s := emit (.dir .out) { s with port.dir := .out })
      (deviceDrives_selected hc hctrl hk hl hh hsel) rfl

end Sys2Proof.Machine
end

section
/-! PROOFS. The device's reactions (20_memory.md R72 to R74). -/

namespace Sys2Proof.Machine

theorem Device.consumed_idle {d : Device} (hp : d.pend = .none) : d.consumed = d := by simp [Device.consumed, hp]

/-- Settles O24: an idle device answers what it holds, a busy one the pending byte with bit 7 inverted. -/
theorem deviceReadContract : Obligations.DeviceReadContract :=
  fun _ draw a hk => ⟨fun hp => ⟨Device.answer_idle draw a hk hp, Device.consumed_idle hp⟩,
    fun _ _ _ hp => Device.answer_busy_bit7 draw a hk hp⟩

/-- Under the contract a completing write stores its byte, and no other (20_memory.md R73). -/
theorem Device.read_complete {d : Device} (hk : d.kind.keepsContract = true) (a b : DevAddr) (v : Byte) :
    Memory.read (d.complete a v).mem b = if b = a then v else Memory.read d.mem b := by
  rw [Device.complete_mem, DeviceKind.stored_of_keepsContract hk]
  split
  · subst_vars; exact Memory.read_write_same _ _ _
  · exact Memory.read_write_other _ _ ‹_›

/-- A new write finds an earlier one with a finite budget completed (20_memory.md R73). -/
theorem Device.overtaken_finite {d : Device} {a : DevAddr} {v : Byte} {k : Nat} (hp : d.pend = .busy a v (.finite k)) :
    d.overtaken = d.complete a v := by simp [Device.overtaken, hp]

/-- A new write finds an earlier one with an infinite budget abandoned (20_memory.md R73). -/
theorem Device.overtaken_infinite {d : Device} {a : DevAddr} {v : Byte} (hp : d.pend = .busy a v .infinite) :
    d.overtaken = { d with pend := .none } := by simp [Device.overtaken, hp]

theorem Device.overtaken_idle {d : Device} (hp : d.pend = .none) : d.overtaken = d := by simp [Device.overtaken, hp]

theorem Device.accept_of_ne_zero (d : Device) (a : DevAddr) (v : Byte) {k : Budget} (hk : k ≠ .finite 0) :
    d.accept a v k = { d with pend := .busy a v k } := by
  unfold Device.accept
  split
  · exact absurd rfl hk
  · rfl

/-- Settles O25: the device that a new write finds is `overtaken`, and it accepts the write as complete or as pending. -/
theorem deviceWriteContract : Obligations.DeviceWriteContract := by
  intro a v s hk t k
  have hover : s.dev.overtaken.kind.keepsContract = true := by simpa using hk
  have hdev : t.dev = s.dev.overtaken.accept a v k := rfl
  rw [hdev]
  refine ⟨fun h0 => ?_, fun h0 => ?_, fun b hb => ?_⟩
  · rw [h0]
    exact ⟨rfl, (Device.read_complete hover a a v).trans (if_pos rfl)⟩
  · rw [Device.accept_of_ne_zero _ _ _ h0]
  · have hother : Memory.read (s.dev.overtaken.accept a v k).mem b = Memory.read s.dev.overtaken.mem b := by
      by_cases h0 : k = .finite 0
      · rw [h0]
        exact (Device.read_complete hover a b v).trans (if_neg (hb h0))
      · rw [Device.accept_of_ne_zero _ _ _ h0]
    rw [hother]
    rcases hp : s.dev.pend with _ | ⟨pa, pv, n | _⟩
    · rw [Device.overtaken_idle hp]
    · rw [Device.overtaken_finite hp]; exact Device.read_complete hk pa b pv
    · rw [Device.overtaken_infinite hp]

/-- Settles O26: each clause is one branch of `consumed`, `waited` or `complete`. -/
theorem writeCycleCompletion : Obligations.WriteCycleCompletion := by
  intro d a v
  refine ⟨fun k hp => ?_, fun hp => ?_, fun k wc n hp hle => ?_, fun k wc n hp hlt => ?_, fun hp => ?_, fun hk => ?_⟩
  · simp [Device.consumed, hp]
  · simp [Device.consumed, hp]
  · simp [Device.waited, hp, hle]
  · simp [Device.waited, hp, Nat.not_le.mpr hlt]
  · exact ⟨Device.consumed_infinite hp, Device.waited_infinite hp⟩
  · exact ⟨rfl, (Device.read_complete hk a a v).trans (if_pos rfl),
      fun b hb => (Device.read_complete hk a b v).trans (if_neg hb)⟩

end Sys2Proof.Machine
end

section
/-! PROOFS. The byte operations (40_address_latch.md, 41_byte_engine.md): the pins after a SETADDR, what an operation leaves
alone, and WRITEBYTE on the device contract and on the reference devices `slow` and `faulty`. -/

namespace Sys2Proof.Machine

/-! ## Pins and rejections -/

theorem toNat_setWidth_of_inRange {addr : AddrOperand} (h : addr.toNat < deviceSize) :
    (addr.setWidth 15 : DevAddr).toNat = addr.toNat := by
  rw [BitVec.toNat_setWidth]
  exact Nat.mod_eq_of_lt h

@[simp] theorem csPin_latched (c : Config) (a : DevAddr) (cs : Sel) (p : Port) : csPin (p.latched c a cs) = csLevel c cs :=
  csPin_hi c a cs

/-- Only SEL puts the level on the pin to which the device responds (30_encoding.md R101). -/
theorem csLevel_eq_csSelLevel_iff (c : Config) (cs : Sel) : csLevel c cs = c.csSelLevel ↔ cs = .sel := by
  cases cs with
  | sel => simp
  | desel => simpa using ne_of_beq_false (csLevel_desel_ne c)

/-- Settles O28: SETADDR leaves both latches loaded with the address and the flag. -/
theorem setaddrDrivesThePins : Obligations.SetaddrDrivesThePins := by
  intro addr cs s t h hc hq ht
  cases (execSetaddr_inRange cs h hc hq).symm.trans ht
  refine ⟨?_, ?_⟩
  · rw [addressPins_latched, toNat_setWidth_of_inRange h]
  · rw [csPin_latched]
    exact csLevel_eq_csSelLevel_iff s.cfg cs

/-- Settles O29: the three range checks. -/
theorem byteOperationsRejectOutOfRange : Obligations.ByteOperationsRejectOutOfRange :=
  fun _ v s h => ⟨execWritebyte_outOfRange v s h, execFastwrite_outOfRange v s h, execReadbyte_outOfRange s h⟩

/-! ## What a byte operation leaves alone -/

variable {s t : State} {addr : AddrOperand} {v : Byte}

theorem rejectRange_sameElsewhere (h : rejectRange s = .next t) : s.sameElsewhere t := by
  cases h; exact ⟨rfl, rfl, rfl, rfl, rfl, rfl, rfl⟩

/-- An operation that ends with a response keeps what its port activity keeps. -/
theorem finish_conclude_sameElsewhere {α : Type} {x : Except Fault α} {code : α → OutcomeCode} {value : α → BitVec 11}
    {next : α → State} (hx : ∀ a, x = .ok a → Frame s (next a))
    (h : finish (x >>= fun a => .ok (conclude (code a) (value a) (next a))) = .next t) : s.sameElsewhere t := by
  obtain ⟨a, ha, h⟩ := bind_eq_ok (finish_eq_next h)
  cases h
  exact (hx a ha).sameElsewhere_conclude _ _

theorem execSetaddr_sameElsewhere {cs : Sel} (h : execSetaddr addr cs s = .next t) : s.sameElsewhere t := by
  unfold execSetaddr at h
  split at h
  · exact rejectRange_sameElsewhere h
  · exact finish_conclude_sameElsewhere (fun u hu => (begin_frame _ _ s).trans (latchAddress_frame hu)) h

theorem execWritebyte_sameElsewhere (h : execWritebyte addr v s = .next t) : s.sameElsewhere t := by
  unfold execWritebyte at h
  split at h
  · exact rejectRange_sameElsewhere h
  · exact finish_conclude_sameElsewhere (fun x hx => (begin_frame _ _ s).trans (writeByte_frame hx)) h

theorem execFastwrite_sameElsewhere (h : execFastwrite addr v s = .next t) : s.sameElsewhere t := by
  unfold execFastwrite at h
  split at h
  · exact rejectRange_sameElsewhere h
  · exact finish_conclude_sameElsewhere (fun u hu => (begin_frame _ _ s).trans (fastWrite_frame hu)) h

theorem execReadbyte_sameElsewhere (h : execReadbyte addr s = .next t) : s.sameElsewhere t := by
  unfold execReadbyte at h
  split at h
  · exact rejectRange_sameElsewhere h
  · exact finish_conclude_sameElsewhere (fun u hu => (begin_frame _ _ s).trans (readByte_frame hu)) h

/-- DIR is as it was, and so is every byte of `keeps` to which no earlier write is on its way. -/
def KeepsDirAndBytes (keeps : DevAddr → Prop) (s t : State) : Prop :=
  t.port.dir = s.port.dir ∧
    ∀ b, keeps b → s.dev.landsAt b = false → Memory.read t.dev.mem b = Memory.read s.dev.mem b

theorem execSetaddr_keepsDirAndDevice {cs : Sel} (hR : Ready s) (h : execSetaddr addr cs s = .next t) :
    t.port.dir = s.port.dir ∧ t.dev = s.dev ∧ t.draws = s.draws := by
  rcases Nat.lt_or_ge addr.toNat deviceSize with hlt | hge
  · cases (execSetaddr_inRange cs hlt hR.cfg hR.quiescent).symm.trans h; exact ⟨rfl, rfl, rfl⟩
  · cases (execSetaddr_outOfRange cs s hge).symm.trans h; exact ⟨rfl, rfl, rfl⟩

theorem execReadbyte_keepsDirAndBytes (hR : Ready s) (h : execReadbyte addr s = .next t) :
    KeepsDirAndBytes (fun _ => True) s t := by
  rcases Nat.lt_or_ge addr.toNat deviceSize with hlt | hge
  · cases (execReadbyte_inRange hlt hR).symm.trans h
    exact ⟨rfl, fun b _ hb => (keepsByte_afterRead (s := s.begun 4 addr) (addr.setWidth 15) hb).2⟩
  · cases (execReadbyte_outOfRange s hge).symm.trans h
    exact ⟨rfl, fun _ _ _ => rfl⟩

/-- The byte that an operand addresses, where it is in range. -/
theorem setWidth_ne_of_deviceAddress_ne {b : DevAddr} (h : addr.toNat < deviceSize) (hb : deviceAddress addr.toNat ≠ some b) :
    addr.setWidth 15 ≠ b := fun e => hb (e ▸ deviceAddress_operand h)

theorem execFastwrite_keepsDirAndBytes (hR : Ready s) (h : execFastwrite addr v s = .next t) :
    KeepsDirAndBytes (fun b => deviceAddress addr.toNat ≠ some b) s t := by
  rcases Nat.lt_or_ge addr.toNat deviceSize with hlt | hge
  · cases (execFastwrite_inRange v hlt hR).symm.trans h
    exact ⟨rfl, fun b hne hb =>
      (keepsByte_afterFastWrite (s := s.begun 3 addr) v (setWidth_ne_of_deviceAddress_ne hlt hne) hb).2⟩
  · cases (execFastwrite_outOfRange v s hge).symm.trans h
    exact ⟨rfl, fun _ _ _ => rfl⟩

theorem execWritebyte_keepsDirAndBytes (hR : Ready s) (h : execWritebyte addr v s = .next t) :
    KeepsDirAndBytes (fun b => deviceAddress addr.toNat ≠ some b) s t := by
  rcases Nat.lt_or_ge addr.toNat deviceSize with hlt | hge
  · have hbegun := hR.begun 2 addr
    obtain ⟨-, o, u, hw, -, -, hport⟩ := writeByte_spec hbegun (addr.setWidth 15) v
    cases (execWritebyte_inRange hlt hw).symm.trans h
    exact ⟨by rw [conclude_port, hport]; rfl, fun b hne hb =>
      (keepsByte_writeByte hbegun (setWidth_ne_of_deviceAddress_ne hlt hne) hb hw).2⟩
  · cases (execWritebyte_outOfRange v s hge).symm.trans h
    exact ⟨rfl, fun _ _ _ => rfl⟩

/-- Settles O39: each operation by its own lemma, from any state and then from a quiescent port. -/
theorem byteOperationFrame : Obligations.ByteOperationFrame := by
  refine fun addr cs v s t => ⟨fun i hi h => ?_, fun hc hq => ?_⟩
  · rcases hi with rfl | rfl | rfl | rfl
    · exact execSetaddr_sameElsewhere h
    · exact execWritebyte_sameElsewhere h
    · exact execFastwrite_sameElsewhere h
    · exact execReadbyte_sameElsewhere h
  · have hR : Ready s := ⟨hc, hq⟩
    refine ⟨execSetaddr_keepsDirAndDevice hR, fun h => ?_, fun i hi h => ?_⟩
    · obtain ⟨hdir, hbytes⟩ := execReadbyte_keepsDirAndBytes hR h
      exact ⟨hdir, fun b => hbytes b trivial⟩
    · rcases hi with rfl | rfl
      · exact execWritebyte_keepsDirAndBytes hR h
      · exact execFastwrite_keepsDirAndBytes hR h

/-! ## WRITEBYTE under the device contract -/

/-- Settles O35: the poll ends with the write arrived, or in `TimedOut`. -/
theorem contractExcludesVerifyMismatch : Obligations.ContractExcludesVerifyMismatch := by
  intro addr v s h hc hq hk
  obtain ⟨o, t, hw, hcarries, hend⟩ := writeByte_contract (Ready.begun ⟨hc, hq⟩ 2 addr) (addr.setWidth 15) v hk
  refine ⟨_, execWritebyte_inRange h hw, ?_⟩
  rcases hend with rfl | ⟨rfl, hidle⟩
  · exact ⟨.inr rfl, fun hok => absurd hok respWord_timedOut_ne_ok⟩
  · exact ⟨.inl rfl, fun _ => ⟨hidle, hcarries.read_of_idle hidle⟩⟩

/-! ## WRITEBYTE on `slow(n)` -/

/-- Under the contract `v` arrives at `a` after exactly `n` more reads, or is there already (20_memory.md R73, R74). -/
structure Device.DueIn (a : DevAddr) (v : Byte) (n : Nat) (d : Device) : Prop where
  contract : d.kind.keepsContract = true
  arrived : n = 0 → d.pend = .none ∧ Memory.read d.mem a = v
  pending : ∀ k, n = k + 1 → d.pend = .busy a v (.finite (k + 1))

theorem Device.dueIn_complete {d : Device} (a : DevAddr) (v : Byte) (hk : d.kind.keepsContract = true) :
    (d.complete a v).DueIn a v 0 :=
  ⟨hk, fun _ => ⟨rfl, (d.read_complete hk a a v).trans (if_pos rfl)⟩, nofun⟩

theorem Device.dueIn_accept {d : Device} (a : DevAddr) (v : Byte) (n : Nat) (hk : d.kind.keepsContract = true) :
    (d.accept a v (.finite n)).DueIn a v n := by
  cases n with
  | zero => exact d.dueIn_complete a v hk
  | succ n => exact ⟨hk, nofun, fun k hn => by cases hn; rfl⟩

/-- Each read brings the write one nearer (20_memory.md R74). -/
theorem Device.DueIn.consumed {d : Device} {a : DevAddr} {v : Byte} {n : Nat} (h : d.DueIn a v (n + 1)) :
    d.consumed.DueIn a v n := by
  have hp := h.pending n rfl
  cases n with
  | zero =>
    have hd : d.consumed = d.complete a v := by simp [Device.consumed, hp]
    rw [hd]
    exact d.dueIn_complete a v h.contract
  | succ n =>
    have hd : d.consumed = { d with pend := .busy a v (.finite (n + 1)) } := by simp [Device.consumed, hp]
    rw [hd]
    exact ⟨h.contract, nofun, fun k hn => by cases hn; rfl⟩

theorem Device.DueIn.consumed_arrived {d : Device} {a : DevAddr} {v : Byte} (h : d.DueIn a v 0) : d.consumed.DueIn a v 0 := by
  rw [Device.consumed_idle (h.arrived rfl).1]
  exact h

/-- No delay below `T_DEV_WC` changes the device (log 17). -/
theorem Device.waited_short (d : Device) {wc t : Nat} (h : t < wc) : d.waited wc t = d := by
  unfold Device.waited
  split
  · exact if_neg (Nat.not_le.mpr h)
  · rfl
  · rfl

theorem afterPoll_dev_short (a : DevAddr) (head : StepIndex) (h : s.cfg.tOeSettle < s.cfg.tDevWc) :
    (s.afterPoll a head).dev = s.dev.consumed := by
  change (s.dev.waited s.cfg.tDevWc s.cfg.tOeSettle).consumed = s.dev.consumed
  rw [Device.waited_short _ h]

theorem readBack_short (a : DevAddr) (h : s.cfg.tOeSettle < s.cfg.tDevWc) : s.readBack a = s.dev.answer s.draws a := by
  rw [State.readBack, State.heldDevice, Device.waited_short _ h]

theorem converged_self (v : Byte) : converged v v = true := by simp [converged]

/-- The poll of a write due in `n` reads: the read-back after them finds it, where that many are permitted (41_byte_engine.md
R131). -/
theorem pollLoop_due (a : DevAddr) (v : Byte) (head : StepIndex) (limit : Nat) : ∀ {n : Nat} {s : State}, Ready s →
    s.cfg.tOeSettle < s.cfg.tDevWc → s.dev.DueIn a v n →
    ∃ (o : OutcomeCode) (t : State) (reads : List Byte), pollLoop a v head limit s = .ok (o, t) ∧
      t.trace = (reads.flatMap (readTrace s.cfg a)).reverse ++ s.trace ∧
      (n < limit → o = .ok ∧ reads.length = n + 1 ∧ t.dev.DueIn a v 0) ∧
      (limit ≤ n → o = .timedOut ∧ reads.length = limit) := by
  induction limit with
  | zero => intro n s _ _ _; exact ⟨.timedOut, s, [], rfl, rfl, nofun, fun _ => ⟨rfl, rfl⟩⟩
  | succ limit ih =>
    intro n s hR hshort hdue
    have hk := DeviceKind.ne_oracle hdue.contract
    rw [pollLoop_succ hR, readBack_short a hshort]
    cases n with
    | zero =>
      obtain ⟨hidle, hread⟩ := hdue.arrived rfl
      have hanswer : s.dev.answer s.draws a = v := (Device.answer_idle s.draws a hk hidle).trans hread
      rw [hanswer, if_pos (converged_self v), if_pos rfl]
      refine ⟨.ok, s.afterPoll a head, [s.readBack a], rfl, by simp, fun _ => ⟨rfl, rfl, ?_⟩, nofun⟩
      rw [afterPoll_dev_short a head hshort]
      exact hdue.consumed_arrived
    | succ n =>
      have hbusy := Device.converged_busy s.draws a hk (hdue.pending n rfl)
      rw [if_neg (by simp [hbusy])]
      obtain ⟨o, t, reads, hpoll, htrace, hok, hout⟩ := ih (n := n) (hR.afterPoll a head) hshort
        (by rw [afterPoll_dev_short a head hshort]; exact hdue.consumed)
      refine ⟨o, t, s.readBack a :: reads, hpoll, by rw [htrace]; simp, fun hlt => ?_, fun hle => ?_⟩
      · obtain ⟨ho, hlen, hdone⟩ := hok (Nat.lt_of_succ_lt_succ hlt)
        exact ⟨ho, congrArg (· + 1) hlen, hdone⟩
      · obtain ⟨ho, hlen⟩ := hout (Nat.le_of_succ_le_succ hle)
        exact ⟨ho, congrArg (· + 1) hlen⟩

/-- A WRITEBYTE samples once for each of its read-backs. -/
theorem samples_writeByte (c : Config) (a : DevAddr) (v : Byte) (reads : List Byte) :
    samples (writeTrace c a v ++ reads.flatMap (readTrace c a)).reverse = reads.length := by
  rw [samples_reverse, samples_append, samples_writeTrace, samples_flatMap_readTrace, Nat.zero_add]

theorem beforePoll_dueIn {n : Nat} (a : DevAddr) (v : Byte) (hk : s.dev.kind = .slow n)
    (hshort : s.cfg.tWriteSettle < s.cfg.tDevWc) : (s.beforePoll a v).dev.DueIn a v n := by
  have hbudget : s.dev.kind.budget s.draws = .finite n := by rw [hk]; rfl
  change ((s.dev.overtaken.accept a v (s.dev.kind.budget s.draws)).waited s.cfg.tDevWc s.cfg.tWriteSettle).DueIn a v n
  rw [Device.waited_short _ hshort, hbudget]
  exact Device.dueIn_accept a v n (by rw [Device.overtaken_kind, hk]; rfl)

/-- Settles O33: the write is due in `n` reads when the poll begins. -/
theorem slowDeviceMeetsThePollBound : Obligations.SlowDeviceMeetsThePollBound := by
  intro addr v n s h hc hq hk hsettle hoe
  have hR : Ready (s.begun 2 addr) := Ready.begun ⟨hc, hq⟩ 2 addr
  obtain ⟨o, t, reads, hpoll, htrace, hok, hout⟩ := pollLoop_due (addr.setWidth 15) v _ _
    (hR.beforePoll (addr.setWidth 15) v) hoe (beforePoll_dueIn (s := s.begun 2 addr) (addr.setWidth 15) v hk hsettle)
  refine ⟨conclude o 0 t,
    (writeTrace s.cfg (addr.setWidth 15) v ++ reads.flatMap (readTrace s.cfg (addr.setWidth 15))).reverse,
    execWritebyte_inRange h ((writeByte_eq hR _ v).trans hpoll), ?_, fun hlt => ?_, fun hle => ?_⟩
  · rw [conclude_trace, htrace]; simp [State.beforePoll]
  · obtain ⟨ho, hlen, hdone⟩ := hok hlt
    obtain ⟨hidle, hread⟩ := hdone.arrived rfl
    exact ⟨by rw [conclude_resp, ho], by rw [samples_writeByte, hlen], hidle, hread⟩
  · obtain ⟨ho, hlen⟩ := hout hle
    exact ⟨by rw [conclude_resp, ho], by rw [samples_writeByte, hlen]; rfl⟩

/-! ## WRITEBYTE on a device that completes at once -/

/-- A write with budget 0 has completed when its poll begins (20_memory.md R73). -/
theorem beforePoll_dev_zero (a : DevAddr) (v : Byte) (hb : s.dev.kind.budget s.draws = .finite 0) :
    (s.beforePoll a v).dev = s.dev.overtaken.complete a v := by
  change (s.dev.overtaken.accept a v (s.dev.kind.budget s.draws)).waited s.cfg.tDevWc s.cfg.tWriteSettle = _
  rw [hb]
  rfl

theorem Ready.pollLimit_pos (h : Ready s) : 0 < s.cfg.pollLimit := by
  have hc := h.cfg
  simp only [Config.wf, Bool.and_eq_true, decide_eq_true_eq] at hc
  omega

/-- WRITEBYTE of a write that completes at once: the poll finds, every time, the byte `w` that it stored (20_memory.md R73,
R75). -/
theorem writeByte_zero (hR : Ready s) (a : DevAddr) (v w : Byte) (hk : s.dev.kind ≠ .oracle)
    (hb : s.dev.kind.budget s.draws = .finite 0) (hw : s.dev.kind.stored v = w) :
    ∃ (o : OutcomeCode) (t : State) (reads : List Byte), writeByte a v s = .ok (o, t) ∧
      t.dev = s.dev.overtaken.complete a v ∧ Memory.read t.dev.mem a = w ∧
      t.trace = (writeTrace s.cfg a v ++ reads.flatMap (readTrace s.cfg a)).reverse ++ s.trace ∧
      (converged w v = true → (o = if w = v then .ok else .verifyMismatch) ∧ reads.length = 1) ∧
      (converged w v = false → o = .timedOut ∧ reads.length = s.cfg.pollLimit) := by
  have hdev := beforePoll_dev_zero a v hb
  have hread : Memory.read (s.beforePoll a v).dev.mem a = w := by
    rw [hdev, Device.complete_mem, Memory.read_write_same, Device.overtaken_kind, hw]
  obtain ⟨n, hn⟩ := Nat.exists_eq_add_one_of_ne_zero hR.pollLimit_pos.ne'
  obtain ⟨o, t, reads, hpoll, htdev, htrace, hconv, hnot⟩ := pollLoop_idle a v (s.work.stepR.advance 21) n
    (hR.beforePoll a v) (by rw [hdev]; rfl) (by rw [hdev]; simpa using hk)
  rw [hread] at hconv hnot
  refine ⟨o, t, reads, by rw [writeByte_eq hR, hn]; exact hpoll, htdev.trans hdev, by rw [htdev, hread], ?_, hconv,
    by rw [hn]; exact hnot⟩
  rw [htrace]; simp [State.beforePoll]

/-- Settles O36: the poll reads `v and m` every time, and its bit 7 decides between the bound and the verify. -/
theorem faultyDeviceIsCaught : Obligations.FaultyDeviceIsCaught := by
  intro addr v m s h hc hq hk
  obtain ⟨o, t, reads, hw, -, hread, htrace, hconv, hnot⟩ := writeByte_zero (Ready.begun ⟨hc, hq⟩ 2 addr) (addr.setWidth 15) v
    (v &&& m) (by rw [begin_dev, hk]; nofun) (by rw [begin_dev, hk]; rfl) (by rw [begin_dev, hk]; rfl)
  rw [converged_eq, Bool.not_eq_true'] at hconv
  rw [converged_eq, Bool.not_eq_false'] at hnot
  refine ⟨conclude o 0 t, _, execWritebyte_inRange h hw, htrace, hread, fun heq => ?_, fun hne h7 => ?_, fun h7 => ?_⟩
  all_goals rw [samples_writeByte, conclude_resp]
  · obtain ⟨ho, hlen⟩ := hconv (by rw [heq]; simp)
    exact ⟨by rw [ho, if_pos heq], hlen⟩
  · obtain ⟨ho, hlen⟩ := hconv h7
    exact ⟨by rw [ho, if_neg hne], hlen⟩
  · obtain ⟨ho, hlen⟩ := hnot h7
    exact ⟨by rw [ho], hlen⟩

/-! ## ERASE on `stuck` -/

theorem Device.keepsByte_accept_infinite {d : Device} (a b : DevAddr) (v : Byte) : d.KeepsByte b (d.accept a v .infinite) :=
  ⟨rfl, rfl⟩

theorem keepsByte_eraseTurn_stuck {b : DevAddr} (head : StepIndex) (a : Nat) (hk : s.dev.kind = .stuck)
    (hb : s.dev.landsAt b = false) : s.dev.KeepsByte b (s.afterEraseTurn head a).dev := by
  have hbudget : s.dev.kind.budget s.draws = .infinite := by rw [hk]; rfl
  have haccept := (Device.keepsByte_overtaken hb).trans
    (Device.keepsByte_accept_infinite (d := s.dev.overtaken) (BitVec.ofNat 15 a) b blank)
  rw [eraseTurn_dev, hbudget]
  split
  · rw [Device.waited_infinite rfl]; exact haccept
  · exact haccept

theorem afterEraseTurn_kind (head : StepIndex) (a : Nat) (s : State) : (s.afterEraseTurn head a).dev.kind = s.dev.kind := by
  rw [eraseTurn_dev]; split <;> simp

/-- The sweep of a device that never completes a write keeps every byte that no earlier write is on its way to
(43_erase_engine.md R165). -/
theorem keepsByte_eraseSweep_stuck {head : StepIndex} {b : DevAddr} (n : Nat) : ∀ {a : Nat} {s t : State}, Ready s →
    s.dev.kind = .stuck → s.dev.landsAt b = false → eraseSweep head n a s = .ok t → s.dev.KeepsByte b t.dev := by
  induction n with
  | zero => intro a s t _ _ hb ht; cases ht; exact .refl hb
  | succ n ih =>
    intro a s t hR hk hb ht
    rw [eraseSweep_succ hR] at ht
    have hturn := keepsByte_eraseTurn_stuck head a hk hb
    exact hturn.trans (ih (hR.afterEraseTurn head a) ((afterEraseTurn_kind head a s).trans hk) hturn.1 ht)

/-- Settles O47: the sweep ends whatever the device does, and on `stuck` no write of it reaches MEM. -/
theorem eraseDoesNotVerify : Obligations.EraseDoesNotVerify := by
  intro s hc hq hk
  have hR : Ready s.eraseBegun := Ready.eraseBegun ⟨hc, hq⟩
  obtain ⟨t, hsweep, hRt, -⟩ := eraseSweep_spec (.running 7 1) deviceSize (a := 0) hR
  exact ⟨_, execErase_of_sweep hsweep hRt, rfl, fun b hb => (keepsByte_eraseSweep_stuck _ hR hk hb hsweep).2⟩

end Sys2Proof.Machine
end

section
/-! PROOFS. The block operations (42_block_transfer.md): each is its loop from index 0. -/

namespace Sys2Proof.Machine

variable {s t : State} {addr : Nat} {head : StepIndex}

theorem clipped_eq (addr count : Nat) : min count (deviceSize - (addr + 0)) = clipped addr count := rfl

/-- Settles O41: the loop from index 0, with its frame and the bytes it keeps. -/
theorem readblockClipsAndFillsTheBuffer : Obligations.ReadblockClipsAndFillsTheBuffer := by
  intro addr count s hcount hc hq m
  have hR : Ready (s.blockBegun 5 addr count) := Ready.blockBegun ⟨hc, hq⟩ 5 addr count
  obtain ⟨t, hloop, -, hfilled, hkept, htrace, hnone, hport⟩ := readLoop_spec addr.toNat (.running 5 1) count.toNat (i := 0) hR
  simp only [clipped_eq, Nat.zero_add] at hloop hfilled hkept htrace hnone hport
  obtain ⟨hcfg, hkind, -, -, -, hparser, hparsed, hinbox, -⟩ := (begin_frame 5 _ s).trans (readLoop_frame hloop)
  refine ⟨conclude .ok (BitVec.ofNat 11 m) t, execReadblock_of_loop hcount hloop, rfl, fun j => hfilled j (Nat.zero_le j),
    fun j hj => hkept j (.inr hj), ?_, fun hm => ?_, hport, hcfg, hkind, hparser, hparsed, hinbox, fun b hb => ?_⟩
  · rw [List.range_eq_range']; exact htrace
  · rw [hnone hm]; exact ⟨rfl, rfl⟩
  · exact (keepsByte_readLoop _ hR hb hloop).2

/-- Settles O42: the loop on an idle device. -/
theorem readblockCopiesAnIdleDevice : Obligations.ReadblockCopiesAnIdleDevice := by
  intro addr count s hcount hc hq hp hk
  have hR : Ready (s.blockBegun 5 addr count) := Ready.blockBegun ⟨hc, hq⟩ 5 addr count
  obtain ⟨t, hloop, -⟩ := readLoop_spec addr.toNat (.running 5 1) count.toNat (i := 0) hR
  simp only [clipped_eq, Nat.zero_add] at hloop
  obtain ⟨hdev, hcopied⟩ := readLoop_idle _ _ _ hR hp hk hloop
  exact ⟨_, execReadblock_of_loop hcount hloop, hdev, fun j => hcopied j (Nat.zero_le j)⟩

/-- Settles O43: the loop from index 0, with its frame. -/
theorem writeblockStopsAtTheFirstFailure : Obligations.WriteblockStopsAtTheFirstFailure := by
  intro addr count s hcount hc hq hfilled m a v
  obtain ⟨o, k, t, reads, hloop, -, -, hok, hfail, hbefore, htrace, hnone, hport, hbytes⟩ :=
    writeLoop_spec addr.toNat (.running 6 1) count.toNat (i := 0) (Ready.blockBegun ⟨hc, hq⟩ 6 addr count)
      fun j _ hj => filled_iff.mp hfilled j (by simpa [clipped] using hj)
  simp only [clipped_eq, Nat.zero_add, Nat.sub_zero] at hok hfail htrace hnone hport hbytes
  have hframe : Frame s t := (begin_frame 6 _ s).trans (writeLoop_frame hloop)
  refine ⟨conclude o (BitVec.ofNat 11 k) t, k, o, reads, execWriteblock_of_loop hcount hloop, rfl, hok, hfail,
    fun j => hbefore j (Nat.zero_le j), ?_, hframe.sameElsewhere_conclude _ _, fun hm => ?_, hport, fun b hb hland => ?_⟩
  · rw [List.range_eq_range']; exact htrace
  · rw [hnone hm]; exact ⟨rfl, rfl⟩
  · exact (hbytes b (fun j _ => hb j) hland).2

/-! ## WRITEBLOCK on `ideal` -/

/-- WRITEBYTE on the reference device `ideal`: `Ok` after one read-back, the byte stored (20_memory.md R75). -/
theorem writeByte_ideal (hR : Ready s) (a : DevAddr) (v : Byte) (hk : s.dev.kind = .ideal) :
    ∃ t, writeByte a v s = .ok (.ok, t) ∧ t.dev = s.dev.overtaken.complete a v ∧ Memory.read t.dev.mem a = v ∧
      t.trace.length = s.trace.length + 44 := by
  obtain ⟨o, t, reads, hw, hdev, hread, htrace, hconv, -⟩ :=
    writeByte_zero hR a v v (by rw [hk]; nofun) (by rw [hk]; rfl) (by rw [hk]; rfl)
  obtain ⟨ho, hlen⟩ := hconv (converged_self v)
  rw [if_pos rfl] at ho
  refine ⟨t, ho ▸ hw, hdev, hread, ?_⟩
  rw [htrace, List.length_append, List.length_reverse, List.length_append, length_writeTrace, length_flatMap_readTrace, hlen,
    Nat.add_comm]

/-- A turn of the loop whose byte is written (42_block_transfer.md R151). -/
theorem writeLoop_of_written {i : Nat} {v : Byte} (ha : addr + i < deviceSize) (hv : Buffer.get s.buf i = some v)
    (hw : writeByte (BitVec.ofNat 15 (addr + i)) v (returnTo head s) = .ok (.ok, t)) (n : Nat) :
    writeLoop addr head (n + 1) i s = writeLoop addr head n (i + 1) { t with work.idxR := BitVec.ofNat 11 (i + 1) } := by
  conv_lhs => unfold writeLoop
  rw [deviceAddress_some ha]
  simp only [hv]
  rw [hw, ok_bind]
  exact if_pos rfl

/-- A turn of the loop whose byte is missing from the buffer (42_block_transfer.md R151). -/
theorem writeLoop_of_missing {i : Nat} (ha : addr + i < deviceSize) (hv : Buffer.get s.buf i = none) (n : Nat) :
    writeLoop addr head (n + 1) i s = .error (.noValue .buffer) := by
  unfold writeLoop
  rw [deviceAddress_some ha]
  simp only [hv]

/-- A turn of the loop whose byte is not written: it ends the loop and is not counted (42_block_transfer.md R151). -/
theorem writeLoop_of_failed {i : Nat} {v : Byte} {o : OutcomeCode} (ha : addr + i < deviceSize)
    (hv : Buffer.get s.buf i = some v) (hw : writeByte (BitVec.ofNat 15 (addr + i)) v (returnTo head s) = .ok (o, t))
    (ho : o ≠ .ok) (n : Nat) : writeLoop addr head (n + 1) i s = .ok (o, i, t) := by
  unfold writeLoop
  rw [deviceAddress_some ha]
  simp only [hv]
  rw [hw, ok_bind]
  exact if_neg ho

theorem Device.landsAt_idle {d : Device} (hp : d.pend = .none) (b : DevAddr) : d.landsAt b = false := by
  simp [Device.landsAt, hp]

/-- The loop keeps every byte outside the clipped block that no earlier write is on its way to. -/
theorem keepsByte_writeLoop {n i : Nat} {b : DevAddr} {x : OutcomeCode × Nat × State} (hR : Ready s)
    (hbuf : ∀ j, i ≤ j → j < i + min n (deviceSize - (addr + i)) → (Buffer.get s.buf j).isSome = true)
    (hb : ∀ j, i ≤ j → j < i + min n (deviceSize - (addr + i)) → b ≠ BitVec.ofNat 15 (addr + j))
    (hland : s.dev.landsAt b = false) (h : writeLoop addr head n i s = .ok x) : s.dev.KeepsByte b x.2.2.dev := by
  obtain ⟨o, k, t, reads, hloop, -, -, -, -, -, -, -, -, hkeeps⟩ := writeLoop_spec addr head n hR hbuf
  cases hloop.symm.trans h
  exact hkeeps b hb hland

/-- Addresses of the device space are told apart by their numbers. -/
theorem ofNat_ne_ofNat {m n : Nat} (hm : m < deviceSize) (hn : n < deviceSize) (h : m ≠ n) :
    BitVec.ofNat 15 m ≠ BitVec.ofNat 15 n := fun e => h (by
  have he := congrArg BitVec.toNat e
  rw [BitVec.toNat_ofNat, BitVec.toNat_ofNat] at he
  exact (Nat.mod_eq_of_lt hm).symm.trans (he.trans (Nat.mod_eq_of_lt hn)))

/-- What a turn of WRITEBLOCK's loop on `ideal` leaves, from `s`, of the byte `v` at `a` (42_block_transfer.md R151,
20_memory.md R75). -/
structure IdealTurn (a : DevAddr) (v : Byte) (s u : State) : Prop where
  ready : Ready u
  kind : u.dev.kind = .ideal
  buf : u.buf = s.buf
  idle : u.dev.pend = .none
  stored : Memory.read u.dev.mem a = v
  length : u.trace.length = s.trace.length + 44

theorem writeLoop_ideal_turn {i : Nat} {v : Byte} (hR : Ready s) (hk : s.dev.kind = .ideal) (ha : addr + i < deviceSize)
    (hv : Buffer.get s.buf i = some v) (n : Nat) :
    ∃ u, writeLoop addr head (n + 1) i s = writeLoop addr head n (i + 1) u ∧
      IdealTurn (BitVec.ofNat 15 (addr + i)) v s u := by
  obtain ⟨t, hw, hdev, hread, hlen⟩ := writeByte_ideal (hR.returnTo head) (BitVec.ofNat 15 (addr + i)) v hk
  have hframe := writeByte_frame hw
  exact ⟨_, writeLoop_of_written ha hv hw n, ((hR.returnTo head).writeByte hw).congr rfl rfl, hframe.kind.trans hk, hframe.buf,
    by rw [hdev]; rfl, hread, hlen⟩

/-- On `ideal` the loop stores what is left of the clipped block (42_block_transfer.md R151, 20_memory.md R75). -/
theorem writeLoop_ideal (addr : Nat) (head : StepIndex) (n : Nat) : ∀ {i : Nat} {s : State}, Ready s → s.dev.kind = .ideal →
    let m := min n (deviceSize - (addr + i))
    (∀ j, i ≤ j → j < i + m → (Buffer.get s.buf j).isSome = true) →
    ∃ t, writeLoop addr head n i s = .ok (.ok, i + m, t) ∧ t.trace.length = s.trace.length + 44 * m ∧
      (s.dev.pend = .none ∨ 0 < m → t.dev.pend = .none) ∧
      ∀ j, i ≤ j → j < i + m → some (Memory.read t.dev.mem (BitVec.ofNat 15 (addr + j))) = Buffer.get s.buf j := by
  induction n with
  | zero =>
    intro i s _ _ m _
    exact ⟨s, by simp [m, writeLoop], by simp [m], by simp [m], by intro j _ hj; simp [m] at hj; omega⟩
  | succ n ih =>
    intro i s hR hk m hbuf
    by_cases ha : addr + i < deviceSize
    · have hm : m = min n (deviceSize - (addr + (i + 1))) + 1 := by omega
      obtain ⟨v, hv⟩ := Option.isSome_iff_exists.mp (hbuf i (Nat.le_refl i) (by omega))
      obtain ⟨u, hturn, hu⟩ := writeLoop_ideal_turn (head := head) hR hk ha hv n
      have hrest : ∀ j, i + 1 ≤ j → j < i + 1 + min n (deviceSize - (addr + (i + 1))) → (Buffer.get u.buf j).isSome = true :=
        fun j hj hj' => by rw [hu.buf]; exact hbuf j (by omega) (by omega)
      obtain ⟨t, hloop, hlen, hidle, hstored⟩ := ih hu.ready hu.kind hrest
      have hkeeps := keepsByte_writeLoop (b := BitVec.ofNat 15 (addr + i)) hu.ready hrest
        (fun j hj hj' => ofNat_ne_ofNat (by omega) (by omega) (by omega)) (Device.landsAt_idle hu.idle _) hloop
      refine ⟨t, ?_, ?_, fun _ => hidle (.inl hu.idle), fun j hj hj' => ?_⟩
      · rw [hturn, hloop, hm, Nat.add_right_comm, Nat.add_assoc i]
      · rw [hlen, hu.length, hm]; omega
      · rcases Nat.eq_or_lt_of_le hj with rfl | hlt
        · rw [hkeeps.2, hu.stored, hv]
        · rw [hstored j hlt (by omega), hu.buf]
    · have hm : m = 0 := by omega
      rw [writeLoop_clip (deviceAddress_none (by omega)), hm]
      exact ⟨s, rfl, rfl, by simp, by intro j _ hj; omega⟩

/-- On `ideal` nothing but a missing byte stops the loop, and one does (42_block_transfer.md R151). -/
theorem writeLoop_ideal_missing (addr : Nat) (head : StepIndex) (n : Nat) : ∀ {i : Nat} {s : State}, Ready s →
    s.dev.kind = .ideal → (∃ j, i ≤ j ∧ j < i + min n (deviceSize - (addr + i)) ∧ Buffer.get s.buf j = none) →
    writeLoop addr head n i s = .error (.noValue .buffer) := by
  induction n with
  | zero => rintro i s _ _ ⟨j, hj, hj', -⟩; simp at hj'; omega
  | succ n ih =>
    rintro i s hR hk ⟨j, hj, hj', hnone⟩
    have ha : addr + i < deviceSize := by omega
    cases hv : Buffer.get s.buf i with
    | none => exact writeLoop_of_missing ha hv n
    | some v =>
      have hne : i ≠ j := fun e => by rw [← e, hv] at hnone; cases hnone
      obtain ⟨u, hturn, hu⟩ := writeLoop_ideal_turn (head := head) hR hk ha hv n
      rw [hturn]
      exact ih hu.ready hu.kind ⟨j, by omega, by omega, by rw [hu.buf]; exact hnone⟩

theorem exists_missing_of_not_filled {n : Nat} (h : s.filled n = false) : ∃ j, j < n ∧ Buffer.get s.buf j = none := by
  simpa [State.filled] using h

/-- Settles O44: the loop on `ideal` from index 0, with and without all of its bytes. -/
theorem writeblockOnAnIdealDevice : Obligations.WriteblockOnAnIdealDevice := by
  intro addr count s hcount hc hq hk m
  have hR : Ready (s.blockBegun 6 addr count) := Ready.blockBegun ⟨hc, hq⟩ 6 addr count
  refine ⟨fun hfilled => ?_, fun hmissing => ?_⟩
  · obtain ⟨t, hloop, hlen, -, hstored⟩ := writeLoop_ideal addr.toNat (.running 6 1) count.toNat (i := 0) hR hk
      fun j _ hj => filled_iff.mp hfilled j (by rw [clipped_eq, Nat.zero_add] at hj; exact hj)
    simp only [clipped_eq, Nat.zero_add] at hloop hlen hstored
    exact ⟨_, execWriteblock_of_loop hcount hloop, rfl, hlen, fun j => hstored j (Nat.zero_le j)⟩
  · obtain ⟨j, hj, hnone⟩ := exists_missing_of_not_filled hmissing
    have hloop := writeLoop_ideal_missing addr.toNat (.running 6 1) count.toNat (i := 0) hR hk
      ⟨j, Nat.zero_le j, by rw [clipped_eq, Nat.zero_add]; exact hj, hnone⟩
    exact (execWriteblock_eq hcount).trans (by rw [hloop]; rfl)

end Sys2Proof.Machine
end

section
/-! PROOFS. The working registers and counters (10_state.md R32 to R34, log 14): which of them each loop writes, and from that
what each instruction leaves in them. -/

namespace Sys2Proof.Machine

variable {s t : State} {addr : AddrOperand} {v : Byte} {count : Count} {head : StepIndex}

/-! ## The loops -/

/-- The poll writes RB_R, POLL_R and STEP_R alone; POLL_R counts its samples, and after `Ok` RB_R holds the value. -/
theorem pollLoop_work {a : DevAddr} (n : Nat) : ∀ {s : State} {x : OutcomeCode × State}, Ready s →
    pollLoop a v head n s = .ok x →
    x.2.work = { s.work with rbR := x.2.work.rbR, pollR := x.2.work.pollR, stepR := x.2.work.stepR } ∧
      (∃ new, x.2.trace = new ++ s.trace ∧ x.2.work.pollR = s.work.pollR + samples new) ∧
      (x.1 = .ok → x.2.work.rbR = v) := by
  induction n with
  | zero => intro s x _ hx; cases hx; exact ⟨rfl, ⟨[], rfl, rfl⟩, nofun⟩
  | succ n ih =>
    intro s x hR hx
    have hsamples : samples (readTrace s.cfg a (s.readBack a)).reverse = 1 := by rw [samples_reverse, samples_readTrace]
    rw [pollLoop_succ hR] at hx
    split at hx
    · cases hx
      refine ⟨rfl, ⟨_, afterPoll_trace a head s, by rw [hsamples]; rfl⟩, fun hok => ?_⟩
      by_cases he : s.readBack a = v
      · exact he
      · rw [if_neg he] at hok; cases hok
    · obtain ⟨hwork, ⟨new, htrace, hpoll⟩, hok⟩ := ih (hR.afterPoll a head) hx
      refine ⟨hwork, ⟨new ++ (readTrace s.cfg a (s.readBack a)).reverse, ?_, ?_⟩, hok⟩
      · rw [htrace, afterPoll_trace, List.append_assoc]
      · rw [hpoll, samples_append, hsamples]
        exact Nat.add_right_comm _ _ _

/-- WRITEBYTE's steps write VAL_R and what the poll writes, which counts from 0. -/
theorem writeByte_work {a : DevAddr} {x : OutcomeCode × State} (hR : Ready s) (hx : writeByte a v s = .ok x) :
    x.2.work = { s.work with valR := v, rbR := x.2.work.rbR, pollR := x.2.work.pollR, stepR := x.2.work.stepR } ∧
      (∃ new, x.2.trace = new ++ s.trace ∧ x.2.work.pollR = samples new) ∧ (x.1 = .ok → x.2.work.rbR = v) := by
  rw [writeByte_eq hR] at hx
  obtain ⟨hwork, ⟨new, htrace, hpoll⟩, hok⟩ := pollLoop_work _ (hR.beforePoll a v) hx
  refine ⟨hwork, ⟨new ++ (writeTrace s.cfg a v).reverse, ?_, ?_⟩, hok⟩
  · rw [htrace, List.append_assoc]; rfl
  · rw [hpoll, samples_append, samples_reverse, samples_writeTrace]
    exact Nat.zero_add _

/-- READBLOCK's loop writes RB_R, IDX_R and STEP_R alone; IDX_R is the index it ends at. -/
theorem readLoop_work {addr : Nat} (n : Nat) : ∀ {i : Nat} {s : State} {x : Nat × State}, Ready s →
    s.work.idxR = BitVec.ofNat 11 i → readLoop addr head n i s = .ok x →
    x.2.work = { s.work with rbR := x.2.work.rbR, idxR := BitVec.ofNat 11 x.1, stepR := x.2.work.stepR } := by
  induction n with
  | zero => intro i s x _ hi hx; cases hx; rw [← hi]
  | succ n ih =>
    intro i s x hR hi hx
    by_cases ha : addr + i < deviceSize
    · rw [readLoop_succ hR (deviceAddress_some ha)] at hx
      exact ih (s := s.afterBlockRead (BitVec.ofNat 15 (addr + i)) head i) (hR.afterBlockRead _ head i) rfl hx
    · rw [readLoop_clip (deviceAddress_none (Nat.not_lt.mp ha))] at hx
      cases hx; rw [← hi]

/-- WRITEBLOCK's loop writes the registers of a WRITEBYTE and IDX_R, which is the index it ends at. -/
theorem writeLoop_work {addr : Nat} (n : Nat) : ∀ {i : Nat} {s : State} {x : OutcomeCode × Nat × State}, Ready s →
    s.work.idxR = BitVec.ofNat 11 i → writeLoop addr head n i s = .ok x →
    x.2.2.work = { s.work with
      valR := x.2.2.work.valR, rbR := x.2.2.work.rbR, idxR := BitVec.ofNat 11 x.2.1, pollR := x.2.2.work.pollR
      stepR := x.2.2.work.stepR } := by
  induction n with
  | zero => intro i s x _ hi hx; cases hx; rw [← hi]
  | succ n ih =>
    intro i s x hR hi hx
    by_cases ha : addr + i < deviceSize
    · cases hv : Buffer.get s.buf i with
      | none => rw [writeLoop_of_missing ha hv] at hx; cases hx
      | some v =>
        have hRh := hR.returnTo head
        obtain ⟨-, o, u, hw, -⟩ := writeByte_spec hRh (BitVec.ofNat 15 (addr + i)) v
        obtain ⟨hwork, -⟩ := writeByte_work hRh hw
        have hu : u.work = { s.work with
            valR := u.work.valR, rbR := u.work.rbR, pollR := u.work.pollR, stepR := u.work.stepR } := by
          rw [hwork]; rfl
        by_cases ho : o = .ok
        · subst ho
          rw [writeLoop_of_written ha hv hw] at hx
          have hrest := ih (s := { u with work.idxR := BitVec.ofNat 11 (i + 1) }) ((hRh.writeByte hw).congr rfl rfl) rfl hx
          rw [hrest, hu]
        · rw [writeLoop_of_failed ha hv hw ho] at hx
          cases hx
          rw [← hi]
          exact hu
    · rw [writeLoop_clip (deviceAddress_none (Nat.not_lt.mp ha))] at hx
      cases hx; rw [← hi]

theorem afterEraseTurn_work (a : Nat) (s : State) : (s.afterEraseTurn head a).work =
    { s.work with valR := blank, eraseR := BitVec.ofNat 16 (a + 1), stepR := (s.afterEraseTurn head a).work.stepR } := by
  unfold State.afterEraseTurn erasePacing
  split <;> split <;> rfl

/-- The sweep writes VAL_R, ERASE_R and STEP_R alone; ERASE_R is the address it ends at. -/
theorem eraseSweep_work (n : Nat) : ∀ {a : Nat} {s t : State}, Ready s → eraseSweep head (n + 1) a s = .ok t →
    t.work = { s.work with valR := blank, eraseR := BitVec.ofNat 16 (a + (n + 1)), stepR := t.work.stepR } := by
  induction n with
  | zero => intro a s t hR ht; rw [eraseSweep_succ hR] at ht; cases ht; exact afterEraseTurn_work a s
  | succ n ih =>
    intro a s t hR ht
    rw [eraseSweep_succ hR] at ht
    rw [ih (hR.afterEraseTurn head a) ht, afterEraseTurn_work, Nat.add_assoc, Nat.add_comm 1]

/-! ## The instructions -/

theorem execSetaddr_work {cs : Sel} (hR : Ready s) (h : execSetaddr addr cs s = .next t) : t.work =
    if addr.toNat < deviceSize then { s.work with opR := 1, addrR := addr, csR := cs, stepR := .idle } else s.work := by
  rcases Nat.lt_or_ge addr.toNat deviceSize with hlt | hge
  · rw [if_pos hlt]
    cases (execSetaddr_inRange cs hlt hR.cfg hR.quiescent).symm.trans h; rfl
  · rw [if_neg (Nat.not_lt.mpr hge)]
    cases (execSetaddr_outOfRange cs s hge).symm.trans h; rfl

theorem execWritebyte_work_inRange (hR : Ready s) (hlt : addr.toNat < deviceSize) (h : execWritebyte addr v s = .next t) :
    (∃ new, t.trace = new ++ s.trace ∧ t.work.pollR = samples new) ∧ (t.resp = respWord .ok 0 → t.work.rbR = v) ∧
      t.work = { s.work with
        opR := 2, addrR := addr, valR := v, rbR := t.work.rbR, pollR := t.work.pollR, stepR := .idle } := by
  have hbegun := hR.begun 2 addr
  obtain ⟨-, o, u, hw, -⟩ := writeByte_spec hbegun (addr.setWidth 15) v
  obtain ⟨hwork, hpoll, hok⟩ := writeByte_work hbegun hw
  cases (execWritebyte_inRange hlt hw).symm.trans h
  exact ⟨hpoll, fun hresp => hok (outcome_ok_of_respWord_eq hresp), congrArg (fun w : Work => { w with stepR := .idle }) hwork⟩

theorem execWritebyte_work_outOfRange (hge : deviceSize ≤ addr.toNat) (h : execWritebyte addr v s = .next t) :
    t.work = s.work := by
  cases (execWritebyte_outOfRange v s hge).symm.trans h; rfl

theorem execFastwrite_work (hR : Ready s) (h : execFastwrite addr v s = .next t) : t.work =
    if addr.toNat < deviceSize then { s.work with opR := 3, addrR := addr, valR := v, stepR := .idle } else s.work := by
  rcases Nat.lt_or_ge addr.toNat deviceSize with hlt | hge
  · rw [if_pos hlt]
    cases (execFastwrite_inRange v hlt hR).symm.trans h; rfl
  · rw [if_neg (Nat.not_lt.mpr hge)]
    cases (execFastwrite_outOfRange v s hge).symm.trans h; rfl

/-- A byte survives in the eleven bits of a response's value. -/
theorem setWidth_respValue (r : Byte) : (respValue (respWord .ok (r.setWidth 11))).setWidth 8 = r := by
  rw [respValue_respWord, BitVec.setWidth_setWidth_of_le _ (by decide), BitVec.setWidth_eq]

theorem execReadbyte_work (hR : Ready s) (h : execReadbyte addr s = .next t) : t.work =
    if addr.toNat < deviceSize then
      { s.work with opR := 4, addrR := addr, rbR := (respValue t.resp).setWidth 8, stepR := .idle }
    else s.work := by
  rcases Nat.lt_or_ge addr.toNat deviceSize with hlt | hge
  · rw [if_pos hlt]
    cases (execReadbyte_inRange hlt hR).symm.trans h
    rw [State.afterReadbyte, conclude_resp, setWidth_respValue]
    rfl
  · rw [if_neg (Nat.not_lt.mpr hge)]
    cases (execReadbyte_outOfRange s hge).symm.trans h; rfl

theorem execReadblock_work (hR : Ready s) (h : execReadblock addr count s = .next t) : t.work =
    if count.toNat ≤ s.cfg.blockSize then { s.work with
      opR := 5, addrR := addr, rbR := t.work.rbR, cntR := count, idxR := respValue t.resp, stepR := .idle }
    else s.work := by
  rcases Nat.lt_or_ge s.cfg.blockSize count.toNat with hover | hcount
  · rw [if_neg (Nat.not_le.mpr hover)]
    cases (execReadblock_overCount addr hover).symm.trans h; rfl
  rw [if_pos hcount]
  rw [execReadblock_eq hcount] at h
  obtain ⟨x, hloop, hx⟩ := bind_eq_ok (finish_eq_next h)
  cases hx
  rw [conclude_resp, respValue_respWord]
  exact congrArg (fun w : Work => { w with stepR := .idle }) (readLoop_work _ (hR.blockBegun 5 addr count) rfl hloop)

theorem execWriteblock_work (hR : Ready s) (h : execWriteblock addr count s = .next t) : t.work =
    if count.toNat ≤ s.cfg.blockSize then { s.work with
      opR := 6, addrR := addr, valR := t.work.valR, rbR := t.work.rbR, cntR := count, idxR := respValue t.resp
      pollR := t.work.pollR, stepR := .idle }
    else s.work := by
  rcases Nat.lt_or_ge s.cfg.blockSize count.toNat with hover | hcount
  · rw [if_neg (Nat.not_le.mpr hover)]
    cases (execWriteblock_overCount addr hover).symm.trans h; rfl
  rw [if_pos hcount]
  rw [execWriteblock_eq hcount] at h
  obtain ⟨x, hloop, hx⟩ := bind_eq_ok (finish_eq_next h)
  cases hx
  rw [conclude_resp, respValue_respWord]
  exact congrArg (fun w : Work => { w with stepR := .idle }) (writeLoop_work _ (hR.blockBegun 6 addr count) rfl hloop)

theorem execErase_work (hR : Ready s) (h : execErase s = .next t) :
    t.work = { s.work with opR := 7, valR := blank, eraseR := 0x8000, stepR := .idle } := by
  obtain ⟨u, hsweep, hRu, -⟩ := eraseSweep_spec (.running 7 1) deviceSize (a := 0) hR.eraseBegun
  cases (execErase_of_sweep hsweep hRu).symm.trans h
  exact congrArg (fun w : Work => { w with stepR := .idle }) (eraseSweep_work (deviceSize - 1) hR.eraseBegun hsweep)

theorem exec_work_of_no_operation {i : Instr}
    (hi : isParse i = true ∨ (∃ low, i = .illegalOp0 low) ∨ (∃ low, i = .illegalOp8F low)) (h : exec i s = .next t) :
    t.work = s.work := by
  rcases hi with hi | ⟨low, rfl⟩ | ⟨low, rfl⟩
  · obtain ⟨line, hline⟩ := exec_of_isParse hi
    rw [hline] at h; cases h; rfl
  · cases h; rfl
  · cases h; rfl

/-- Settles O48: each instruction by its own lemma. -/
theorem workingRegisterFrame : Obligations.WorkingRegisterFrame := by
  intro addr cs v count s t hc hq inRange fits
  have hR : Ready s := ⟨hc, hq⟩
  exact ⟨execSetaddr_work hR,
    fun h => ⟨fun hn => execWritebyte_work_outOfRange (Nat.not_lt.mp hn) h, fun hlt => execWritebyte_work_inRange hR hlt h⟩,
    execFastwrite_work hR, execReadbyte_work hR, execReadblock_work hR, execWriteblock_work hR, execErase_work hR,
    fun i hi h => exec_work_of_no_operation hi h⟩

end Sys2Proof.Machine
end

section
/-! PROOFS. The S-record parser (44_srecord_parser.md): the character-serial machine reads a line pair by pair and computes the
function of the whole line; every other line it skips. -/

namespace Sys2Proof.Machine

variable {p : Parser} {l : List Byte} {x y : Byte}

/-! ## Pairs at the front of a line -/

theorem pairAt_cons_cons (x y : Byte) (l : List Byte) (k : Nat) : pairAt (x :: y :: l) (k + 2) = pairAt l k := rfl

theorem pairsFrom_cons_cons (x y : Byte) (l : List Byte) (k n : Nat) :
    pairsFrom (x :: y :: l) (k + 2) n = pairsFrom l k n := by
  induction n generalizing k with
  | zero => rfl
  | succ n ih => unfold pairsFrom; rw [pairAt_cons_cons, ih]

theorem pairAt_zero_of_nibbles {hi lo : BitVec 4} (hx : nibble x = some hi) (hy : nibble y = some lo) (l : List Byte) :
    pairAt (x :: y :: l) 0 = some (hi ++ lo) := by simp [pairAt, hx, hy]

/-- A line begins with a pair, or it ends or holds a character that is no hex digit before one is complete. -/
theorem pairAt_zero_cases (l : List Byte) :
    (∃ x y r hi lo, l = x :: y :: r ∧ nibble x = some hi ∧ nibble y = some lo) ∨
      (pairAt l 0 = none ∧ (l = [] ∨ (∃ x r, l = x :: r ∧ nibble x = none) ∨ (∃ x d, l = [x] ∧ nibble x = some d) ∨
        ∃ x d y r, l = x :: y :: r ∧ nibble x = some d ∧ nibble y = none)) := by
  match l with
  | [] => exact .inr ⟨rfl, .inl rfl⟩
  | [x] =>
    refine .inr ⟨rfl, .inr ?_⟩
    cases hx : nibble x with
    | none => exact .inl ⟨x, [], rfl, hx⟩
    | some d => exact .inr (.inl ⟨x, d, rfl, hx⟩)
  | x :: y :: r =>
    cases hx : nibble x with
    | none => exact .inr ⟨by simp [pairAt, hx], .inr (.inl ⟨x, y :: r, rfl, hx⟩)⟩
    | some hi =>
      cases hy : nibble y with
      | none => exact .inr ⟨by simp [pairAt, hx, hy], .inr (.inr (.inr ⟨x, hi, y, r, rfl, hx, hy⟩))⟩
      | some lo => exact .inl ⟨x, y, r, hi, lo, rfl, hx, hy⟩

theorem pairsFrom_front {hi lo : BitVec 4} (hx : nibble x = some hi) (hy : nibble y = some lo) (l : List Byte) (n : Nat) :
    pairsFrom (x :: y :: l) 0 (n + 1) = (pairsFrom l 0 n).map ((hi ++ lo : Byte) :: ·) := by
  rw [pairsFrom, pairAt_zero_of_nibbles hx hy, Nat.zero_add, pairsFrom_cons_cons x y l 0]
  cases pairsFrom l 0 n <;> rfl

theorem pairsFrom_missing (hl : pairAt l 0 = none) (n : Nat) : pairsFrom l 0 (n + 1) = none :=
  pairsFrom_succ_eq_none_iff.mpr (.inl hl)

/-! ## The machine on the characters of a line -/

/-- The machine after the characters `l`, from `p`. -/
abbrev Parser.feed (p : Parser) (l : List Byte) : Parser := l.foldl onChar p

/-- The states in which the next character must be a hex digit (44_srecord_parser.md R178). -/
def ParserState.needsDigit : ParserState → Bool
  | .cntH | .cntL | .adr3 | .adr2 | .adr1 | .adr0 | .datH | .datL => true
  | .start | .type | .skip | .done | .bad => false

theorem onChar_digit {d : BitVec 4} (hp : p.state.needsDigit = true) (hx : nibble x = some d) :
    onChar p x = onDigit d p := by
  unfold onChar
  split <;> simp_all [ParserState.needsDigit]

theorem onChar_noDigit (hp : p.state.needsDigit = true) (hx : nibble x = none) : onChar p x = { p with state := .bad } := by
  unfold onChar
  split <;> simp_all [ParserState.needsDigit]

/-- A line that ends where a digit is missing is malformed (44_srecord_parser.md R174). -/
theorem onEol_needsDigit (hp : p.state.needsDigit = true) : onEol p = .malformed := by
  unfold onEol
  split <;> simp_all [ParserState.needsDigit]

/-- The states that no character leaves (44_srecord_parser.md R178). -/
theorem feed_absorbed (hp : p.state = .skip ∨ p.state = .done ∨ p.state = .bad) (l : List Byte) : p.feed l = p := by
  induction l with
  | nil => rfl
  | cons x l ih =>
    have hstep : onChar p x = p := by
      rcases hp with h | h | h <;> simp [onChar, h]
    rw [Parser.feed, List.foldl_cons, hstep]
    exact ih

theorem onEol_feed_bad (p : Parser) (l : List Byte) : onEol (Parser.feed { p with state := .bad } l) = .malformed := by
  rw [feed_absorbed (.inr (.inr rfl))]; rfl

/-- A state that begins a pair: it needs a digit, and whichever comes it needs another. -/
structure Parser.BeginsPair (p : Parser) : Prop where
  first : p.state.needsDigit = true
  second : ∀ d, (onDigit d p).state.needsDigit = true

theorem Parser.BeginsPair.feed_pair (hp : p.BeginsPair) {hi lo : BitVec 4} (hx : nibble x = some hi) (hy : nibble y = some lo)
    (l : List Byte) : p.feed (x :: y :: l) = (onDigit lo (onDigit hi p)).feed l := by
  rw [Parser.feed, List.foldl_cons, List.foldl_cons, onChar_digit hp.first hx, onChar_digit (hp.second hi) hy]

/-- A pair that is missing or is no hex pair makes the line malformed (44_srecord_parser.md R174). -/
theorem Parser.BeginsPair.feed_missing (hp : p.BeginsPair) (hl : pairAt l 0 = none) : onEol (p.feed l) = .malformed := by
  rcases pairAt_zero_cases l with ⟨x, y, r, hi, lo, rfl, hx, hy⟩ |
    ⟨-, rfl | ⟨x, r, rfl, hx⟩ | ⟨x, d, rfl, hx⟩ | ⟨x, d, y, r, rfl, hx, hy⟩⟩
  · rw [pairAt_zero_of_nibbles hx hy] at hl; cases hl
  · exact onEol_needsDigit hp.first
  · rw [Parser.feed, List.foldl_cons, onChar_noDigit hp.first hx]
    exact onEol_feed_bad p r
  · rw [Parser.feed, List.foldl_cons, onChar_digit hp.first hx]
    exact onEol_needsDigit (hp.second d)
  · rw [Parser.feed, List.foldl_cons, List.foldl_cons, onChar_digit hp.first hx, onChar_noDigit (hp.second d) hy]
    exact onEol_feed_bad _ r

/-! ## Payload, address, count -/

/-- The result of a record whose payload so far is `out`, with the rest of its pairs if they are there. -/
def recordOf (addr : BitVec 16) (out : List Byte) : Option (List Byte) → ParseResult
  | some bs => .record addr (out ++ bs)
  | none => .malformed

theorem recordOf_cons (addr : BitVec 16) (out : List Byte) (b : Byte) (bs : Option (List Byte)) :
    recordOf addr out (bs.map (b :: ·)) = recordOf addr (out ++ [b]) bs := by
  cases bs with
  | none => rfl
  | some bs => simp [recordOf]

theorem beginsPair_datH (hp : p.state = .datH) : p.BeginsPair :=
  ⟨by rw [hp]; rfl, fun d => by simp [onDigit, hp, ParserState.needsDigit]⟩

theorem onDigit_datH (hp : p.state = .datH) (hi lo : BitVec 4) : onDigit lo (onDigit hi p) =
    { p with
      nib := hi, out := p.out ++ [hi ++ lo], rem := p.rem - 1
      state := if p.rem - 1 = 0 then .done else .datH } := by
  simp [onDigit, hp]

/-- The machine with `n` pairs of payload to go (44_srecord_parser.md R178). -/
theorem onEol_feed_payload (n : Nat) : ∀ {p : Parser} {l : List Byte}, p.rem.toNat = n →
    p.state = (if p.rem = 0 then .done else .datH) → onEol (p.feed l) = recordOf p.addr p.out (pairsFrom l 0 n) := by
  induction n with
  | zero =>
    intro p l hrem hstate
    have hzero : p.rem = 0 := BitVec.eq_of_toNat_eq hrem
    rw [if_pos hzero] at hstate
    rw [feed_absorbed (.inr (.inl hstate)), onEol, hstate]
    simp [recordOf, pairsFrom]
  | succ n ih =>
    intro p l hrem hstate
    have hone : (1 : Byte) ≤ p.rem := by rw [BitVec.le_def, hrem]; exact Nat.succ_le_succ (Nat.zero_le n)
    have hne : p.rem ≠ 0 := fun h => by rw [h] at hrem; cases hrem
    rw [if_neg hne] at hstate
    have hpair := beginsPair_datH hstate
    rcases pairAt_zero_cases l with ⟨x, y, r, hi, lo, rfl, hx, hy⟩ | ⟨hnone, -⟩
    · have hrem' : (p.rem - 1).toNat = n := by rw [BitVec.toNat_sub_of_le hone, hrem]; rfl
      rw [hpair.feed_pair hx hy, onDigit_datH hstate, ih hrem' rfl, pairsFrom_front hx hy]
      exact (recordOf_cons p.addr p.out (hi ++ lo) _).symm
    · rw [hpair.feed_missing hnone, pairsFrom_missing hnone]
      rfl

/-- Two more digits of an address keep its low byte before them (44_srecord_parser.md R178). -/
theorem shiftAddr_shiftAddr (a : BitVec 16) (hi lo : BitVec 4) :
    shiftAddr (shiftAddr a hi) lo = a.extractLsb' 0 8 ++ (hi ++ lo) := by
  refine BitVec.eq_of_getLsbD_eq fun i hi16 => ?_
  simp only [shiftAddr, BitVec.getLsbD_append, BitVec.getLsbD_extractLsb']
  rcases Nat.lt_or_ge i 4 with h4 | h4
  · simp [h4, show i < 8 by omega]
  rcases Nat.lt_or_ge i 8 with h8 | h8
  · simp [Nat.not_lt.mpr h4, h8, show i - 4 < 4 by omega, show i - 4 < 12 by omega]
  · simp [Nat.not_lt.mpr h4, Nat.not_lt.mpr h8, show ¬i - 4 < 4 by omega, show i - 4 < 12 by omega, show i - 8 < 8 by omega,
      show i - 4 - 4 = i - 8 by omega, show i - 8 < 12 by omega]

theorem extractLsb'_append_low (a b : Byte) : (a ++ b).extractLsb' 0 8 = b := BitVec.extractLsb'_append_eq_right

theorem beginsPair_adr3 (hp : p.state = .adr3) : p.BeginsPair :=
  ⟨by rw [hp]; rfl, fun d => by simp [onDigit, hp, ParserState.needsDigit]⟩

theorem beginsPair_adr1 (hp : p.state = .adr1) : p.BeginsPair :=
  ⟨by rw [hp]; rfl, fun d => by simp [onDigit, hp, ParserState.needsDigit]⟩

theorem onDigit_adr3 (hp : p.state = .adr3) (hi lo : BitVec 4) : onDigit lo (onDigit hi p) =
    { p with addr := p.addr.extractLsb' 0 8 ++ (hi ++ lo), state := .adr1 } := by
  rw [← shiftAddr_shiftAddr]; simp [onDigit, hp]

theorem onDigit_adr1 (hp : p.state = .adr1) (hi lo : BitVec 4) : onDigit lo (onDigit hi p) =
    { p with
      addr := p.addr.extractLsb' 0 8 ++ (hi ++ lo)
      state := if p.rem = 0 then .done else .datH } := by
  rw [← shiftAddr_shiftAddr]; simp [onDigit, hp]

/-- The result of a line whose pairs after the count are these. -/
def recordOfPairs : Option (List Byte) → ParseResult
  | some (hi :: lo :: payload) => .record (hi ++ lo) payload
  | _ => .malformed

/-- The machine at the low byte of the address, with `n` pairs of payload after it (44_srecord_parser.md R178). -/
theorem onEol_feed_addressLow {n : Nat} (hstate : p.state = .adr1) (hrem : p.rem.toNat = n) (hout : p.out = []) :
    onEol (p.feed l) = recordOfPairs ((pairsFrom l 0 (n + 1)).map (p.addr.extractLsb' 0 8 :: ·)) := by
  have hpair := beginsPair_adr1 hstate
  rcases pairAt_zero_cases l with ⟨x, y, r, hi, lo, rfl, hx, hy⟩ | ⟨hnone, -⟩
  · rw [hpair.feed_pair hx hy, onDigit_adr1 hstate, pairsFrom_front hx hy]
    refine (onEol_feed_payload n ?_ ?_).trans ?_
    · exact hrem
    · rfl
    · rw [hout]
      cases pairsFrom r 0 n <;> rfl
  · rw [hpair.feed_missing hnone, pairsFrom_missing hnone]
    rfl

/-- The machine at the address, with `n` pairs of payload after it (44_srecord_parser.md R178). -/
theorem onEol_feed_address {n : Nat} (hstate : p.state = .adr3) (hrem : p.rem.toNat = n) (hout : p.out = []) :
    onEol (p.feed l) = recordOfPairs (pairsFrom l 0 (n + 2)) := by
  have hpair := beginsPair_adr3 hstate
  rcases pairAt_zero_cases l with ⟨x, y, r, hi, lo, rfl, hx, hy⟩ | ⟨hnone, -⟩
  · rw [hpair.feed_pair hx hy, onDigit_adr3 hstate, pairsFrom_front hx hy]
    refine (onEol_feed_addressLow (n := n) ?_ ?_ ?_).trans ?_
    · rfl
    · exact hrem
    · exact hout
    · rw [extractLsb'_append_low]
  · rw [hpair.feed_missing hnone, pairsFrom_missing hnone]
    rfl

/-- The machine after the two characters of an S1 line. -/
def Parser.atCount : Parser := { Parser.idle with state := .cntH }

theorem beginsPair_atCount : Parser.atCount.BeginsPair := ⟨rfl, fun _ => rfl⟩

theorem feedLine_s1 (rest : List Byte) : feedLine (0x53 :: 0x31 :: rest) = Parser.atCount.feed rest := rfl

theorem onDigit_atCount (hi lo : BitVec 4) : onDigit lo (onDigit hi Parser.atCount) =
    if (hi ++ lo : Byte).toNat < 3 then { Parser.idle with nib := hi, count := hi ++ lo, state := .bad }
    else { Parser.idle with nib := hi, count := hi ++ lo, rem := hi ++ lo - 3, state := .adr3 } := rfl

/-- The machine and the function of the line agree on every S1 line (44_srecord_parser.md R171, R178). -/
theorem onEol_feedLine_s1 (rest : List Byte) :
    onEol (feedLine (0x53 :: 0x31 :: rest)) = parseLine (0x53 :: 0x31 :: rest) := by
  rw [feedLine_s1]
  rcases pairAt_zero_cases rest with ⟨x, y, r, hi, lo, rfl, hx, hy⟩ | ⟨hnone, -⟩
  · have hcount : pairAt (0x53 :: 0x31 :: x :: y :: r) 2 = some (hi ++ lo) := pairAt_zero_of_nibbles hx hy r
    rw [beginsPair_atCount.feed_pair hx hy, onDigit_atCount]
    by_cases hlt : (hi ++ lo : Byte).toNat < 3
    · rw [if_pos hlt, parseLine_s1_of_countBelowThree rfl rfl hcount hlt]
      exact onEol_feed_bad { Parser.idle with nib := hi, count := hi ++ lo } r
    · have hge : 3 ≤ (hi ++ lo : Byte).toNat := Nat.not_lt.mp hlt
      have hrem : (hi ++ lo - 3 : Byte).toNat = (hi ++ lo : Byte).toNat - 3 := BitVec.toNat_sub_of_le (BitVec.le_def.mpr hge)
      have hpairs : pairsFrom (0x53 :: 0x31 :: x :: y :: r) 4 ((hi ++ lo : Byte).toNat - 1) =
          pairsFrom r 0 ((hi ++ lo : Byte).toNat - 3 + 2) := by
        rw [pairsFrom_cons_cons _ _ _ 2, pairsFrom_cons_cons _ _ _ 0]
        congr 1
        omega
      rw [if_neg hlt, onEol_feed_address rfl hrem rfl, ← hpairs]
      cases h : pairsFrom (0x53 :: 0x31 :: x :: y :: r) 4 ((hi ++ lo : Byte).toNat - 1) with
      | none => exact (parseLine_s1_of_pairMissing rfl rfl hcount hge h).symm
      | some pairs =>
        obtain ⟨_, _, _, rfl, hrecord⟩ := parseLine_s1_of_pairs rfl rfl hcount hge h
        exact hrecord.symm
  · exact (beginsPair_atCount.feed_missing hnone).trans (parseLine_s1_of_countMissing rfl rfl hnone).symm

theorem runParser_eq (line : List Byte) (s : State) :
    runParser line s = .next { s with parsed := onEol (feedLine line), parser := Parser.idle } := rfl

/-- Settles O49: the machine and the function of the line agree, and PARSELINE writes nothing else. -/
theorem parselineComputesTheFunction : Obligations.ParselineComputesTheFunction := by
  intro rest s
  refine (runParser_eq _ s).trans ?_
  rw [onEol_feedLine_s1]

/-! ## Every other line -/

/-- A line that does not begin with the two characters of S1 is skipped (44_srecord_parser.md R173). -/
theorem onEol_feedLine_other (h : ∀ rest, l ≠ 0x53 :: 0x31 :: rest) : onEol (feedLine l) = .skipped := by
  match l with
  | [] => rfl
  | c0 :: rest =>
    by_cases h0 : c0 = 0x53
    · subst h0
      match rest with
      | [] => rfl
      | c1 :: rest =>
        have h1 : c1 ≠ 0x31 := fun h1 => h rest (by rw [h1])
        have hskip : (onChar { Parser.idle with state := .type } c1).state = .skip := if_neg h1
        change onEol ((onChar { Parser.idle with state := .type } c1).feed rest) = _
        rw [feed_absorbed (.inl hskip), onEol, hskip]
    · have hskip : (onChar Parser.idle c0).state = .skip := if_neg h0
      change onEol ((onChar Parser.idle c0).feed rest) = _
      rw [feed_absorbed (.inl hskip), onEol, hskip]

theorem runParser_other (h : ∀ rest, l ≠ 0x53 :: 0x31 :: rest) (s : State) :
    runParser l s = .next { s with parsed := .skipped, parser := Parser.idle } := by
  rw [runParser_eq, onEol_feedLine_other h]

/-- Another digit after the S is another row (30_encoding.md R108). -/
theorem runParser_otherDigit {d : Byte} (hd : d ≠ 0x31) (line : List Byte) (s : State) :
    runParser (0x53 :: d :: line) s = .next { s with parsed := .skipped, parser := Parser.idle } :=
  runParser_other (fun rest h => hd (by injection h with _ h; injection h)) s

/-- Settles O50: nine rows have another digit, and a `parseOther` line does not begin with a row's characters. -/
theorem otherRecordsAreSkipped : Obligations.OtherRecordsAreSkipped := by
  intro line s skip
  have hdigit (d : Byte) (hd : d ≠ 0x31) : runParser (0x53 :: d :: line) s = skip := runParser_otherDigit hd line s
  refine ⟨hdigit _ (by decide), hdigit _ (by decide), hdigit _ (by decide), hdigit _ (by decide), hdigit _ (by decide),
    hdigit _ (by decide), hdigit _ (by decide), hdigit _ (by decide), hdigit _ (by decide), fun hwf => ?_⟩
  refine runParser_other (fun rest h => ?_) s
  rw [h] at hwf
  cases hwf

/-! ## A record written out -/

/-- `digits` writes every byte as two hex digits (30_encoding.md R104, R105). -/
def WritesHexPairs (digits : Byte → List Byte) : Prop :=
  ∀ b, ∃ h l dh dl, digits b = [h, l] ∧ nibble h = some dh ∧ nibble l = some dl ∧ b = dh ++ dl

section Written
variable {digits : Byte → List Byte} (hdigits : WritesHexPairs digits)
include hdigits

theorem pairAt_digits (b : Byte) (l : List Byte) : pairAt (digits b ++ l) 0 = some b := by
  obtain ⟨x, y, hi, lo, hd, hx, hy, rfl⟩ := hdigits b
  rw [hd]
  exact pairAt_zero_of_nibbles hx hy l

theorem pairsFrom_digits (b : Byte) (l : List Byte) (k n : Nat) : pairsFrom (digits b ++ l) (k + 2) n = pairsFrom l k n := by
  obtain ⟨x, y, -, -, hd, -⟩ := hdigits b
  rw [hd]
  exact pairsFrom_cons_cons x y l k n

/-- Bytes written out in hex pairs are read back, with anything after them. -/
theorem pairsFrom_flatMap_digits (bs tail : List Byte) : pairsFrom (bs.flatMap digits ++ tail) 0 bs.length = some bs := by
  induction bs with
  | nil => rfl
  | cons b bs ih =>
    rw [List.flatMap_cons, List.append_assoc]
    refine pairsFrom_succ_eq_some_iff.mpr ⟨b, bs, pairAt_digits hdigits b _, ?_, rfl⟩
    rw [Nat.zero_add, pairsFrom_digits hdigits b _ 0]
    exact ih

end Written

/-- Settles O51: the count, then address and payload as one run of pairs, are read back. -/
theorem writtenRecordIsReadBack : Obligations.WrittenRecordIsReadBack := by
  intro count hi lo payload tail digits hdigits hge hlen
  have htext : [0x53, 0x31] ++ digits count ++ digits hi ++ digits lo ++ payload.flatMap digits ++ tail =
      0x53 :: 0x31 :: (digits count ++ ((hi :: lo :: payload).flatMap digits ++ tail)) := by simp
  rw [htext]
  have hcount : pairAt (0x53 :: 0x31 :: (digits count ++ ((hi :: lo :: payload).flatMap digits ++ tail))) 2 = some count :=
    pairAt_digits hdigits count _
  have hpairs : pairsFrom (0x53 :: 0x31 :: (digits count ++ ((hi :: lo :: payload).flatMap digits ++ tail))) 4
      (count.toNat - 1) = some (hi :: lo :: payload) := by
    rw [pairsFrom_cons_cons _ _ _ 2, pairsFrom_digits hdigits count _ 0,
      show count.toNat - 1 = (hi :: lo :: payload).length by simp only [List.length_cons]; omega]
    exact pairsFrom_flatMap_digits hdigits _ tail
  obtain ⟨_, _, _, heq, hrecord⟩ := parseLine_s1_of_pairs rfl rfl hcount hge hpairs
  cases heq
  exact hrecord

end Sys2Proof.Machine
end

section
/-! PROOFS. The host procedures (45_host_procedures.md): the lines of an S-record file, records on the reference device
`ideal`, and whole ranges read and written block by block. -/

namespace Sys2Proof.Machine

/-! ## Parameter checks -/

/-- Settles O53: the checks stand before the loops. -/
theorem hostChecksComeFirst : Obligations.HostChecksComeFirst := by
  refine fun start stop image s => ⟨fun h => if_neg h, fun h => if_pos h, fun hlen hstart => ?_⟩
  unfold writeRange
  rw [if_neg (Nat.not_lt.mpr hlen), if_pos hstart]

/-! ## Lines of a file -/

variable {s t : State} {l bad : List Byte} {ls : List (List Byte)} {j count : Nat}

theorem parseLine_other (h : ∀ rest, l ≠ 0x53 :: 0x31 :: rest) : parseLine l = .skipped := by
  refine if_pos ?_
  match l with
  | [] => exact .inl nofun
  | [c0] => exact .inr nofun
  | c0 :: c1 :: rest =>
    by_cases h0 : c0 = 0x53
    · exact .inr fun h1 => h rest (by rw [h0, Option.some.inj h1])
    · exact .inl fun e => h0 (Option.some.inj e)

/-- On every line the machine computes the function of the line (44_srecord_parser.md R171, R178). -/
theorem onEol_feedLine (l : List Byte) : onEol (feedLine l) = parseLine l := by
  by_cases h : ∃ rest, l = 0x53 :: 0x31 :: rest
  · obtain ⟨rest, rfl⟩ := h
    exact onEol_feedLine_s1 rest
  · have hother : ∀ rest, l ≠ 0x53 :: 0x31 :: rest := fun rest hl => h ⟨rest, hl⟩
    rw [onEol_feedLine_other hother, parseLine_other hother]

/-- Whatever row a line belongs to, the parser runs on the line as it stands (30_encoding.md R108). -/
theorem exec_decodeLine_eq_runParser (l : List Byte) (s : State) : exec (decodeLine l) s = runParser l s := by
  rcases line_cases l with ⟨d, rest, hd, rfl⟩ | hother
  · simp only [List.mem_cons, List.not_mem_nil, or_false] at hd
    rcases hd with rfl | rfl | rfl | rfl | rfl | rfl | rfl | rfl | rfl | rfl <;> rfl
  · rw [decodeLine_other hother]; rfl

/-- The state after a line that parses to `r` (44_srecord_parser.md R170). -/
def State.handed (r : ParseResult) (s : State) : State := { s with parsed := r, parser := Parser.idle }

theorem exec_decodeLine (l : List Byte) (s : State) : exec (decodeLine l) s = .next (s.handed (parseLine l)) := by
  rw [exec_decodeLine_eq_runParser, runParser_eq, onEol_feedLine]
  rfl

theorem srecLines_of_skipped (h : parseLine l = .skipped) :
    srecLines j (l :: ls) count s = srecLines (j + 1) ls count (s.handed .skipped) := by
  rw [srecLines, exec_decodeLine, h]
  rfl

theorem srecLines_of_malformed (h : parseLine l = .malformed) :
    srecLines j (l :: ls) count s = .next ⟨.srecMalformed j count, [], s.handed .malformed⟩ := by
  rw [srecLines, exec_decodeLine, h]
  rfl

section Record
variable {a : BitVec 16} {p : List Byte} (h : parseLine l = .record a p)
include h

theorem srecLines_of_written {n : Nat}
    (hw : writePayload a.toNat p count (s.handed (.record a p)) = .next (.written n t)) :
    srecLines j (l :: ls) count s = srecLines (j + 1) ls n t := by
  simp only [srecLines, exec_decodeLine, h, afterOp, State.handed] at hw ⊢
  rw [hw]

theorem srecLines_of_stopped {code : BitVec 4} {address n : Nat} {v : Byte}
    (hw : writePayload a.toNat p count (s.handed (.record a p)) = .next (.stopped code address v n t)) :
    srecLines j (l :: ls) count s = .next ⟨.failed code address v n, [], t⟩ := by
  simp only [srecLines, exec_decodeLine, h, afterOp, State.handed] at hw ⊢
  rw [hw]

theorem srecLines_of_fault {f : Fault} (hw : writePayload a.toNat p count (s.handed (.record a p)) = .fault f) :
    srecLines j (l :: ls) count s = .fault f := by
  simp only [srecLines, exec_decodeLine, h, afterOp, State.handed] at hw ⊢
  rw [hw]

theorem srecLines_of_refused {r : Refusal} (hw : writePayload a.toNat p count (s.handed (.record a p)) = .refused r) :
    srecLines j (l :: ls) count s = .refused r := by
  simp only [srecLines, exec_decodeLine, h, afterOp, State.handed] at hw ⊢
  rw [hw]

theorem recordBytes_of_record : recordBytes (l :: ls) = p.length + recordBytes ls := by
  rw [recordBytes, h]

/-- A record's line is behind a file that goes on: all of its payload is written (45_host_procedures.md R194). -/
theorem exists_written_of_srecLines_ok {r : HostRun} {n : Nat} (hrun : srecLines j (l :: ls) count s = .next r)
    (hok : r.result = .ok n) :
    ∃ t, writePayload a.toNat p count (s.handed (.record a p)) = .next (.written (count + p.length) t) := by
  cases hw : writePayload a.toNat p count (s.handed (.record a p)) with
  | next e =>
    cases e with
    | written m t =>
      obtain rfl := writePayload_written _ _ _ _ _ _ hw
      exact ⟨t, rfl⟩
    | stopped code address v m t =>
      rw [srecLines_of_stopped h hw] at hrun
      cases hrun; cases hok
  | fault f => rw [srecLines_of_fault h hw] at hrun; cases hrun
  | refused f => rw [srecLines_of_refused h hw] at hrun; cases hrun

end Record

theorem recordBytes_of_skipped (h : parseLine l = .skipped) : recordBytes (l :: ls) = recordBytes ls := by
  rw [recordBytes, h]
  exact Nat.zero_add _

/-- Skipped lines before a malformed one leave nothing behind (45_host_procedures.md R194). -/
theorem srecLines_skipped_malformed (hbad : parseLine bad = .malformed) (after : List (List Byte)) :
    ∀ (before : List (List Byte)) (j : Nat) (s : State), (∀ l ∈ before, parseLine l = .skipped) →
      srecLines j (before ++ bad :: after) count s =
        .next ⟨.srecMalformed (j + before.length) count, [], s.handed .malformed⟩ := by
  intro before
  induction before with
  | nil => intro j s _; exact srecLines_of_malformed hbad
  | cons l ls ih =>
    intro j s hskip
    obtain ⟨hl, hls⟩ := List.forall_mem_cons.mp hskip
    rw [List.cons_append, srecLines_of_skipped hl, ih (j + 1) _ hls, List.length_cons, Nat.add_assoc, Nat.add_comm 1]
    rfl

/-- A file that ends in `Ok` counts the bytes of its records, and with a malformed line after it ends there instead
(45_host_procedures.md R194). -/
theorem srecLines_ok_malformed (hbad : parseLine bad = .malformed) (after : List (List Byte)) :
    ∀ (before : List (List Byte)) (j count : Nat) (s : State) (r : HostRun) (n : Nat),
      srecLines j before count s = .next r → r.result = .ok n →
      n = count + recordBytes before ∧ srecLines j (before ++ bad :: after) count s =
        .next ⟨.srecMalformed (j + before.length) n, [], r.state.handed .malformed⟩ := by
  intro before
  induction before with
  | nil =>
    intro j count s r n hrun hok
    cases hrun; cases hok
    exact ⟨rfl, srecLines_of_malformed hbad⟩
  | cons l ls ih =>
    intro j count s r n hrun hok
    have hlines : j + 1 + ls.length = j + (l :: ls).length := by rw [List.length_cons]; omega
    cases hp : parseLine l with
    | skipped =>
      rw [srecLines_of_skipped hp] at hrun
      obtain ⟨hcount, hrest⟩ := ih _ _ _ _ _ hrun hok
      rw [List.cons_append, srecLines_of_skipped hp, recordBytes_of_skipped hp, ← hlines]
      exact ⟨hcount, hrest⟩
    | malformed =>
      rw [srecLines_of_malformed hp] at hrun
      cases hrun; cases hok
    | record a p =>
      obtain ⟨t, hw⟩ := exists_written_of_srecLines_ok hp hrun hok
      rw [srecLines_of_written hp hw] at hrun
      obtain ⟨hcount, hrest⟩ := ih _ _ _ _ _ hrun hok
      rw [List.cons_append, srecLines_of_written hp hw, recordBytes_of_record hp, ← hlines, ← Nat.add_assoc]
      exact ⟨hcount, hrest⟩

/-- Settles O55: line by line over what stands before the malformed one. -/
theorem srecFileStopsAtAMalformedLine : Obligations.SrecFileStopsAtAMalformedLine :=
  fun before after _ j count s hbad => ⟨srecLines_skipped_malformed hbad after before j s,
    srecLines_ok_malformed hbad after before j count s⟩

/-! ## A record's payload on `ideal` -/

/-- The bytes of a block lie in MEM from address `a` on, `w` of them. -/
def Device.Holds (d : Device) (a w : Nat) (bytes : List Byte) : Prop :=
  ∀ k, k < w → some (Memory.read d.mem (BitVec.ofNat 15 (a + k))) = bytes[k]?

/-- The device `e` keeps every byte of `d` outside `[a, a + w)` that no earlier write is on its way to. -/
def Device.KeepsOutside (d e : Device) (a w : Nat) : Prop :=
  ∀ b, (∀ k, k < w → b ≠ BitVec.ofNat 15 (a + k)) → d.landsAt b = false → d.KeepsByte b e

/-- What is written at higher addresses of an idle device leaves what it holds. -/
theorem Device.Holds.of_keepsOutside {d e : Device} {a w n : Nat} {bytes : List Byte} (h : d.Holds a w bytes)
    (hp : d.pend = .none) (hkeep : d.KeepsOutside e (a + w) n) (hn : a + w + n ≤ deviceSize) : e.Holds a w bytes := by
  intro k hk
  rw [← h k hk]
  have hkept := hkeep (BitVec.ofNat 15 (a + k)) (fun i hi => ofNat_ne_ofNat (by omega) (by omega) (by omega))
    (Device.landsAt_idle hp _)
  rw [hkept.2]

theorem toNat_ofNat_operand {n : Nat} (h : n < 131072) : (BitVec.ofNat 17 n).toNat = n :=
  (BitVec.toNat_ofNat n 17).trans (Nat.mod_eq_of_lt h)

theorem setWidth_ofNat_operand {n : Nat} (h : n < deviceSize) : (BitVec.ofNat 17 n).setWidth 15 = BitVec.ofNat 15 n := by
  rw [← BitVec.ofNat_toNat, toNat_ofNat_operand (Nat.lt_trans h (by decide))]

/-- A WRITEBYTE command in range on `ideal`: `Ok`, the byte stored (20_memory.md R75). -/
theorem exec_writebyte_ideal (hR : Ready s) (hk : s.dev.kind = .ideal) {a : Nat} (ha : a < deviceSize) (v : Byte) :
    ∃ t, exec (.writebyte (BitVec.ofNat 17 a) v) s = .next t ∧ Ready t ∧ t.resp = respWord .ok 0 ∧
      t.dev = s.dev.overtaken.complete (BitVec.ofNat 15 a) v ∧ Memory.read t.dev.mem (BitVec.ofNat 15 a) = v := by
  have hbegun := hR.begun 2 (BitVec.ofNat 17 a)
  obtain ⟨t, hw, hdev, hread, -⟩ := writeByte_ideal hbegun (BitVec.ofNat 15 a) v hk
  have hrange : (BitVec.ofNat 17 a).toNat < deviceSize := by
    rwa [toNat_ofNat_operand (Nat.lt_trans ha (by decide))]
  exact ⟨_, execWritebyte_inRange hrange (by rw [setWidth_ofNat_operand ha]; exact hw), (hbegun.writeByte hw).congr rfl rfl,
    rfl, hdev, hread⟩

theorem respCode_of_resp_ok (h : t.resp = respWord .ok 0) : respCode t.resp = 0 := by
  rw [h, respCode_respWord]; rfl

/-- A byte of the payload whose WRITEBYTE is `Ok` (45_host_procedures.md R194). -/
theorem writePayload_of_ok {a : Nat} {v : Byte} (vs : List Byte)
    (ht : exec (.writebyte (BitVec.ofNat 17 a) v) s = .next t) (hcode : respCode t.resp = 0) :
    writePayload a (v :: vs) count s = writePayload (a + 1) vs (count + 1) t := by
  rw [writePayload, ht]
  exact if_pos hcode

/-- A byte of the payload whose WRITEBYTE is not `Ok` (45_host_procedures.md R194). -/
theorem writePayload_of_not_ok {a : Nat} {v : Byte} (vs : List Byte)
    (ht : exec (.writebyte (BitVec.ofNat 17 a) v) s = .next t) (hcode : respCode t.resp ≠ 0) :
    writePayload a (v :: vs) count s = .next (.stopped (respCode t.resp) a v count t) := by
  rw [writePayload, ht]
  exact if_neg hcode

theorem Device.keepsOutside_overtaken_complete {d : Device} {a : Nat} (v : Byte) :
    d.KeepsOutside (d.overtaken.complete (BitVec.ofNat 15 a) v) a 1 := fun _ hb hland =>
  (Device.keepsByte_overtaken hland).trans (Device.keepsByte_complete v fun e => hb 0 Nat.zero_lt_one e.symm)

/-- One run of writes after another, at the addresses that follow (20_memory.md R74). -/
theorem Device.KeepsOutside.append {d e f : Device} {a m n : Nat} (h : d.KeepsOutside e a m) (k : e.KeepsOutside f (a + m) n) :
    d.KeepsOutside f a (m + n) := by
  intro b hb hland
  have hfirst := h b (fun i hi => hb i (by omega)) hland
  refine hfirst.trans (k b (fun i hi => ?_) hfirst.1)
  rw [Nat.add_assoc]
  exact hb (m + i) (by omega)

/-- On `ideal` a payload inside the device is stored whole (45_host_procedures.md R194, 20_memory.md R75). -/
theorem writePayload_ideal : ∀ (p : List Byte) {a count : Nat} {s : State}, Ready s → s.dev.kind = .ideal →
    (∀ k, k < p.length → a + k < deviceSize) →
    ∃ t, writePayload a p count s = .next (.written (count + p.length) t) ∧ Ready t ∧ t.dev.Holds a p.length p ∧
      s.dev.KeepsOutside t.dev a p.length := by
  intro p
  induction p with
  | nil => intro a count s hR _ _; exact ⟨s, rfl, hR, nofun, fun b _ hland => .refl hland⟩
  | cons v vs ih =>
    intro a count s hR hk hin
    have ha : a < deviceSize := hin 0 (Nat.succ_pos _)
    obtain ⟨u, hu, hRu, hresp, hdev, hread⟩ := exec_writebyte_ideal hR hk ha v
    have hstep : s.dev.KeepsOutside u.dev a 1 := hdev ▸ Device.keepsOutside_overtaken_complete v
    have hin' : ∀ k, k < vs.length → a + 1 + k < deviceSize := fun k hk => by
      have := hin (k + 1) (Nat.succ_lt_succ hk); omega
    obtain ⟨t, ht, hRt, hholds, hkeeps⟩ := ih (count := count + 1) hRu (by rw [hdev]; simpa using hk) hin'
    refine ⟨t, ?_, hRt, fun k hlt => ?_, ?_⟩
    · rw [writePayload_of_ok vs hu (respCode_of_resp_ok hresp), ht, List.length_cons, Nat.add_assoc, Nat.add_comm 1]
    · cases k with
      | zero =>
        have hfirst := hkeeps (BitVec.ofNat 15 a) (fun i hi => ofNat_ne_ofNat ha (hin' i hi) (by omega))
          (Device.landsAt_idle (by rw [hdev]; rfl) _)
        rw [Nat.add_zero, hfirst.2, hread]
        rfl
      | succ k =>
        rw [Nat.add_comm k 1, ← Nat.add_assoc, hholds k (Nat.lt_of_succ_lt_succ hlt), Nat.add_comm 1 k,
          List.getElem?_cons_succ]
    · rw [List.length_cons, Nat.add_comm]
      exact hstep.append hkeeps

theorem Ready.handed (h : Ready s) (r : ParseResult) : Ready (s.handed r) := h.congr rfl rfl

/-- Settles O56: the file is one line, whose payload is stored whole. -/
theorem srecRecordIsWrittenByteByByte : Obligations.SrecRecordIsWrittenByteByByte := by
  intro line address payload s hc hq hk hparse hfits
  obtain ⟨t, hw, -, hholds, -⟩ := writePayload_ideal payload (a := address.toNat) (count := 0)
    (Ready.handed ⟨hc, hq⟩ (.record address payload)) hk (fun k hlt => by omega)
  rw [Nat.zero_add] at hw
  exact ⟨⟨.ok payload.length, [], t⟩, srecLines_of_written hparse hw, rfl, hholds⟩

/-- The payload ends at its first byte whose WRITEBYTE is not `Ok` (45_host_procedures.md R194). -/
theorem writePayload_stops {a k : Nat} {p : List Byte} {v : Byte} {u : State} (hv : p[k]? = some v)
    (hbefore : writePayload a (p.take k) count s = .next (.written (count + k) t))
    (hu : exec (.writebyte (BitVec.ofNat 17 (a + k)) v) t = .next u) (hcode : respCode u.resp ≠ 0) :
    writePayload a p count s = .next (.stopped (respCode u.resp) (a + k) v (count + k) u) := by
  obtain ⟨hk, hget⟩ := List.getElem?_eq_some_iff.mp hv
  have hsplit : p = p.take k ++ v :: p.drop (k + 1) := by
    rw [← hget, ← List.drop_eq_getElem_cons hk, List.take_append_drop]
  have hlen : (p.take k).length = k := List.length_take_of_le (Nat.le_of_lt hk)
  rw [hsplit, writePayload_append _ _ _ _ _ _ _ hbefore, hlen]
  exact writePayload_of_not_ok _ hu hcode

theorem respCode_outOfRange : respCode (0x1000 : BitVec 16) = 1 := by decide

/-- Settles O59: the payload ends at its first failing byte, and on `ideal` that is the first one beyond the device, whose
address is rejected. -/
theorem srecFileStopsAtTheFirstFailingByte : Obligations.SrecFileStopsAtTheFirstFailingByte := by
  intro line after address payload j count s hparse
  have hfirst (k : Nat) (v : Byte) (t u : State) (hv : payload[k]? = some v)
      (hbefore : writePayload address.toNat (payload.take k) count (s.handed (.record address payload)) =
        .next (.written (count + k) t))
      (hu : exec (.writebyte (BitVec.ofNat 17 (address.toNat + k)) v) t = .next u) (hcode : respCode u.resp ≠ 0) :
      srecLines j (line :: after) count s = .next ⟨.failed (respCode u.resp) (address.toNat + k) v (count + k), [], u⟩ :=
    srecLines_of_stopped hparse (writePayload_stops hv hbefore hu hcode)
  refine ⟨hfirst, fun hc hq hk hpos hbeyond => ?_⟩
  intro w
  have hw : w < payload.length := by omega
  have haddr := address.isLt
  have hsize : deviceSize = 32768 := rfl
  have htake : (payload.take w).length = w := List.length_take_of_le (Nat.le_of_lt hw)
  obtain ⟨t, hbefore, -, hholds, -⟩ := writePayload_ideal (payload.take w) (a := address.toNat) (count := count)
    (Ready.handed ⟨hc, hq⟩ (.record address payload)) hk (fun k hlt => by rw [htake] at hlt; omega)
  rw [htake] at hbefore hholds
  have hrange : deviceSize ≤ (BitVec.ofNat 17 (address.toNat + w)).toNat := by
    rw [toNat_ofNat_operand (by omega)]; omega
  have hreject := execWritebyte_outOfRange payload[w] t hrange
  have hget : payload[w]? = some payload[w] := List.getElem?_eq_getElem hw
  have hrun := hfirst w payload[w] t _ hget hbefore hreject (by rw [respCode_outOfRange]; decide)
  rw [respCode_outOfRange] at hrun
  refine ⟨_, payload[w], hget, hrun, rfl, fun k hlt => ?_⟩
  rw [hholds k hlt, List.getElem?_take_of_lt hlt]

/-! ## Reading a range -/

theorem Ready.blockSize_bounds (h : Ready s) : 1 ≤ s.cfg.blockSize ∧ s.cfg.blockSize ≤ 2047 := by
  have hc := h.cfg
  simp only [Config.wf, Bool.and_eq_true, decide_eq_true_eq] at hc
  omega

theorem toNat_ofNat_count {n : Nat} (h : n ≤ 2047) : (BitVec.ofNat 11 n).toNat = n :=
  (BitVec.toNat_ofNat n 11).trans (Nat.mod_eq_of_lt (Nat.lt_succ_of_le h))

theorem clipped_of_fits {a n : Nat} (h : a + n ≤ deviceSize) : clipped a n = n := by
  unfold clipped; omega

/-- A buffer whose first elements are known is emitted as they are. -/
theorem bufferPrefix_eq_map {b : List Host.Cell} {n : Nat} {f : Nat → Byte} (h : ∀ i, i < n → Buffer.get b i = some (f i)) :
    bufferPrefix b n = (List.range n).map f := by
  unfold bufferPrefix
  rw [List.filterMap_congr fun i hi => h i (List.mem_range.mp hi)]
  exact congrFun List.filterMap_eq_map' _

/-- The bytes of MEM from address `a` on, `n` of them. -/
def Device.bytesFrom (d : Device) (a n : Nat) : List Byte :=
  (List.range' a n).map fun i => Memory.read d.mem (BitVec.ofNat 15 i)

theorem Device.bytesFrom_append (d : Device) (a m n : Nat) :
    d.bytesFrom a m ++ d.bytesFrom (a + m) n = d.bytesFrom a (m + n) := by
  unfold Device.bytesFrom
  rw [← List.map_append, List.range'_append_1]

theorem Device.bytesFrom_eq_map_range (d : Device) (a n : Nat) :
    d.bytesFrom a n = (List.range n).map fun k => Memory.read d.mem (BitVec.ofNat 15 (a + k)) := by
  unfold Device.bytesFrom
  rw [List.range'_eq_map_range, List.map_map]
  rfl

/-- A READBLOCK command inside an idle device: its bytes of MEM in the buffer, the device unchanged (42_block_transfer.md
R150). -/
theorem exec_readblock_idle (hR : Ready s) (hp : s.dev.pend = .none) (hk : s.dev.kind ≠ .oracle) {a n : Nat}
    (hn : n ≤ s.cfg.blockSize) (hfits : a + n ≤ deviceSize) :
    ∃ t, exec (.readblock (BitVec.ofNat 17 a) (BitVec.ofNat 11 n)) s = .next t ∧ Ready t ∧ t.dev = s.dev ∧
      (respValue t.resp).toNat = n ∧ bufferPrefix t.buf n = s.dev.bytesFrom a n := by
  have hn' : n ≤ 2047 := hn.trans hR.blockSize_bounds.2
  have haddr : (BitVec.ofNat 17 a).toNat = a :=
    toNat_ofNat_operand (Nat.lt_of_le_of_lt (by omega : a ≤ deviceSize) (by decide))
  have hcount : (BitVec.ofNat 11 n).toNat = n := toNat_ofNat_count hn'
  have hle : (BitVec.ofNat 11 n).toNat ≤ s.cfg.blockSize := by rw [hcount]; exact hn
  have hbegun := hR.blockBegun 5 (BitVec.ofNat 17 a) (BitVec.ofNat 11 n)
  obtain ⟨t, hloop, hRt, -⟩ := readLoop_spec (BitVec.ofNat 17 a).toNat (.running 5 1) (BitVec.ofNat 11 n).toNat (i := 0) hbegun
  rw [clipped_eq, Nat.zero_add] at hloop
  obtain ⟨hdev, hcopied⟩ := readLoop_idle _ _ _ hbegun hp hk hloop
  have hclip : clipped (BitVec.ofNat 17 a).toNat (BitVec.ofNat 11 n).toNat = n := by
    rw [haddr, hcount]; exact clipped_of_fits hfits
  rw [hclip] at hloop hcopied
  rw [haddr] at hcopied
  refine ⟨_, execReadblock_of_loop hle hloop, hRt.congr rfl rfl, hdev, ?_, ?_⟩
  · rw [conclude_resp, respValue_respWord]; exact hcount
  · rw [Device.bytesFrom_eq_map_range]
    exact bufferPrefix_eq_map fun i hi => hcopied i (Nat.zero_le i) hi

/-- A block of a range that comes back whole (45_host_procedures.md R191). -/
theorem readRangeLoop_of_whole {start stop n a req : Nat} {out : List Byte} (ha : a ≤ stop)
    (hreq : req = min s.cfg.blockSize (stop - a + 1))
    (ht : exec (.readblock (BitVec.ofNat 17 a) (BitVec.ofNat 11 req)) s = .next t)
    (hgot : (respValue t.resp).toNat = req) :
    readRangeLoop start stop (n + 1) a out s = readRangeLoop start stop n (a + req) (out ++ bufferPrefix t.buf req) t := by
  subst hreq
  rw [readRangeLoop, if_neg (Nat.not_lt.mpr ha)]
  simp only [ht, afterOp, hgot]
  exact if_neg (Nat.lt_irrefl _)

/-- On an idle device the loop emits what is left of the range (45_host_procedures.md R191). -/
theorem readRangeLoop_idle {start stop : Nat} (hstop : stop < deviceSize) (n : Nat) :
    ∀ {a : Nat} {out : List Byte} {s : State}, Ready s → s.dev.pend = .none → s.dev.kind ≠ .oracle → a ≤ stop + 1 → stop + 1 - a ≤ n →
    ∃ t, readRangeLoop start stop n a out s =
        .next ⟨.ok (stop + 1 - start), out ++ s.dev.bytesFrom a (stop + 1 - a), t⟩ ∧ t.dev = s.dev := by
  induction n with
  | zero =>
    intro a out s _ _ _ hle hn
    obtain rfl : a = stop + 1 := by omega
    exact ⟨s, by simp [readRangeLoop, Device.bytesFrom], rfl⟩
  | succ n ih =>
    intro a out s hR hp hk hle hn
    rcases Nat.lt_or_ge stop a with hdone | ha
    · obtain rfl : a = stop + 1 := by omega
      exact ⟨s, by simp [readRangeLoop, Device.bytesFrom], rfl⟩
    · have hbounds := hR.blockSize_bounds
      obtain ⟨req, hreq⟩ : ∃ req, req = min s.cfg.blockSize (stop - a + 1) := ⟨_, rfl⟩
      obtain ⟨t, ht, hRt, hdev, hgot, hbytes⟩ := exec_readblock_idle hR hp hk (a := a) (n := req) (by omega) (by omega)
      obtain ⟨u, hu, hudev⟩ := ih (a := a + req) (out := out ++ bufferPrefix t.buf req) hRt (by rw [hdev]; exact hp)
        (by rw [hdev]; exact hk) (by omega) (by omega)
      refine ⟨u, ?_, hudev.trans hdev⟩
      rw [readRangeLoop_of_whole ha hreq ht hgot, hu, hbytes, hdev, List.append_assoc, Device.bytesFrom_append]
      congr 4
      omega

/-- Settles O54: the loop from `start` with nothing emitted. -/
theorem readRangeIsVerbatim : Obligations.ReadRangeIsVerbatim := by
  intro start stop s hle hstop hc hq hp hk
  obtain ⟨t, hloop, hdev⟩ := readRangeLoop_idle (start := start) hstop (stop + 1 - start) (a := start) (out := []) ⟨hc, hq⟩
    hp hk (by omega) (Nat.le_refl _)
  refine ⟨_, (if_pos ⟨hle, hstop⟩).trans hloop, rfl, hdev, ?_⟩
  rw [List.nil_append, Device.bytesFrom_eq_map_range]

/-! ## Writing a range -/

theorem get_loadBuffer_below : ∀ (bytes : List Byte) (i : Nat) (b : List Host.Cell) {k : Nat}, k < i →
    Buffer.get (loadBuffer i bytes b) k = Buffer.get b k := by
  intro bytes
  induction bytes with
  | nil => intro i b k _; rfl
  | cons v vs ih =>
    intro i b k hk
    rw [loadBuffer, ih (i + 1) _ (Nat.lt_succ_of_lt hk)]
    exact Buffer.get_set_other _ _ (Nat.ne_of_lt hk)

theorem get_loadBuffer : ∀ (bytes : List Byte) (i : Nat) (b : List Host.Cell) {k : Nat}, k < bytes.length →
    Buffer.get (loadBuffer i bytes b) (i + k) = bytes[k]? := by
  intro bytes
  induction bytes with
  | nil => intro i b k hk; cases hk
  | cons v vs ih =>
    intro i b k hk
    cases k with
    | zero =>
      exact (get_loadBuffer_below vs (i + 1) _ (Nat.lt_succ_self i)).trans (Buffer.get_set_same _ _ _)
    | succ k =>
      rw [loadBuffer, Nat.add_comm k 1, ← Nat.add_assoc, ih (i + 1) _ (Nat.lt_of_succ_lt_succ hk), Nat.add_comm 1 k,
        List.getElem?_cons_succ]

/-- The block that writeRange puts in the buffer (45_host_procedures.md R192). -/
def State.loaded (bytes : List Byte) (s : State) : State := { s with buf := loadBuffer 0 bytes s.buf }

theorem get_loaded {bytes : List Byte} {k : Nat} (hk : k < bytes.length) (s : State) :
    Buffer.get (s.loaded bytes).buf k = bytes[k]? := by
  have h := get_loadBuffer bytes 0 s.buf hk
  rwa [Nat.zero_add] at h

theorem Ready.loaded (h : Ready s) (bytes : List Byte) : Ready (s.loaded bytes) := h.congr rfl rfl

/-- The loop of WRITEBLOCK leaves the port ready. -/
theorem Ready.writeLoop {addr n i : Nat} {head : StepIndex} {x : OutcomeCode × Nat × State} (hR : Ready s)
    (hbuf : ∀ j, i ≤ j → j < i + min n (deviceSize - (addr + i)) → (Buffer.get s.buf j).isSome = true)
    (h : writeLoop addr head n i s = .ok x) : Ready x.2.2 := by
  obtain ⟨o, k, t, reads, hloop, -, -, -, -, -, -, hnone, hport, -⟩ := writeLoop_spec addr head n hR hbuf
  cases hloop.symm.trans h
  rcases Nat.eq_zero_or_pos (min n (deviceSize - (addr + i))) with hm | hm
  · rw [hnone hm]; exact hR
  · exact hR.latched (writeLoop_frame hloop).cfg (hport hm)

/-- A WRITEBLOCK command of loaded bytes on `ideal`: the clipped block stored (42_block_transfer.md R151, R152). -/
theorem exec_writeblock_ideal (hR : Ready s) (hk : s.dev.kind = .ideal) {a : Nat} {bytes : List Byte} (ha : a ≤ deviceSize)
    (hn : bytes.length ≤ s.cfg.blockSize) :
    let m := clipped a bytes.length
    ∃ t, exec (.writeblock (BitVec.ofNat 17 a) (BitVec.ofNat 11 bytes.length)) (s.loaded bytes) = .next t ∧ Ready t ∧
      t.dev.kind = .ideal ∧ t.buf = (s.loaded bytes).buf ∧ t.resp = respWord .ok (BitVec.ofNat 11 m) ∧
      (0 < m → t.dev.pend = .none) ∧ t.dev.Holds a m bytes ∧ s.dev.KeepsOutside t.dev a m := by
  intro m
  have haddr : (BitVec.ofNat 17 a).toNat = a := toNat_ofNat_operand (Nat.lt_of_le_of_lt ha (by decide))
  have hcount : (BitVec.ofNat 11 bytes.length).toNat = bytes.length :=
    toNat_ofNat_count (hn.trans hR.blockSize_bounds.2)
  have hle : (BitVec.ofNat 11 bytes.length).toNat ≤ (s.loaded bytes).cfg.blockSize := by rw [hcount]; exact hn
  have hbegun := (hR.loaded bytes).blockBegun 6 (BitVec.ofNat 17 a) (BitVec.ofNat 11 bytes.length)
  have hm : 0 + min bytes.length (deviceSize - (a + 0)) = m := by rw [clipped_eq, Nat.zero_add]
  have hget (j : Nat) (hj : j < m) : Buffer.get (s.loaded bytes).buf j = bytes[j]? :=
    get_loaded (Nat.lt_of_lt_of_le hj (Nat.min_le_left _ _)) s
  have hbuf : ∀ j, 0 ≤ j → j < 0 + min bytes.length (deviceSize - (a + 0)) →
      (Buffer.get (s.loaded bytes).buf j).isSome = true := by
    intro j _ hj
    rw [hm] at hj
    rw [hget j hj, List.getElem?_eq_getElem (Nat.lt_of_lt_of_le hj (Nat.min_le_left _ _))]
    rfl
  obtain ⟨t, hloop, -, hidle, hstored⟩ := writeLoop_ideal a (.running 6 1) bytes.length (i := 0) hbegun hk hbuf
  have hRt := hbegun.writeLoop hbuf hloop
  have hframe := (begin_frame 6 _ (s.loaded bytes)).trans (writeLoop_frame hloop)
  rw [hm] at hloop hstored
  have hexec := execWriteblock_of_loop (addr := BitVec.ofNat 17 a) hle (by rw [haddr, hcount]; exact hloop)
  refine ⟨_, hexec, hRt.congr rfl rfl, hframe.kind.trans hk, hframe.buf, rfl, fun hpos => hidle (.inr hpos),
    fun j hj => ?_, fun b hb hland => ?_⟩
  · rw [← hget j hj]
    exact hstored j (Nat.zero_le j) hj
  · exact keepsByte_writeLoop hbegun hbuf (fun j _ hj => hb j (by rw [hm] at hj; exact hj)) hland hloop

/-- How the loop of writeRange ends with `rest` to go and `w` bytes of it before the end of the device: all of them stored,
and the result tells whether that was all (45_host_procedures.md R192, 60_exceptions.md R200). -/
structure RangeWritten (s : State) (a done w : Nat) (rest : List Byte) (r : HostRun) : Prop where
  emitted : r.emitted = []
  holds : r.state.dev.Holds a w rest
  keeps : s.dev.KeepsOutside r.state.dev a w
  whole : w = rest.length → r.result = .ok (done + w)
  short : w < rest.length → r.result = .shortTransfer 0 deviceSize rest[w]? (done + w)

/-- With nothing to go. -/
theorem RangeWritten.nil (s : State) (a done : Nat) : RangeWritten s a done 0 [] ⟨.ok done, [], s⟩ :=
  ⟨rfl, nofun, fun _ _ hland => .refl hland, fun _ => rfl, nofun⟩

/-- A block that is stored whole, before the rest. -/
theorem RangeWritten.block {a done m w : Nat} {rest : List Byte} {r : HostRun}
    (hr : RangeWritten t (a + m) (done + m) w (rest.drop m) r) (hidle : t.dev.pend = .none) (hholds : t.dev.Holds a m (rest.take m)) (hkeeps : s.dev.KeepsOutside t.dev a m)
    (hm : m ≤ rest.length) (hfits : a + m + w ≤ deviceSize) : RangeWritten s a done (m + w) rest r := by
  have hlen : (rest.drop m).length = rest.length - m := List.length_drop
  refine ⟨hr.emitted, fun k hk => ?_, hkeeps.append hr.keeps, fun he => ?_, fun hlt => ?_⟩
  · rcases Nat.lt_or_ge k m with hfirst | hlater
    · rw [hholds.of_keepsOutside hidle hr.keeps hfits k hfirst, List.getElem?_take_of_lt hfirst]
    · have h := hr.holds (k - m) (by omega)
      rw [List.getElem?_drop] at h
      rwa [show a + m + (k - m) = a + k by omega, show m + (k - m) = k by omega] at h
  · rw [hr.whole (by omega), Nat.add_assoc]
  · rw [hr.short (by omega), List.getElem?_drop, Nat.add_assoc]

section Block
variable {start n done req : Nat} {rest : List Byte} (hrest : rest ≠ []) (hreq : req = min s.cfg.blockSize rest.length)
  (ht : exec (.writeblock (BitVec.ofNat 17 (start + done)) (BitVec.ofNat 11 req)) (s.loaded (rest.take req)) = .next t)
include hrest hreq ht

/-- A block that comes back whole (45_host_procedures.md R192). -/
theorem writeRangeLoop_of_whole (hgot : (respValue t.resp).toNat = req) :
    writeRangeLoop start (n + 1) done rest s = writeRangeLoop start n (done + req) (rest.drop req) t := by
  subst hreq
  rw [writeRangeLoop, if_neg hrest]
  simp only [State.loaded] at ht
  simp only [ht, afterOp, hgot]
  exact if_neg (Nat.lt_irrefl _)

/-- A block that comes back short (45_host_procedures.md R192). -/
theorem writeRangeLoop_of_short {got : Nat} (hgot : (respValue t.resp).toNat = got) (hshort : got < req) :
    writeRangeLoop start (n + 1) done rest s = .next
      ⟨.shortTransfer (respCode t.resp) (start + done + got) (Buffer.get t.buf got) (done + got), [], t⟩ := by
  subst hreq
  rw [writeRangeLoop, if_neg hrest]
  simp only [State.loaded] at ht
  simp only [ht, afterOp, hgot]
  exact if_pos hshort

end Block

/-- On `ideal` the loop stores what is left of the image up to the end of the device (45_host_procedures.md R192). -/
theorem writeRangeLoop_ideal (start n : Nat) : ∀ {done : Nat} {rest : List Byte} {s : State}, Ready s → s.dev.kind = .ideal →
    start + done ≤ deviceSize → rest.length ≤ n →
    ∃ r, writeRangeLoop start n done rest s = .next r ∧
      RangeWritten s (start + done) done (min rest.length (deviceSize - (start + done))) rest r := by
  induction n with
  | zero =>
    intro done rest s _ _ _ hn
    obtain rfl := List.length_eq_zero_iff.mp (Nat.le_zero.mp hn)
    exact ⟨_, rfl, by simpa using RangeWritten.nil s (start + done) done⟩
  | succ n ih =>
    intro done rest s hR hk hstart hn
    by_cases hrest : rest = []
    · subst hrest
      exact ⟨_, rfl, by simpa using RangeWritten.nil s (start + done) done⟩
    have hpos := List.length_pos_iff.mpr hrest
    have hbounds := hR.blockSize_bounds
    obtain ⟨req, hreq⟩ : ∃ req, req = min s.cfg.blockSize rest.length := ⟨_, rfl⟩
    have hlen : (rest.take req).length = req := List.length_take_of_le (by omega)
    obtain ⟨t, ht, hRt, hkt, hbuft, hresp, hidle, hholds, hkeeps⟩ :=
      exec_writeblock_ideal hR hk (bytes := rest.take req) hstart (by omega)
    simp only [hlen] at ht hresp hidle hholds hkeeps
    obtain ⟨m, hm⟩ : ∃ m, m = clipped (start + done) req := ⟨_, rfl⟩
    rw [← hm] at hresp hidle hholds hkeeps
    unfold clipped at hm
    have hgot : (respValue t.resp).toNat = m := by rw [hresp, respValue_respWord, toNat_ofNat_count (by omega)]
    by_cases hwhole : m = req
    · rw [hwhole] at hgot hidle hholds hkeeps
      obtain ⟨r, hr, hwritten⟩ := ih (done := done + req) (rest := rest.drop req) hRt hkt (by omega)
        (by rw [List.length_drop]; omega)
      rw [← Nat.add_assoc, List.length_drop] at hwritten
      have hw : min rest.length (deviceSize - (start + done)) =
          req + min (rest.length - req) (deviceSize - (start + done + req)) := by omega
      rw [hw]
      exact ⟨r, (writeRangeLoop_of_whole hrest hreq ht hgot).trans hr,
        hwritten.block (hidle (by omega)) hholds hkeeps (by omega) (by omega)⟩
    · have hw : min rest.length (deviceSize - (start + done)) = m := by omega
      have hcode : respCode t.resp = 0 := by rw [hresp, respCode_respWord]; rfl
      have hbyte : Buffer.get t.buf m = rest[m]? := by
        rw [hbuft, get_loaded (by omega), List.getElem?_take_of_lt (by omega)]
      refine ⟨_, writeRangeLoop_of_short hrest hreq ht hgot (by omega), ?_⟩
      rw [hw, hcode, hbyte, show start + done + m = deviceSize by omega]
      exact ⟨rfl, fun k hlt => (hholds k hlt).trans (List.getElem?_take_of_lt (by omega)), hkeeps, fun he => by omega,
        fun _ => rfl⟩

/-- Settles O58: the loop from the start address with the whole image. -/
theorem writeRangeStoresTheImage : Obligations.WriteRangeStoresTheImage := by
  intro start image s hstart hlen hc hq hk w
  obtain ⟨r, hr, hwritten⟩ := writeRangeLoop_ideal start image.length (done := 0) (rest := image) ⟨hc, hq⟩ hk
    (Nat.le_of_lt hstart) (Nat.le_refl _)
  rw [Nat.add_zero] at hwritten
  change RangeWritten s start 0 w image r at hwritten
  obtain ⟨hemitted, hholds, -, hwhole, hshort⟩ := hwritten
  have hrun : writeRange start image s = .next r := by
    unfold writeRange
    rw [if_neg (Nat.not_lt.mpr hlen), if_neg (Nat.not_le.mpr hstart)]
    exact hr
  refine ⟨r, hrun, hemitted, hholds, fun hfits => ?_, fun hbeyond => ?_⟩
  · have hw : w = image.length := by omega
    have hresult := hwhole hw
    rw [Nat.zero_add, hw] at hresult
    exact ⟨hresult, by rw [hresult]; rfl⟩
  · have hresult := hshort (by omega : w < image.length)
    rw [Nat.zero_add] at hresult
    exact ⟨hresult, by rw [hresult]; rfl, by rw [hresult]; rfl⟩

end Sys2Proof.Machine
end
